-- ==== Sys2Proof/Word.lean ====
section
/-! DEFINITION. The machine's word types (spec 00_scope.md R12, R13). -/

namespace Sys2Proof

/-- One byte of shared memory (20_memory.md R52). -/
abbrev Byte := BitVec 8

/-- One register, one command word, one memory address: 32 bits (00_scope.md R12). -/
abbrev Word := BitVec 32

end Sys2Proof
end

