-- ==== Sys2Proof/Syntax.lean ====
section
/-! DEFINITION. The instructions: one constructor per row of spec/opcode_table.json. -/

namespace Sys2Proof

/-- A pixel format (00_scope.md R11): RGB8 is code 1 with 3 bytes a pixel, Gray8 code 2 with 1. -/
inductive PixFmt where
  | rgb8
  | gray8
deriving DecidableEq, Repr

/-- One tag block of a compressed row (30_encoding.md R80 to R82). -/
inductive Block where
  /-- `REP n, {pixel}`: `px` is one pixel. -/
  | rep (n : Byte) (px : List Byte)
  /-- `LIT m, {p1} .. {pm}`: `px` is the `m` pixels' bytes. -/
  | lit (m : Byte) (px : List Byte)
deriving DecidableEq, Repr

/-- The rows of spec/opcode_table.json: the twelve commands (30_encoding.md R74), the reserved slot
0x43 (R79, log 13), and the two tag blocks (R80). -/
inductive Instr where
  | nop
  | hdrParse
  | cksum
  | cksumStamp
  | rowEnc
  | rowDec
  | imgEnc
  | imgDec
  /-- `df` is the target format, ARG. -/
  | cvt (df : PixFmt)
  | fileCompress
  | fileDecompress
  /-- `df` is the target format, ARG. -/
  | fileConvert (df : PixFmt)
  /-- Any word with OPC 0x43; `rest` is its bits [31:8]. -/
  | reserved43 (rest : BitVec 24)
  /-- `m` is the count byte, `px` the payload bytes. -/
  | literalBlock (m : Byte) (px : List Byte)
  /-- `n` is the tag byte, `px` the pixel's bytes. -/
  | repeatBlock (n : Byte) (px : List Byte)
deriving DecidableEq, Repr

/-- A tag block as an instruction. -/
def Block.toInstr : Block → Instr
  | .rep n px => .repeatBlock n px
  | .lit m px => .literalBlock m px

end Sys2Proof
end

