-- ==== Sys2Proof/WellFormed.lean ====
section
/-! DEFINITION. Which instructions an encoding exists for: the operands fit their fields. -/

namespace Sys2Proof

/-- A block of a row with `bpp` bytes a pixel (30_encoding.md R81, R82): the repeat tag is not 0 and
carries one pixel; the literal count is not 0 and counts the payload's pixels. -/
def Block.wellFormedAt (bpp : Nat) : Block → Bool
  | .rep n px => n != 0 && px.length == bpp
  | .lit m px => m != 0 && px.length == m.toNat * bpp

/-- An instruction whose operands fit its encoding, the row being decoded having `bpp` bytes a pixel.
A command word's operands fit by their types; `reserved43` has an encoding and no meaning of its
own (30_encoding.md R79). -/
def Instr.wellFormedAt (bpp : Nat) : Instr → Bool
  | .repeatBlock n px => (Block.rep n px).wellFormedAt bpp
  | .literalBlock m px => (Block.lit m px).wellFormedAt bpp
  | .nop | .hdrParse | .cksum | .cksumStamp | .rowEnc | .rowDec | .imgEnc | .imgDec | .cvt _
  | .fileCompress | .fileDecompress | .fileConvert _ | .reserved43 _ => true

/-- Well formed in a row of RGB8 or of Gray8 pixels. -/
def Instr.wellFormed (i : Instr) : Bool :=
  i.wellFormedAt 1 || i.wellFormedAt 3

end Sys2Proof
end

