-- ==== Sys2Proof/Decode.lean ====
section
/-! DEFINITION. The decoder of command words and tag blocks, total and rejecting by name, and the
encoder (30_encoding.md R70 to R83). -/

namespace Sys2Proof

/-- Why a word or a block is not decoded. -/
inductive DecodeError where
  /-- OPC is not in the map (30_encoding.md R75: ILLEGAL 1). -/
  | undefinedOpcode
  /-- RSVD is not 0 (R75, R76: ILLEGAL 2). -/
  | reservedBits
  /-- ARG is not legal for the OPC (R75, R76: ILLEGAL 3). -/
  | badArgument
  /-- There is no tag byte: the compressed row is used up (43_rle_row.md R143). -/
  | noBlock
  /-- A repeat block's pixel runs past the compressed row (R141: CORRUPT 1). -/
  | repeatCutShort
  /-- A literal block's count byte is missing (R142: CORRUPT 2). -/
  | literalCountMissing
  /-- A literal block's payload runs past the compressed row (R142: CORRUPT 4). -/
  | literalCutShort
deriving DecidableEq, Repr

/-- The header's code of a format, also ARG's (00_scope.md R11, 30_encoding.md R73). -/
def PixFmt.code : PixFmt → Byte
  | .rgb8 => 1
  | .gray8 => 2

/-- `BppOf` of a format: bytes per pixel (43_rle_row.md R145). -/
def PixFmt.bpp : PixFmt → Nat
  | .rgb8 => 3
  | .gray8 => 1

/-- The format a code names, if it names one. -/
def PixFmt.ofCode (b : Byte) : Option PixFmt :=
  if b = 1 then some .rgb8 else if b = 2 then some .gray8 else none

/-- OPC, bits [7:0] (30_encoding.md R72). -/
def opcField (w : Word) : Byte := w.extractLsb' 0 8

/-- ARG, bits [11:8] (R72). -/
def argField (w : Word) : BitVec 4 := w.extractLsb' 8 4

/-- RSVD, bits [31:12] (R72). -/
def rsvdField (w : Word) : BitVec 20 := w.extractLsb' 12 20

/-- The commands whose ARG is 0 (30_encoding.md R74). -/
def plainCommand (opc : Byte) : Option Instr :=
  if opc = 0x00 then some .nop
  else if opc = 0x01 then some .hdrParse
  else if opc = 0x02 then some .cksum
  else if opc = 0x03 then some .cksumStamp
  else if opc = 0x10 then some .rowEnc
  else if opc = 0x11 then some .rowDec
  else if opc = 0x20 then some .imgEnc
  else if opc = 0x21 then some .imgDec
  else if opc = 0x40 then some .fileCompress
  else if opc = 0x41 then some .fileDecompress
  else none

/-- The commands whose ARG is a target format (R74). -/
def formatCommand (opc : Byte) (df : PixFmt) : Option Instr :=
  if opc = 0x30 then some (.cvt df)
  else if opc = 0x42 then some (.fileConvert df)
  else none

/-- Whether the OPC takes a target format (R74). -/
def takesFormat (opc : Byte) : Bool := opc == 0x30 || opc == 0x42

/-- Command decode (30_encoding.md R75): OPC, then RSVD, then ARG. A word with OPC 0x43 is the
table's reserved row, whatever its other bits (R79, log 13). -/
def decodeCommand (w : Word) : Except DecodeError Instr :=
  if opcField w = 0x43 then .ok (.reserved43 (w.extractLsb' 8 24))
  else if takesFormat (opcField w) then
    if rsvdField w ≠ 0 then .error .reservedBits
    else
      match (PixFmt.ofCode ((argField w).setWidth 8)).bind (formatCommand (opcField w)) with
      | some i => .ok i
      | none => .error .badArgument
  else
    match plainCommand (opcField w) with
    | none => .error .undefinedOpcode
    | some i =>
      if rsvdField w ≠ 0 then .error .reservedBits
      else if argField w ≠ 0 then .error .badArgument
      else .ok i

/-- Block decode (30_encoding.md R80 to R82; the read checks of 43_rle_row.md R141, R142): the tag
byte selects the kind. Answers the block and the bytes after it. A literal count of 0 decodes; its
execution raises CORRUPT 3 (log 12). -/
def decodeBlock (bpp : Nat) : List Byte → Except DecodeError (Block × List Byte)
  | [] => .error .noBlock
  | tag :: rest =>
    if tag ≠ 0 then
      if bpp ≤ rest.length then .ok (.rep tag (rest.take bpp), rest.drop bpp)
      else .error .repeatCutShort
    else
      match rest with
      | [] => .error .literalCountMissing
      | m :: rest =>
        if m.toNat * bpp ≤ rest.length then
          .ok (.lit m (rest.take (m.toNat * bpp)), rest.drop (m.toNat * bpp))
        else .error .literalCutShort

/-- An encoded instruction: a word for CMD, or the bytes of a tag block. -/
inductive Encoded where
  | command (w : Word)
  | block (bytes : List Byte)
deriving DecidableEq, Repr

/-- Reads one encoded instruction; `bpp` is the pixel size of the row a block stands in. -/
def decode (bpp : Nat) : Encoded → Except DecodeError Instr
  | .command w => decodeCommand w
  | .block bytes =>
    match decodeBlock bpp bytes with
    | .ok (b, _) => .ok b.toInstr
    | .error e => .error e

/-- The command word of OPC and ARG, RSVD being 0 (30_encoding.md R72). -/
def commandWord (opc : Byte) (arg : BitVec 4) : Word := 0#20 ++ arg ++ opc

/-- ARG of a target format (R73). -/
def PixFmt.arg (df : PixFmt) : BitVec 4 := df.code.setWidth 4

/-- The bytes of a tag block (30_encoding.md R81, R82, R92). -/
def encodeBlock : Block → List Byte
  | .rep n px => n :: px
  | .lit m px => 0 :: m :: px

/-- The encoding of an instruction (30_encoding.md R74, R81, R82). -/
def encode : Instr → Encoded
  | .nop => .command (commandWord 0x00 0)
  | .hdrParse => .command (commandWord 0x01 0)
  | .cksum => .command (commandWord 0x02 0)
  | .cksumStamp => .command (commandWord 0x03 0)
  | .rowEnc => .command (commandWord 0x10 0)
  | .rowDec => .command (commandWord 0x11 0)
  | .imgEnc => .command (commandWord 0x20 0)
  | .imgDec => .command (commandWord 0x21 0)
  | .cvt df => .command (commandWord 0x30 df.arg)
  | .fileCompress => .command (commandWord 0x40 0)
  | .fileDecompress => .command (commandWord 0x41 0)
  | .fileConvert df => .command (commandWord 0x42 df.arg)
  | .reserved43 rest => .command (rest ++ 0x43#8)
  | .literalBlock m px => .block (encodeBlock (.lit m px))
  | .repeatBlock n px => .block (encodeBlock (.rep n px))

/-- `n` bytes of `w`, the least significant first. -/
def bytesOfNat : Nat → Nat → List Byte
  | 0, _ => []
  | n + 1, w => BitVec.ofNat 8 w :: bytesOfNat n (w / 256)

/-- The bytes of a block given as a table word: its `nbits` bits, then zeros up to the longest block
(a literal of 255 RGB8 pixels is 767 bytes). -/
def tableBlockBytes (nbits w : Nat) : List Byte :=
  bytesOfNat (nbits / 8) w ++ List.replicate (767 - nbits / 8) 0

/-- The instruction the decoder reads from a table word. 32-bit rows are command words; shorter rows
are tag blocks, read in a row of Gray8 pixels (log 24). -/
def decodeTableWord (nbits w : Nat) : Option Instr :=
  if nbits = 32 then (decodeCommand (BitVec.ofNat 32 w)).toOption
  else (decode 1 (.block (tableBlockBytes nbits w))).toOption

end Sys2Proof
end

