-- ==== Sys2Proof/Config.lean ====
section
/-! DEFINITION. What an implementation fixes (the OPEN parameters of 92_eei_decisions.md) and the
free bytes. The header's constants per layout are in Machine/Operands.lean. -/

namespace Sys2Proof

/-- `HDR_LAYOUT` (00_scope.md R9). The spec's value is `L19`. -/
inductive HdrLayout where
  | L19
  | L20
deriving DecidableEq, Repr

/-- The addresses `base .. base + size - 1`. -/
structure AddrRange where
  base : Nat
  size : Nat
deriving DecidableEq, Repr

/-- The parameters a platform fixes. No step changes them. -/
structure Config where
  /-- `HDR_LAYOUT` (00_scope.md R9). -/
  layout : HdrLayout
  /-- `REG_BASE` (00_scope.md R12). -/
  regBase : Word
  /-- `Backed(a)` holds for the addresses of these ranges (00_scope.md R12). -/
  backed : List AddrRange
  /-- Addresses that are not ordinary memory (20_memory.md R52). -/
  devices : List AddrRange
  /-- `HOST_COHERENT` (20_memory.md R63). -/
  hostCoherent : Bool
deriving DecidableEq, Repr

/-- The free byte of draw number `k` (93_implementation_defined.md U1, U7): nothing constrains it.
The counter that numbers the draws is `State.draws` (log 5). -/
opaque Config.freeByte : Nat → Byte

/-- The byte that address `a` holds from power-up until something is stored there
(70_reset_and_hazards.md R272, 93_implementation_defined.md U2): nothing constrains it (log 1). -/
opaque Config.powerUpByte : Nat → Byte

/-- The parameters of `State.reset`: `HDR_LAYOUT` is the spec's value; the others are OPEN in the
spec and chosen here (log 2, DESIGN CHOICE). -/
def Config.standard : Config where
  layout := .L19
  regBase := 0
  backed := [⟨0, 4294967296⟩]
  devices := []
  hostCoherent := true

end Sys2Proof
end

