-- ==== Sys2Proof/Machine/State.lean ====
section
/-! DEFINITION. The machine's state as plain data (spec 10_state.md), the errors a command reports,
the ways a step can stop, and the state after reset. -/

namespace Sys2Proof.Machine

/-- The sixteen registers (10_state.md R21). -/
inductive RegName where
  | CMD | STATUS | SRC_BASE | SRC_LEN | DST_BASE | DST_CAP | WIDTH | HEIGHT | FMT
  | OUT_LEN | IN_POS | HDR_VALID | HDR_CKSUM | CALC_CKSUM | OUT_CKSUM | HDR_PIXOFF
deriving DecidableEq, Repr

/-- The contents of the register window (10_state.md R21). -/
structure Regs where
  cmd : Word
  status : Word
  srcBase : Word
  srcLen : Word
  dstBase : Word
  dstCap : Word
  width : Word
  height : Word
  fmt : Word
  outLen : Word
  inPos : Word
  hdrValid : Word
  hdrCksum : Word
  calcCksum : Word
  outCksum : Word
  hdrPixoff : Word
deriving DecidableEq, Repr

/-- Every register at its reset value (10_state.md R43). -/
def Regs.zero : Regs :=
  ⟨0, 0, 0, 0, 0, 0, 0, 0, 0, 0, 0, 0, 0, 0, 0, 0⟩

/-- ERRKIND's values but NONE (60_exceptions.md R241). -/
inductive ErrKind where
  | invalidFile | truncated | corrupt | write | illegal | config | range
deriving DecidableEq, Repr

/-- What `raise Err(KIND, d)` carries (00_scope.md R17). -/
structure Err where
  kind : ErrKind
  detail : Byte
deriving DecidableEq, Repr

/-- The row decoder's locals (10_state.md R38, 43_rle_row.md R140). -/
structure RowCtx where
  /-- The compressed row. -/
  c : List Byte
  /-- Bytes per pixel. -/
  bpp : Nat
  /-- The output row's length in bytes. -/
  need : Nat
  /-- The read cursor. -/
  cp : Nat
  /-- The write cursor. -/
  op : Nat
  /-- The output so far. -/
  out : List Byte
deriving DecidableEq, Repr

/-- Who touches shared memory besides the engine: the host, or another bus master (another AIFC
instance among them; 70_reset_and_hazards.md R280, 60_exceptions.md R254). -/
inductive Agent where
  | host
  | other
deriving DecidableEq, Repr

/-- One move of the outside world, or the point at which the engine's step falls (log 3). -/
inductive Input where
  /-- The engine takes its step now (10_state.md R37). -/
  | engine
  /-- The host polls STATUS until BUSY = 0 (30_encoding.md R91 `wait`; log 18). -/
  | wait
  /-- A register-bus write of `bits` bits (10_state.md R22). -/
  | regWrite (addr : Word) (bits : Nat) (v : Word)
  /-- A register-bus read of `bits` bits (10_state.md R22). -/
  | regRead (addr : Word) (bits : Nat)
  /-- A byte store to shared memory. -/
  | memWrite (who : Agent) (a : Word) (v : Byte)
  /-- A byte load from shared memory. -/
  | memRead (who : Agent) (a : Word)
  /-- The host makes its stores reach shared memory and drops stale data (20_memory.md R63). -/
  | hostSync
  /-- The windows of the other BUSY instances are now these (60_exceptions.md R254). -/
  | peers (busy : List AddrRange)
  /-- The platform's reset input (70_reset_and_hazards.md R270). -/
  | reset
deriving DecidableEq, Repr

/-- The outside world, as far as the block meets it: the model's own fields (log 3). -/
structure Env where
  /-- What happens next, first first. -/
  inputs : List Input
  /-- The last value a bus read returned to the host. -/
  readData : Word
  /-- Stores of an incoherent host that have not reached shared memory, oldest first (log 16). -/
  hostBuf : List Host.Cell
  /-- Whether an incoherent host's loads are fresh (log 16). -/
  hostSynced : Bool
  /-- The windows only the engine may touch (20_memory.md R62; log 9). -/
  held : List AddrRange
  /-- The windows of other BUSY instances (log 17). -/
  peers : List AddrRange
deriving DecidableEq, Repr

/-- Nothing to come, nothing held. -/
def Env.quiet : Env := ⟨[], 0, [], true, [], []⟩

/-- Shared memory: the bytes that have been stored, as address and byte, addresses strictly rising
(`Memory.wf` in Ops.lean). An unlisted address holds no stored byte (log 1). -/
abbrev Memory := List Host.Cell

/-- The machine (10_state.md). -/
structure State where
  /-- The platform's parameters; no step changes them. -/
  cfg : Config
  /-- The register window (R21). -/
  regs : Regs
  /-- Empty, or one accepted command word (R37). -/
  pending : Option Word
  /-- The shared memory (20_memory.md R50). -/
  mem : Memory
  /-- The row decoder's locals, while a step looks inside a row (R38; log 10). -/
  row : Option RowCtx
  /-- How many free bytes have been drawn (log 5). -/
  draws : Nat
  /-- The outside world (log 3). -/
  env : Env
deriving DecidableEq, Repr

/-- A run that has left the spec. -/
inductive Fault where
  /-- Raised by a memory input (or the host's sync) whose byte lies in a held window
  (20_memory.md R62, 70_reset_and_hazards.md R280). Safe: the spec asks for it. -/
  | windowHazard
  /-- Raised when this instance and another are both BUSY with overlapping windows
  (60_exceptions.md R254). Safe: the spec asks for it. -/
  | peerOverlap
deriving DecidableEq, Repr

/-- What the model gives no meaning. -/
inductive Refusal where
  /-- An instruction without a meaning, raised by no arm of a finished model. Safe. -/
  | notModelled (mnemonic : String)
  /-- Raised by a register access that is not an aligned 32-bit one (10_state.md R22), or that only runs
  into the register window (log 14). Safe. -/
  | registerAccess
  /-- Raised by a command that uses a window with an unbacked byte (20_memory.md R54). Safe. -/
  | windowNotBacked
  /-- Raised by a command that uses a window with a byte that is not ordinary memory
  (20_memory.md R52, R54). Safe. -/
  | windowNotOrdinary
  /-- Raised by another agent's access to an address that is unbacked or not ordinary memory
  (20_memory.md R52; log 15). Safe. -/
  | memoryAccess
deriving DecidableEq, Repr

/-- The machine right after reset (10_state.md R43, 70_reset_and_hazards.md R272): every register 0,
nothing pending. Memory lists nothing, so every byte reads as its free power-up byte (log 1); the parameters are those of log 2. -/
def State.reset : State where
  cfg := .standard
  regs := .zero
  pending := none
  mem := []
  row := none
  draws := 0
  env := .quiet

end Sys2Proof.Machine
end

