-- ==== Sys2Proof/Machine/Flags.lean ====
section
/-! DEFINITION. STATUS, HDR_VALID and the error codes (10_state.md R24, R31; 60_exceptions.md R241,
R244). The block has no condition codes (10_state.md R41). -/

namespace Sys2Proof.Machine

/-- ERRKIND of a kind (60_exceptions.md R241). -/
def ErrKind.code : ErrKind → BitVec 4
  | .invalidFile => 1
  | .truncated => 2
  | .corrupt => 3
  | .write => 4
  | .illegal => 5
  | .config => 6
  | .range => 7

/-- STATUS put together from its fields (10_state.md R24). -/
def statusWord (busy done err : Bool) (kind : BitVec 4) (detail : Byte) : Word :=
  0#16 ++ detail ++ kind ++ 0#1 ++ BitVec.ofBool err ++ BitVec.ofBool done ++ BitVec.ofBool busy

/-- STATUS after acceptance (10_state.md R40). -/
def acceptedStatus : Word := statusWord true false false 0 0

/-- STATUS after completion (60_exceptions.md R244). -/
def doneStatus : Option Err → Word
  | none => statusWord false true false 0 0
  | some e => statusWord false true true e.kind.code e.detail

/-- STATUS.BUSY. -/
def Regs.busy (r : Regs) : Bool := r.status.getLsbD 0

/-- STATUS.DONE. -/
def Regs.done (r : Regs) : Bool := r.status.getLsbD 1

/-- STATUS.ERR. -/
def Regs.err (r : Regs) : Bool := r.status.getLsbD 2

/-- STATUS.ERRKIND. -/
def Regs.errKind (r : Regs) : BitVec 4 := r.status.extractLsb' 4 4

/-- STATUS.ERRDETAIL. -/
def Regs.errDetail (r : Regs) : Byte := r.status.extractLsb' 8 8

/-- HDR_VALID put together from its six flags (10_state.md R31, 41_header.md R102). -/
def hdrValidWord (magicOk formatOk compOk widthOk heightOk cksumOk : Bool) : Word :=
  0#26 ++ BitVec.ofBool cksumOk ++ BitVec.ofBool heightOk ++ BitVec.ofBool widthOk ++
    BitVec.ofBool compOk ++ BitVec.ofBool formatOk ++ BitVec.ofBool magicOk

/-- The mask of failed header checks, `(~v) & 0x1F`; CKSUM_OK is outside it (41_header.md R103). -/
def failedChecks (v : Word) : Byte := (~~~v).setWidth 8 &&& 0x1F

/-- INVALID_FILE with the mask of failed checks. -/
def Err.invalidFile (bad : Byte) : Err := ⟨.invalidFile, bad⟩

/-- TRUNCATED 1 to 5. -/
def Err.truncated (d : Byte) : Err := ⟨.truncated, d⟩

/-- CORRUPT 1 to 6. -/
def Err.corrupt (d : Byte) : Err := ⟨.corrupt, d⟩

/-- WRITE 1: the output does not fit. -/
def Err.outputTooLong : Err := ⟨.write, 1⟩

/-- ILLEGAL 1 to 3. -/
def Err.illegal (d : Byte) : Err := ⟨.illegal, d⟩

/-- CONFIG 1 to 7. -/
def Err.config (d : Byte) : Err := ⟨.config, d⟩

/-- RANGE 1: a row too long to be framed. -/
def Err.rowTooLong : Err := ⟨.range, 1⟩

/-- The error that a failed decode reports (30_encoding.md R75, 43_rle_row.md R141 to R143). -/
def decodeErr : DecodeError → Err
  | .undefinedOpcode => .illegal 1
  | .reservedBits => .illegal 2
  | .badArgument => .illegal 3
  | .noBlock => .corrupt 6
  | .repeatCutShort => .corrupt 1
  | .literalCountMissing => .corrupt 2
  | .literalCutShort => .corrupt 4

end Sys2Proof.Machine
end

