-- ==== Sys2Proof/Machine/Ops.lean ====
section
/-! DEFINITION. The named operations over memory, registers and windows, and the two ends of a
command: completing, and ending with an error (20_memory.md R50 to R55, 60_exceptions.md R243, R244). -/

namespace Sys2Proof.Machine

/-! ## Memory -/

/-- The byte stored at an address: none where nothing has been stored. -/
def Memory.stored : Memory → Nat → Option Byte
  | [], _ => none
  | (k, v) :: m, a => if k = a then some v else Memory.stored m a

/-- What an address where nothing has been stored reads as: its free power-up byte
(70_reset_and_hazards.md R272; log 1). -/
def Memory.unlisted (a : Nat) : Byte := Config.powerUpByte a

/-- `MemRead(a, 1)` (00_scope.md R16). -/
def Memory.read (m : Memory) (a : Nat) : Byte := (m.stored a).getD (Memory.unlisted a)

/-- `MemWrite(a, 1, v)` (00_scope.md R16), keeping the canonical form. -/
def Memory.write : Memory → Nat → Byte → Memory
  | [], a, v => [(a, v)]
  | (k, w) :: m, a, v =>
    if a < k then (a, v) :: (k, w) :: m
    else if a = k then (a, v) :: m
    else (k, w) :: Memory.write m a v

/-- The canonical form: addresses strictly rising. Two canonical memories that store the same bytes at
the same addresses are equal lists. -/
def Memory.wf : Memory → Bool
  | [] => true
  | (k, _) :: m => m.all (fun c => decide (k < c.1)) && Memory.wf m

/-- Every listed byte lies in the 2^32-byte address space (20_memory.md R50). -/
def Memory.inSpace (m : Memory) : Bool := m.all fun c => decide (c.1 < 4294967296)

/-- The `n` bytes from address `a` on. -/
def Memory.readSeq (m : Memory) : Nat → Nat → List Byte
  | _, 0 => []
  | a, n + 1 => m.read a :: Memory.readSeq m (a + 1) n

/-- Writes the bytes from address `a` on, in increasing address order (00_scope.md R16). -/
def Memory.writeSeq : Memory → Nat → List Byte → Memory
  | m, _, [] => m
  | m, a, b :: bs => Memory.writeSeq (m.write a b) (a + 1) bs

/-- `n` free bytes, from draw number `k` on (log 5). -/
def freeBytes : Nat → Nat → List Byte
  | _, 0 => []
  | k, n + 1 => Config.freeByte k :: freeBytes (k + 1) n

/-! ## Address ranges and windows -/

/-- The first address past the range. -/
def rangeEnd (r : AddrRange) : Nat := r.base + r.size

/-- Whether the address is in the range. -/
def inRange (r : AddrRange) (a : Nat) : Bool := decide (r.base ≤ a) && decide (a < rangeEnd r)

/-- Whether both ranges are non-empty and share an address (20_memory.md R53). -/
def overlap (p q : AddrRange) : Bool :=
  decide (0 < p.size) && decide (0 < q.size) && decide (p.base < rangeEnd q) && decide (q.base < rangeEnd p)

/-- Whether the ranges cover every address from `lo` up to `hi - 1`; each pass jumps to the end of
a range that holds `lo`, so as many passes as there are ranges are enough. -/
def coversFrom (rs : List AddrRange) : Nat → Nat → Nat → Bool
  | 0, lo, hi => decide (hi ≤ lo)
  | n + 1, lo, hi =>
    decide (hi ≤ lo) ||
      match rs.find? (fun r => inRange r lo) with
      | none => false
      | some r => coversFrom rs n (rangeEnd r) hi

/-- The part of a range inside the address space. -/
def clipped (r : AddrRange) : AddrRange := ⟨r.base, min (rangeEnd r) 4294967296 - r.base⟩

/-- The part of `r` below the range `k`. -/
def below (r k : AddrRange) : AddrRange := ⟨r.base, min (rangeEnd r) k.base - r.base⟩

/-- The part of `r` above the range `k`. -/
def above (r k : AddrRange) : AddrRange :=
  let lo := min (rangeEnd r) (max r.base (rangeEnd k))
  ⟨lo, rangeEnd r - lo⟩

/-- Every address of the range satisfies `Backed` (00_scope.md R12). -/
def backs (c : Config) (r : AddrRange) : Bool :=
  coversFrom c.backed c.backed.length r.base (min (rangeEnd r) 4294967296)

/-- No address of the range is other than ordinary memory (20_memory.md R52). -/
def ordinary (c : Config) (r : AddrRange) : Bool :=
  !c.devices.any fun d => overlap (clipped r) d

/-- The source window (20_memory.md R53). -/
def Regs.srcWindow (r : Regs) : AddrRange := ⟨r.srcBase.toNat, r.srcLen.toNat⟩

/-- The destination window (20_memory.md R53). -/
def Regs.dstWindow (r : Regs) : AddrRange := ⟨r.dstBase.toNat, r.dstCap.toNat⟩

/-- Whether the command uses the source window (the Operands of its rule). -/
def usesSrc : Instr → Bool
  | .hdrParse | .cksum | .rowEnc | .rowDec | .imgEnc | .imgDec | .cvt _
  | .fileCompress | .fileDecompress | .fileConvert _ => true
  | .nop | .cksumStamp | .reserved43 _ | .literalBlock _ _ | .repeatBlock _ _ => false

/-- Whether the command uses the destination window (the Operands of its rule). -/
def usesDst : Instr → Bool
  | .cksumStamp | .rowEnc | .rowDec | .imgEnc | .imgDec | .cvt _
  | .fileCompress | .fileDecompress | .fileConvert _ => true
  | .nop | .hdrParse | .cksum | .reserved43 _ | .literalBlock _ _ | .repeatBlock _ _ => false

/-- The windows a command uses. -/
def windowsOf (i : Instr) (r : Regs) : List AddrRange :=
  (if usesSrc i then [r.srcWindow] else []) ++ (if usesDst i then [r.dstWindow] else [])

/-- The addresses a command must not change (20_memory.md R51): the source window if it uses that window, else
none. -/
def keptRange (i : Instr) (r : Regs) : AddrRange := if usesSrc i then r.srcWindow else ⟨0, 0⟩

/-- `CheckWindows` (20_memory.md R53): the error it raises, if it raises one. -/
def checkWindows (i : Instr) (r : Regs) : Option Err :=
  if usesSrc i && decide (4294967296 < rangeEnd r.srcWindow) then some (.config 1)
  else if usesDst i && decide (4294967296 < rangeEnd r.dstWindow) then some (.config 2)
  else if usesSrc i && usesDst i && overlap r.srcWindow r.dstWindow then some (.config 3)
  else none

/-- The refusal of a command one of whose windows is not backed ordinary memory (20_memory.md R54).
It comes before the command's own checks (log 7). -/
def windowRefusal (i : Instr) (s : State) : Option Refusal :=
  if (windowsOf i s.regs).any (fun w => !backs s.cfg w) then some .windowNotBacked
  else if (windowsOf i s.regs).any (fun w => !ordinary s.cfg w) then some .windowNotOrdinary
  else none

/-- `SRCSEQ(i, n)` (00_scope.md R16). -/
def State.srcSeq (s : State) (i n : Nat) : List Byte := s.mem.readSeq (s.regs.srcBase.toNat + i) n

/-- `DSTSEQ(i, n)` (00_scope.md R16). -/
def State.dstSeq (s : State) (i n : Nat) : List Byte := s.mem.readSeq (s.regs.dstBase.toNat + i) n

/-- `DSTWRITE(bs)` (00_scope.md R16). -/
def State.dstWrite (s : State) (bs : List Byte) : State :=
  { s with mem := s.mem.writeSeq s.regs.dstBase.toNat bs }

/-! ## How a command ends -/

/-- A successful command's two length registers (10_state.md R29, R30). -/
def State.setLengths (s : State) (outLen inPos : Nat) : State :=
  { s with regs := { s.regs with outLen := BitVec.ofNat 32 outLen, inPos := BitVec.ofNat 32 inPos } }

/-- `DSTWRITE(out)`, OUT_LEN and IN_POS: the last lines of a command that produces output. -/
def State.deliver (s : State) (out : List Byte) (inPos : Nat) : State :=
  (s.dstWrite out).setLengths out.length inPos

/-- Completion without an error (60_exceptions.md R244): the row decoder's locals do not survive
the command (10_state.md R38). -/
def State.complete (s : State) : State :=
  { s with regs := { s.regs with status := doneStatus none }, pending := none, row := none }

/-- Completion with an error (60_exceptions.md R243, R244): OUT_LEN and IN_POS become 0. This is the
block's whole "exception entry": it saves nothing else and transfers control nowhere (R248). -/
def State.completeErr (s : State) (e : Err) : State :=
  { s with
    regs := { s.regs with outLen := 0, inPos := 0, status := doneStatus (some e) }
    pending := none
    row := none }

/-- Every byte of a range takes a free value (93_implementation_defined.md U1, U7; log 5). -/
def State.drawRange (s : State) (r : AddrRange) : State :=
  { s with mem := s.mem.writeSeq r.base (freeBytes s.draws r.size), draws := s.draws + r.size }

/-- Every byte of the destination window takes a free value (20_memory.md R55(b)), but for those of the source
window of a command that uses it (20_memory.md R51, 60_exceptions.md R248, 70_reset_and_hazards.md R285). Addresses
past 2^32 - 1 do not exist, so the part of a window there is left out. Only HDR_PARSE, which does not check the
destination window, can have shared bytes or such a part (log 6). -/
def State.drawDst (s : State) (i : Instr) : State :=
  let dst := clipped s.regs.dstWindow
  let kept := keptRange i s.regs
  (s.drawRange (below dst kept)).drawRange (above dst kept)

/-- A command ends with an error raised after CheckWindows has passed: the destination window holds
unspecified bytes, whichever command it is (20_memory.md R55(b), 60_exceptions.md R243(d); log 6). -/
def State.raise (s : State) (i : Instr) (e : Err) : State := (s.drawDst i).completeErr e

/-- A command's step after decode: the refusal of R54, `CheckWindows`, then the command's own body,
which answers the state before completion or, for an error, the state at the raise. -/
def runCommand (i : Instr) (s : State) (body : Except (State × Err) State) :
    Host.Outcome State Fault Refusal :=
  match windowRefusal i s with
  | some r => .refused r
  | none =>
    match checkWindows i s.regs with
    | some e => .next (s.completeErr e)
    | none =>
      match body with
      | .ok t => .next t.complete
      | .error (t, e) => .next (t.raise i e)

/-- `check C else raise Err(K, d)` (00_scope.md R17). -/
def check (c : Bool) (e : Err) : Except Err Unit := if c then .ok () else .error e

/-- The error of a computation raised while the command's state is `s`. -/
def raisedAt {α : Type} (s : State) : Except Err α → Except (State × Err) α
  | .ok a => .ok a
  | .error e => .error (s, e)

/-! ## Command acceptance and the reset event -/

/-- The windows the command of word `w` uses: none for a word that does not decode. -/
def wordWindows (w : Word) (r : Regs) : List AddrRange :=
  match decodeCommand w with
  | .ok i => windowsOf i r
  | .error _ => []

/-- Command acceptance (10_state.md R40). The windows are held from here on (20_memory.md R62). -/
def State.accept (s : State) (w : Word) : State :=
  { s with
    regs := { s.regs with cmd := w, status := acceptedStatus }
    pending := some w
    env := { s.env with held := s.env.held ++ wordWindows w s.regs } }

/-- What a reset does to the windows of the command it interrupts (70_reset_and_hazards.md R271,
93_implementation_defined.md U7, 92_eei_decisions.md D29): every byte of every window that the command
uses takes a free value, whatever CheckWindows would have said. Addresses past 2^32 - 1 do not exist, so
the part of a window there is left out. The two orders of reset and step are those of the inputs (log 8). -/
def State.interrupt (s : State) : State :=
  match s.pending with
  | none => s
  | some w => ((wordWindows w s.regs).map clipped).foldl State.drawRange s

/-- The held windows are released (20_memory.md R62; log 9). If there were any, an incoherent host must sync
before its loads are fresh again (20_memory.md R63; log 16). -/
def Env.release (e : Env) : Env := { e with held := [], hostSynced := e.hostSynced && e.held.isEmpty }

/-- The reset event (70_reset_and_hazards.md R270, R272): every register 0, `pending` empty, memory
kept but for an interrupted command's windows. The spec does not say what a reset means for an
incoherent host: here it releases the held windows as a STATUS read does, and the host's buffered
stores stay in its buffer (log 16, DESIGN CHOICE). -/
def State.resetEvent (s : State) : State :=
  { s.interrupt with
    regs := Regs.zero
    pending := none
    row := none
    env := s.interrupt.env.release }

end Sys2Proof.Machine
end

