-- ==== Sys2Proof/Machine/Control.lean ====
section
/-! DEFINITION. NOP (46_file.md R210) and the reserved slot 0x43 (30_encoding.md R79). -/

namespace Sys2Proof.Machine

/-- NOP (46_file.md R210): completion only; OUT_LEN and IN_POS keep their values. -/
def execNop (s : State) : Host.Outcome State Fault Refusal := .next s.complete

/-- A word with OPC 0x43 (30_encoding.md R79): ILLEGAL 1, no memory access. -/
def execReserved43 (_rest : BitVec 24) (s : State) : Host.Outcome State Fault Refusal :=
  .next (s.completeErr (.illegal 1))

end Sys2Proof.Machine
end

