-- ==== Sys2Proof/Machine/Operands.lean ====
section
/-! DEFINITION. The operand forms: header layout constants, little-endian integers, pixel formats and
geometry (00_scope.md R10, R15; 43_rle_row.md R145). -/

namespace Sys2Proof.Machine

/-- `HDR_SIZE` (00_scope.md R10). -/
def hdrSize : HdrLayout → Nat
  | .L19 => 19
  | .L20 => 20

/-- `MAGIC` (00_scope.md R10). -/
def magic : HdrLayout → List Byte
  | .L19 => [0x41, 0x49, 0x46]
  | .L20 => [0x41, 0x49, 0x46, 0x00]

/-- `MAGIC_LEN` (00_scope.md R10). -/
def magicLen : HdrLayout → Nat
  | .L19 => 3
  | .L20 => 4

/-- `OFF_CKSUM` (00_scope.md R10). -/
def offCksum : HdrLayout → Nat
  | .L19 => 3
  | .L20 => 4

/-- `OFF_PIXFMT` (00_scope.md R10). -/
def offPixfmt : HdrLayout → Nat
  | .L19 => 5
  | .L20 => 6

/-- `OFF_COMP` (00_scope.md R10). -/
def offComp : HdrLayout → Nat
  | .L19 => 6
  | .L20 => 7

/-- `OFF_WIDTH` (00_scope.md R10). -/
def offWidth : HdrLayout → Nat
  | .L19 => 7
  | .L20 => 8

/-- `OFF_HEIGHT` (00_scope.md R10). -/
def offHeight : HdrLayout → Nat
  | .L19 => 11
  | .L20 => 12

/-- `OFF_PIXOFF` (00_scope.md R10). -/
def offPixoff : HdrLayout → Nat
  | .L19 => 15
  | .L20 => 16

/-- `s[i]` (00_scope.md R15). -/
def byteAt (s : List Byte) (i : Nat) : Byte := s.getD i 0

/-- `LE16(s, o)` (00_scope.md R15). -/
def readLe16 (s : List Byte) (o : Nat) : BitVec 16 := byteAt s (o + 1) ++ byteAt s o

/-- `LE32(s, o)` (00_scope.md R15). -/
def readLe32 (s : List Byte) (o : Nat) : Word :=
  byteAt s (o + 3) ++ byteAt s (o + 2) ++ byteAt s (o + 1) ++ byteAt s o

/-- `le16(v)` (00_scope.md R15). -/
def le16 (v : BitVec 16) : List Byte := [v.extractLsb' 0 8, v.extractLsb' 8 8]

/-- `le32(v)` (00_scope.md R15). -/
def le32 (v : Word) : List Byte :=
  [v.extractLsb' 0 8, v.extractLsb' 8 8, v.extractLsb' 16 8, v.extractLsb' 24 8]

/-- FMT.PIXFMT (10_state.md R28). -/
def Regs.pixfmt (r : Regs) : Byte := r.fmt.extractLsb' 0 8

/-- FMT.COMP (10_state.md R28). -/
def Regs.comp (r : Regs) : Byte := r.fmt.extractLsb' 8 8

/-- FMT put together from its fields (10_state.md R28). -/
def fmtWord (comp pixfmt : Byte) : Word := 0#16 ++ comp ++ pixfmt

/-- `reg[FMT].PIXFMT <- df`: the other bits keep their values (45_convert.md R191). -/
def setPixfmt (fmt : Word) (df : PixFmt) : Word := fmt.extractLsb' 8 24 ++ df.code

/-- The format of a header whose FORMAT_OK holds (41_header.md R102). -/
def fmtOfValid (b : Byte) : PixFmt := if b = 1 then .rgb8 else .gray8

/-- `BppOf` with its check (43_rle_row.md R145). -/
def formatOf (b : Byte) : Except Err PixFmt :=
  match PixFmt.ofCode b with
  | some f => .ok f
  | none => .error (.config 6)

/-- `Geometry` (43_rle_row.md R145): width, height and pixel format from the registers. -/
def geometry (needH : Bool) (r : Regs) : Except Err (Nat × Nat × PixFmt) :=
  if r.width = 0 then .error (.config 4)
  else if needH && r.height == 0 then .error (.config 5)
  else
    match formatOf r.pixfmt with
    | .ok f => .ok (r.width.toNat, r.height.toNat, f)
    | .error e => .error e

end Sys2Proof.Machine
end

