-- ==== Sys2Proof/Machine/RowRle.lean ====
section
/-! DEFINITION. The Row RLE Codec: the row decoder and its two tag blocks, the row encoder, ROW_ENC
and ROW_DEC (43_rle_row.md). -/

namespace Sys2Proof.Machine

/-! ## The row decoder -/

/-- The decoder's locals at the start of a row (R140): both cursors 0. -/
def startRow (c : List Byte) (w bpp : Nat) : RowCtx := ⟨c, bpp, w * bpp, 0, 0, []⟩

/-- A row with nothing to read and nothing to fill: where a block stands outside any row (log 10). -/
def idleRow : RowCtx := ⟨[], 1, 0, 0, 0, []⟩

/-- REPEAT (R141) once its pixel has been read: `n` copies of `px`. -/
def applyRepeat (n : Byte) (px : List Byte) (r : RowCtx) : Except Err RowCtx :=
  if r.op + n.toNat * px.length ≤ r.need then
    .ok { r with
      out := r.out ++ (List.replicate n.toNat px).flatten
      op := r.op + n.toNat * px.length
      cp := r.cp + 1 + px.length }
  else .error (.corrupt 5)

/-- LITERAL (R142) once its payload has been read: the count check, the bound, the copy. -/
def applyLiteral (m : Byte) (px : List Byte) (r : RowCtx) : Except Err RowCtx :=
  if m = 0 then .error (.corrupt 3)
  else if r.op + px.length ≤ r.need then
    .ok { r with
      out := r.out ++ px
      op := r.op + px.length
      cp := r.cp + 2 + px.length }
  else .error (.corrupt 5)

/-- One block's effect on the decoder's locals. -/
def applyBlock : Block → RowCtx → Except Err RowCtx
  | .rep n px => applyRepeat n px
  | .lit m px => applyLiteral m px

/-- Fetch and decode of the block at the read cursor (R140). -/
def fetchBlock (r : RowCtx) : Except DecodeError (Block × List Byte) :=
  decodeBlock r.bpp (r.c.drop r.cp)

/-- The loop of `DecodeRow` (R140). Every block moves `cp` on, so `len(c)` passes are enough. -/
def runRow : Nat → RowCtx → Except Err RowCtx
  | 0, r => .ok r
  | n + 1, r =>
    if r.cp < r.c.length then
      match fetchBlock r with
      | .error e => .error (decodeErr e)
      | .ok (b, _) =>
        match applyBlock b r with
        | .error e => .error e
        | .ok r' => runRow n r'
    else .ok r

/-- The end of a row (R143): the output is exactly filled, or CORRUPT 6. -/
def endRow (r : RowCtx) : Except Err (List Byte) :=
  if r.op = r.need then .ok r.out else .error (.corrupt 6)

/-- `DecodeRow(c, W, bpp)` (R140). -/
def decodeRow (c : List Byte) (w bpp : Nat) : Except Err (List Byte) :=
  match runRow c.length (startRow c w bpp) with
  | .ok r => endRow r
  | .error e => .error e

/-! ## The tag blocks as instructions -/

/-- An error raised inside a row ends the command (00_scope.md R17). A row is decoded only after
CheckWindows has passed, so the destination window is drawn (log 10). -/
def State.raiseInRow (s : State) (e : Err) : State :=
  if (checkWindows .rowDec s.regs).isNone then s.raise .rowDec e else s.completeErr e

/-- One block in the row being decoded. -/
def State.stepRow (s : State) (f : RowCtx → Except Err RowCtx) : State :=
  match f (s.row.getD idleRow) with
  | .ok r => { s with row := some r }
  | .error e => s.raiseInRow e

/-- REPEAT (R141) as one step of the row decoder. -/
def execRepeatBlock (n : Byte) (px : List Byte) (s : State) : Host.Outcome State Fault Refusal :=
  .next (s.stepRow (applyRepeat n px))

/-- LITERAL (R142) as one step of the row decoder. -/
def execLiteralBlock (m : Byte) (px : List Byte) (s : State) : Host.Outcome State Fault Refusal :=
  .next (s.stepRow (applyLiteral m px))

/-- The end of a row inside ROW_DEC (R143, R151): deliver the row and complete, or CORRUPT 6. -/
def State.finishRow (s : State) (r : RowCtx) : State :=
  match endRow r with
  | .ok out => (s.deliver out r.c.length).complete
  | .error e => s.raiseInRow e

/-! ## The row encoder -/

/-- The first `n` pixels of a byte sequence, `P(0) .. P(n-1)` (R146). -/
def pixels (bpp : Nat) : Nat → List Byte → List (List Byte)
  | 0, _ => []
  | n + 1, bs => bs.take bpp :: pixels bpp n (bs.drop bpp)

/-- `RunLen` at the first of the pixels that are left (R146); not capped at 255. -/
def runLen : List (List Byte) → Nat
  | [] => 0
  | p :: ps => 1 + (ps.takeWhile fun q => q == p).length

/-- The literal span at the first of the pixels that are left (R147): up to the row's end or the
first column that begins a run of 2 or more. -/
def literalSpan : List (List Byte) → Nat
  | [] => 0
  | p :: ps => if runLen (p :: ps) < 2 then 1 + literalSpan ps else 0

/-- `RepeatChunks(px, r)` (R148); the first argument bounds the passes. -/
def repeatChunks (px : List Byte) : Nat → Nat → List Byte
  | 0, _ => []
  | n + 1, r =>
    if r = 0 then []
    else BitVec.ofNat 8 (min 255 r) :: px ++ repeatChunks px n (r - min 255 r)

/-- `LiteralChunks` of a span of pixels (R149); the first argument bounds the passes. -/
def literalChunks : Nat → List (List Byte) → List Byte
  | 0, _ => []
  | n + 1, ps =>
    if ps.length = 0 then []
    else
      0 :: BitVec.ofNat 8 (min 255 ps.length) :: (ps.take 255).flatten ++ literalChunks n (ps.drop 255)

/-- The loop of `EncodeRow` (R147) on the pixels that are left; the first argument bounds the
passes. -/
def encodePixels : Nat → List (List Byte) → List Byte
  | 0, _ => []
  | _ + 1, [] => []
  | n + 1, p :: ps =>
    if 2 ≤ runLen (p :: ps) then
      repeatChunks p (runLen (p :: ps)) (runLen (p :: ps)) ++
        encodePixels n ((p :: ps).drop (runLen (p :: ps)))
    else
      literalChunks (literalSpan (p :: ps)) ((p :: ps).take (literalSpan (p :: ps))) ++
        encodePixels n ((p :: ps).drop (literalSpan (p :: ps)))

/-- `EncodeRow(row, W, bpp)` (R147). -/
def encodeRow (row : List Byte) (w bpp : Nat) : List Byte := encodePixels w (pixels bpp w row)

/-! ## The commands -/

/-- ROW_ENC's computation (R150): the tag stream and IN_POS, or the error. -/
def rowEncResult (s : State) : Except Err (List Byte × Nat) := do
  let (w, _, f) ← geometry false s.regs
  check (decide (w * f.bpp ≤ s.regs.srcLen.toNat)) (.truncated 5)
  let c := encodeRow (s.srcSeq 0 (w * f.bpp)) w f.bpp
  check (decide (c.length ≤ s.regs.dstCap.toNat)) .outputTooLong
  return (c, w * f.bpp)

/-- ROW_DEC's computation (R151): the row and IN_POS, or the error. -/
def rowDecResult (s : State) : Except Err (List Byte × Nat) := do
  let (w, _, f) ← geometry false s.regs
  check (decide (w * f.bpp ≤ s.regs.dstCap.toNat)) .outputTooLong
  let row ← decodeRow (s.srcSeq 0 s.regs.srcLen.toNat) w f.bpp
  return (row, s.regs.srcLen.toNat)

/-- The body of a command that only computes an output: deliver it, or raise. -/
def deliverBody (s : State) : Except Err (List Byte × Nat) → Except (State × Err) State
  | .ok (out, inPos) => .ok (s.deliver out inPos)
  | .error e => .error (s, e)

/-- ROW_ENC (R150). -/
def execRowEnc (s : State) : Host.Outcome State Fault Refusal :=
  runCommand .rowEnc s (deliverBody s (rowEncResult s))

/-- ROW_DEC (R151). -/
def execRowDec (s : State) : Host.Outcome State Fault Refusal :=
  runCommand .rowDec s (deliverBody s (rowDecResult s))

end Sys2Proof.Machine
end

