-- ==== Sys2Proof/Machine/Convert.lean ====
section
/-! DEFINITION. The Pixel Format Converter: Convert and CVT (45_convert.md). -/

namespace Sys2Proof.Machine

/-- `(299*r + 587*g + 114*b) div 1000` (R192), exact. -/
def luma (r g b : Byte) : Nat := (299 * r.toNat + 587 * g.toNat + 114 * b.toNat) / 1000

/-- `RgbToGray` over a buffer (R190, R192): a pixel's bytes are r, g, b in stored order. -/
def rgbToGray : List Byte → List Byte
  | r :: g :: b :: rest => BitVec.ofNat 8 (luma r g b) :: rgbToGray rest
  | _ => []

/-- `GrayToRgb` over a buffer (R190, R193). -/
def grayToRgb : List Byte → List Byte
  | [] => []
  | v :: rest => v :: v :: v :: grayToRgb rest

/-- `Convert(pix, n, sf, df)` (R190); the buffer's length gives `n`. -/
def convert (pix : List Byte) (sf df : PixFmt) : List Byte :=
  match sf, df with
  | .rgb8, .gray8 => rgbToGray pix
  | .gray8, .rgb8 => grayToRgb pix
  | .rgb8, .rgb8 => pix
  | .gray8, .gray8 => pix

/-- CVT's computation (R191): the converted pixels and IN_POS, or the error. -/
def cvtResult (df : PixFmt) (s : State) : Except Err (List Byte × Nat) := do
  let (w, h, sf) ← geometry true s.regs
  check (decide (w * h * sf.bpp ≤ s.regs.srcLen.toNat)) (.truncated 5)
  check (decide (w * h * df.bpp ≤ s.regs.dstCap.toNat)) .outputTooLong
  return (convert (s.srcSeq 0 (w * h * sf.bpp)) sf df, w * h * sf.bpp)

/-- `reg[FMT].PIXFMT <- df`. -/
def State.setTarget (s : State) (df : PixFmt) : State :=
  { s with regs := { s.regs with fmt := setPixfmt s.regs.fmt df } }

/-- CVT (R191): FMT.PIXFMT becomes the target on success. -/
def execCvt (df : PixFmt) (s : State) : Host.Outcome State Fault Refusal :=
  runCommand (.cvt df) s
    (match cvtResult df s with
    | .ok (out, inPos) => .ok ((s.deliver out inPos).setTarget df)
    | .error e => .error (s, e))

end Sys2Proof.Machine
end

