-- ==== Sys2Proof/Machine/Checksum.lean ====
section
/-! DEFINITION. The Checksum Engine: Cksum, Stamp, CKSUM and CKSUM_STAMP (42_checksum.md). -/

namespace Sys2Proof.Machine

/-- The loop of `Cksum` (R120): from position `pos` on, with the two sums so far. Byte addition is
modulo 256. -/
def cksumLoop (off : Nat) : Nat → Byte → Byte → List Byte → Byte × Byte
  | _, sum1, sum2, [] => (sum1, sum2)
  | pos, sum1, sum2, b :: bs =>
    let sum1' := sum1 + (if pos = off ∨ pos = off + 1 then 0 else b)
    cksumLoop off (pos + 1) sum1' (sum2 + sum1') bs

/-- `Cksum(s, off)` (R120): `(sum2 << 8) | sum1`. -/
def cksum (s : List Byte) (off : Nat) : BitVec 16 :=
  (cksumLoop off 0 0 0 s).2 ++ (cksumLoop off 0 0 0 s).1

/-- The checksum the block computes over the whole source window (10_state.md R33). -/
def State.srcCksum (s : State) : BitVec 16 :=
  cksum (s.srcSeq 0 s.regs.srcLen.toNat) (offCksum s.cfg.layout)

/-- `reg[CALC_CKSUM] <- zext_32(calc)`. -/
def State.setCalcCksum (s : State) (ck : BitVec 16) : State :=
  { s with regs := { s.regs with calcCksum := ck.setWidth 32 } }

/-- `Stamp(n)` (R122): the checksum of the first `n` destination bytes, written in place, `sum1`
first. -/
def State.stamp (s : State) (n : Nat) : State :=
  let c := cksum (s.dstSeq 0 n) (offCksum s.cfg.layout)
  { s with
    mem := s.mem.writeSeq (s.regs.dstBase.toNat + offCksum s.cfg.layout) (le16 c)
    regs := { s.regs with outCksum := c.setWidth 32 } }

/-- CKSUM (R121). -/
def execCksum (s : State) : Host.Outcome State Fault Refusal :=
  runCommand .cksum s (.ok ((s.setCalcCksum s.srcCksum).setLengths 0 s.regs.srcLen.toNat))

/-- CKSUM_STAMP (R122). -/
def execCksumStamp (s : State) : Host.Outcome State Fault Refusal :=
  runCommand .cksumStamp s
    (if offCksum s.cfg.layout + 2 ≤ s.regs.dstCap.toNat then
      .ok ((s.stamp s.regs.dstCap.toNat).setLengths s.regs.dstCap.toNat 0)
    else .error (s, .config 7))

end Sys2Proof.Machine
end

