-- ==== Sys2Proof/Machine/Header.lean ====
section
/-! DEFINITION. The Header Codec: ParseHeader, Validate, MakeHeader and HDR_PARSE (41_header.md). -/

namespace Sys2Proof.Machine

/-- `ParseHeader(h)` (R101). -/
def State.parseHeader (s : State) (h : List Byte) : State :=
  let l := s.cfg.layout
  { s with
    regs := { s.regs with
      width := readLe32 h (offWidth l)
      height := readLe32 h (offHeight l)
      fmt := fmtWord (byteAt h (offComp l)) (byteAt h (offPixfmt l))
      hdrCksum := (readLe16 h (offCksum l)).setWidth 32
      hdrPixoff := readLe32 h (offPixoff l) } }

/-- The magic check (R105). -/
def magicOk (l : HdrLayout) (h : List Byte) : Bool := h.take (magicLen l) == magic l

/-- `Validate(h, ck)` (R102): each check reads only its own field. -/
def validate (l : HdrLayout) (h : List Byte) (ck : BitVec 16) : Word :=
  hdrValidWord (magicOk l h)
    (byteAt h (offPixfmt l) == 1 || byteAt h (offPixfmt l) == 2)
    (byteAt h (offComp l) == 0 || byteAt h (offComp l) == 1)
    (readLe32 h (offWidth l) != 0)
    (readLe32 h (offHeight l) != 0)
    (ck == readLe16 h (offCksum l))

/-- `MakeHeader(f, c, w, hh)` (R106): the fields stand one after another, the checksum bytes 00 00,
the pixel offset `HDR_SIZE`. -/
def makeHeader (l : HdrLayout) (f : PixFmt) (c : Byte) (w hh : Word) : List Byte :=
  magic l ++ [0, 0, f.code, c] ++ le32 w ++ le32 hh ++ le32 (BitVec.ofNat 32 (hdrSize l))

/-- The header bytes, `SRCSEQ(0, HDR_SIZE)`. -/
def State.srcHeader (s : State) : List Byte := s.srcSeq 0 (hdrSize s.cfg.layout)

/-- `reg[HDR_VALID] <- v`. -/
def State.setHdrValid (s : State) (v : Word) : State :=
  { s with regs := { s.regs with hdrValid := v } }

/-- The registers written once a header is parsed, the parse point of 10_state.md R36: ParseHeader's,
CALC_CKSUM and HDR_VALID. -/
def State.parsePoint (s : State) : State :=
  ((s.parseHeader s.srcHeader).setCalcCksum s.srcCksum).setHdrValid
    (validate s.cfg.layout s.srcHeader s.srcCksum)

/-- HDR_PARSE (R100), the informational caller of R103: no failed check is an error. -/
def execHdrParse (s : State) : Host.Outcome State Fault Refusal :=
  runCommand .hdrParse s
    (if hdrSize s.cfg.layout ≤ s.regs.srcLen.toNat then
      .ok (s.parsePoint.setLengths 0 s.regs.srcLen.toNat)
    else .error (s, .truncated 1))

end Sys2Proof.Machine
end

