-- ==== Sys2Proof/Machine/Image.lean ====
section
/-! DEFINITION. The Image Codec: EncodeImage, DecodeImage, IMG_ENC and IMG_DEC (44_image.md). -/

namespace Sys2Proof.Machine

/-- `EncodeImage(pix, W, H, bpp)` (R170): the rows top to bottom, each with its 2-byte length; a row
of more than 65535 bytes raises RANGE 1 (R174). -/
def encodeImage (w bpp : Nat) : Nat → List Byte → Except Err (List Byte)
  | 0, _ => .ok []
  | h + 1, pix =>
    let c := encodeRow (pix.take (w * bpp)) w bpp
    if c.length ≤ 65535 then
      match encodeImage w bpp h (pix.drop (w * bpp)) with
      | .ok rest => .ok (le16 (BitVec.ofNat 16 c.length) ++ c ++ rest)
      | .error e => .error e
    else .error .rowTooLong

/-- `DecodeImage(s, W, H, bpp)` (R172): the pixels and the bytes consumed, or the first failing row's
error. -/
def decodeImage (w bpp : Nat) : Nat → List Byte → Except Err (List Byte × Nat)
  | 0, _ => .ok ([], 0)
  | h + 1, s =>
    if s.length < 2 then .error (.truncated 3)
    else
      let len := (readLe16 s 0).toNat
      let body := s.drop 2
      if body.length < len then .error (.truncated 4)
      else
        match decodeRow (body.take len) w bpp with
        | .error e => .error e
        | .ok row =>
          match decodeImage w bpp h (body.drop len) with
          | .error e => .error e
          | .ok (pix, p) => .ok (row ++ pix, 2 + len + p)

/-- IMG_ENC's computation (R171): the framed stream and IN_POS, or the error. -/
def imgEncResult (s : State) : Except Err (List Byte × Nat) := do
  let (w, h, f) ← geometry true s.regs
  check (decide (w * h * f.bpp ≤ s.regs.srcLen.toNat)) (.truncated 5)
  let b ← encodeImage w f.bpp h (s.srcSeq 0 (w * h * f.bpp))
  check (decide (b.length ≤ s.regs.dstCap.toNat)) .outputTooLong
  return (b, w * h * f.bpp)

/-- IMG_DEC's computation (R173): the pixels and IN_POS, or the error. -/
def imgDecResult (s : State) : Except Err (List Byte × Nat) := do
  let (w, h, f) ← geometry true s.regs
  check (decide (w * h * f.bpp ≤ s.regs.dstCap.toNat)) .outputTooLong
  decodeImage w f.bpp h (s.srcSeq 0 s.regs.srcLen.toNat)

/-- IMG_ENC (R171). -/
def execImgEnc (s : State) : Host.Outcome State Fault Refusal :=
  runCommand .imgEnc s (deliverBody s (imgEncResult s))

/-- IMG_DEC (R173). -/
def execImgDec (s : State) : Host.Outcome State Fault Refusal :=
  runCommand .imgDec s (deliverBody s (imgDecResult s))

end Sys2Proof.Machine
end

