-- ==== Sys2Proof/Machine/File.lean ====
section
/-! DEFINITION. The file-level commands and their four procedures (46_file.md). -/

namespace Sys2Proof.Machine

/-- What `FileFront` returns: width, height, pixel format and compression of the parsed header. -/
structure FileInfo where
  w : Word
  h : Word
  f : PixFmt
  c : Byte
deriving DecidableEq, Repr

/-- The header fields a file-level command goes on with (R211). -/
def State.fileInfo (s : State) : FileInfo :=
  let l := s.cfg.layout
  let hd := s.srcHeader
  ⟨readLe32 hd (offWidth l), readLe32 hd (offHeight l), fmtOfValid (byteAt hd (offPixfmt l)),
    byteAt hd (offComp l)⟩

/-- `FileFront` after CheckWindows (R211): the state past the parse point and the header's fields.
The mutating caller's policy (41_header.md R103): a failed check other than the checksum's is fatal. -/
def fileFront (s : State) : Except (State × Err) (State × FileInfo) :=
  if hdrSize s.cfg.layout ≤ s.regs.srcLen.toNat then
    let bad := failedChecks (validate s.cfg.layout s.srcHeader s.srcCksum)
    if bad = 0 then .ok (s.parsePoint, s.fileInfo)
    else .error (s.parsePoint, .invalidFile bad)
  else .error (s, .truncated 1)

/-- `ReadBody(W, H, f, c)` (R212): the pixels and the source bytes consumed. -/
def readBody (s : State) (i : FileInfo) : Except Err (List Byte × Nat) :=
  let n := i.w.toNat * i.h.toNat * i.f.bpp
  let hs := hdrSize s.cfg.layout
  let rest := s.regs.srcLen.toNat - hs
  if i.c = 0 then
    if n ≤ rest then .ok (s.srcSeq hs n, hs + n) else .error (.truncated 2)
  else
    match decodeImage i.w.toNat i.f.bpp i.h.toNat (s.srcSeq hs rest) with
    | .ok (pix, p) => .ok (pix, hs + p)
    | .error e => .error e

/-- `WriteBody(pix, W, H, f2, c2)` (R213). -/
def writeBody (pix : List Byte) (w h : Word) (f2 : PixFmt) (c2 : Byte) : Except Err (List Byte) :=
  if c2 = 0 then .ok pix else encodeImage w.toNat f2.bpp h.toNat pix

/-- `FileBack` (R214): the file with its checksum bytes 00 00, then the stamp over the bytes just
written. -/
def fileBack (s : State) (f2 : PixFmt) (c2 : Byte) (w h : Word) (body : List Byte) (consumed : Nat) :
    Except Err State :=
  let out := makeHeader s.cfg.layout f2 c2 w h ++ body
  if out.length ≤ s.regs.dstCap.toNat then
    .ok (((s.dstWrite out).stamp out.length).setLengths out.length consumed)
  else .error .outputTooLong

/-- FILE_COMPRESS (R215). -/
def execFileCompress (s : State) : Host.Outcome State Fault Refusal :=
  runCommand .fileCompress s do
    let (t, i) ← fileFront s
    let (pix, consumed) ← raisedAt t (readBody t i)
    let body ← raisedAt t (writeBody pix i.w i.h i.f 1)
    raisedAt t (fileBack t i.f 1 i.w i.h body consumed)

/-- FILE_DECOMPRESS (R216). -/
def execFileDecompress (s : State) : Host.Outcome State Fault Refusal :=
  runCommand .fileDecompress s do
    let (t, i) ← fileFront s
    let (pix, consumed) ← raisedAt t (readBody t i)
    let body ← raisedAt t (writeBody pix i.w i.h i.f 0)
    raisedAt t (fileBack t i.f 0 i.w i.h body consumed)

/-- FILE_CONVERT (R217): the output keeps the input's compression. -/
def execFileConvert (df : PixFmt) (s : State) : Host.Outcome State Fault Refusal :=
  runCommand (.fileConvert df) s do
    let (t, i) ← fileFront s
    let (pix, consumed) ← raisedAt t (readBody t i)
    let body ← raisedAt t (writeBody (convert pix i.f df) i.w i.h df i.c)
    raisedAt t (fileBack t df i.c i.w i.h body consumed)

end Sys2Proof.Machine
end

