-- ==== Sys2Proof/Machine/Dispatch.lean ====
section
/-! DEFINITION. One arm per instruction. -/

namespace Sys2Proof.Machine

def exec (i : Instr) (s : State) : Host.Outcome State Fault Refusal :=
  match i with
  | .nop => Sys2Proof.Machine.execNop s
  | .hdrParse => Sys2Proof.Machine.execHdrParse s
  | .cksum => Sys2Proof.Machine.execCksum s
  | .cksumStamp => Sys2Proof.Machine.execCksumStamp s
  | .rowEnc => Sys2Proof.Machine.execRowEnc s
  | .rowDec => Sys2Proof.Machine.execRowDec s
  | .imgEnc => Sys2Proof.Machine.execImgEnc s
  | .imgDec => Sys2Proof.Machine.execImgDec s
  | .cvt df => Sys2Proof.Machine.execCvt df s
  | .fileCompress => Sys2Proof.Machine.execFileCompress s
  | .fileDecompress => Sys2Proof.Machine.execFileDecompress s
  | .fileConvert df => Sys2Proof.Machine.execFileConvert df s
  | .reserved43 rest => Sys2Proof.Machine.execReserved43 rest s
  | .literalBlock m px => Sys2Proof.Machine.execLiteralBlock m px s
  | .repeatBlock n px => Sys2Proof.Machine.execRepeatBlock n px s

end Sys2Proof.Machine
end

