-- ==== Sys2Proof/Machine/Engine.lean ====
section
/-! DEFINITION. The engine's step (10_state.md R37, 60_exceptions.md R244) and one pass of the row
decoder inside ROW_DEC (43_rle_row.md R140; log 10). -/

namespace Sys2Proof.Machine

/-- The engine's step: none when `pending` is empty; else decode and execute the whole command
(60_exceptions.md R244). A word that does not decode ends with ILLEGAL and touches no memory
(30_encoding.md R75). -/
def engineStep (s : State) : Host.Outcome State Fault Refusal :=
  match s.pending with
  | none => .next s
  | some w =>
    match decodeCommand w with
    | .ok i => exec i s
    | .error e => .next (s.completeErr (decodeErr e))

/-- One pass of the loop of DecodeRow for the row `r` that ROW_DEC is decoding, or the end of the row
(43_rle_row.md R140, R143). -/
def rowStep (r : RowCtx) (s : State) : Host.Outcome State Fault Refusal :=
  if r.cp < r.c.length then
    match fetchBlock r with
    | .ok (b, _) => exec b.toInstr s
    | .error e => .next (s.raiseInRow (decodeErr e))
  else .next (s.finishRow r)

end Sys2Proof.Machine
end

