-- ==== Sys2Proof/Machine/HostInput.lean ====
section
/-! DEFINITION. What the outside world does to the machine: register accesses (10_state.md R22, R40),
memory accesses (20_memory.md R61 to R63), other instances (60_exceptions.md R254), reset
(70_reset_and_hazards.md R270); and the host notation (30_encoding.md R90 to R93). -/

namespace Sys2Proof.Machine

/-! ## The register window -/

/-- The offset of a register (10_state.md R21). -/
def RegName.offset : RegName → Nat
  | .CMD => 0x00
  | .STATUS => 0x04
  | .SRC_BASE => 0x08
  | .SRC_LEN => 0x0C
  | .DST_BASE => 0x10
  | .DST_CAP => 0x14
  | .WIDTH => 0x18
  | .HEIGHT => 0x1C
  | .FMT => 0x20
  | .OUT_LEN => 0x24
  | .IN_POS => 0x28
  | .HDR_VALID => 0x2C
  | .HDR_CKSUM => 0x30
  | .CALC_CKSUM => 0x34
  | .OUT_CKSUM => 0x38
  | .HDR_PIXOFF => 0x3C

/-- The registers in the order of their offsets. -/
def RegName.all : List RegName :=
  [.CMD, .STATUS, .SRC_BASE, .SRC_LEN, .DST_BASE, .DST_CAP, .WIDTH, .HEIGHT, .FMT,
    .OUT_LEN, .IN_POS, .HDR_VALID, .HDR_CKSUM, .CALC_CKSUM, .OUT_CKSUM, .HDR_PIXOFF]

/-- The register at an offset; none at a reserved one (10_state.md R21). -/
def RegName.ofOffset (off : Nat) : Option RegName := RegName.all.find? fun n => n.offset == off

/-- `reg[NAME]` (00_scope.md R16). -/
def Regs.get (r : Regs) : RegName → Word
  | .CMD => r.cmd
  | .STATUS => r.status
  | .SRC_BASE => r.srcBase
  | .SRC_LEN => r.srcLen
  | .DST_BASE => r.dstBase
  | .DST_CAP => r.dstCap
  | .WIDTH => r.width
  | .HEIGHT => r.height
  | .FMT => r.fmt
  | .OUT_LEN => r.outLen
  | .IN_POS => r.inPos
  | .HDR_VALID => r.hdrValid
  | .HDR_CKSUM => r.hdrCksum
  | .CALC_CKSUM => r.calcCksum
  | .OUT_CKSUM => r.outCksum
  | .HDR_PIXOFF => r.hdrPixoff

/-- A host write to a configuration register; a write to a read-only one has no effect and FMT's
zero field discards its bits (10_state.md R22). CMD is not written here (R40). -/
def Regs.hostWrite (r : Regs) (n : RegName) (v : Word) : Regs :=
  match n with
  | .SRC_BASE => { r with srcBase := v }
  | .SRC_LEN => { r with srcLen := v }
  | .DST_BASE => { r with dstBase := v }
  | .DST_CAP => { r with dstCap := v }
  | .WIDTH => { r with width := v }
  | .HEIGHT => { r with height := v }
  | .FMT => { r with fmt := fmtWord (v.extractLsb' 8 8) (v.extractLsb' 0 8) }
  | .CMD | .STATUS | .OUT_LEN | .IN_POS | .HDR_VALID | .HDR_CKSUM | .CALC_CKSUM | .OUT_CKSUM
  | .HDR_PIXOFF => r

/-- How the block takes a bus access at `addr` of `bits` bits (10_state.md R21, R22): refused, not
this block's, or an access at an offset. An access that starts below the window and runs into it is
refused too; the spec does not name that case (log 14, DESIGN CHOICE). -/
def regAccess (c : Config) (addr : Word) (bits : Nat) : Except Refusal (Option Nat) :=
  if c.regBase.toNat ≤ addr.toNat ∧ addr.toNat ≤ c.regBase.toNat + 0xFF then
    if bits = 32 ∧ (addr.toNat - c.regBase.toNat) % 4 = 0 then
      .ok (some (addr.toNat - c.regBase.toNat))
    else .error .registerAccess
  else if addr.toNat < c.regBase.toNat ∧ c.regBase.toNat < addr.toNat + (bits + 7) / 8 then
    .error .registerAccess
  else .ok none

/-- Whether accepting `w` makes this instance BUSY with a window that overlaps another BUSY
instance's (60_exceptions.md R254). -/
def peerClash (ws busy : List AddrRange) : Bool := ws.any fun w => busy.any fun p => overlap w p

/-- A host write to the register at an offset (10_state.md R22, R23, R40): ignored while BUSY. -/
def writeRegister (s : State) (off : Nat) (v : Word) : Host.Outcome State Fault Refusal :=
  if s.regs.busy then .next s
  else
    match RegName.ofOffset off with
    | none => .next s
    | some .CMD =>
      if peerClash (wordWindows v s.regs) s.env.peers then .fault .peerOverlap
      else .next (s.accept v)
    | some n => .next { s with regs := s.regs.hostWrite n v }

/-- The value a read of an offset returns: 0 at a reserved one (10_state.md R22). -/
def readRegister (s : State) (off : Nat) : Word :=
  match RegName.ofOffset off with
  | some n => s.regs.get n
  | none => 0

/-- The host reads the register at an offset. A STATUS read that shows BUSY = 0 ends the hold on the
windows (20_memory.md R62; log 9), after which an incoherent host must sync (R63; log 16). -/
def hostReads (s : State) (off : Nat) : State :=
  let env := { s.env with readData := readRegister s off }
  if off = RegName.STATUS.offset ∧ s.regs.busy = false then { s with env := env.release }
  else { s with env := env }

/-! ## Shared memory -/

/-- Whether the address lies in a held window. -/
def isHeld (s : State) (a : Nat) : Bool := s.env.held.any fun w => inRange w a

/-- Whether memory exists at the address and is ordinary (20_memory.md R52, R54). -/
def accessible (c : Config) (a : Nat) : Bool := backs c ⟨a, 1⟩ && ordinary c ⟨a, 1⟩

/-- A byte store that reaches shared memory. -/
def storeByte (s : State) (a : Nat) (v : Byte) : State := { s with mem := s.mem.write a v }

/-- A store by the host or another master. An incoherent host's store waits in its buffer
(20_memory.md R63; log 16). -/
def memoryStore (s : State) (who : Agent) (a : Word) (v : Byte) : Host.Outcome State Fault Refusal :=
  if isHeld s a.toNat then .fault .windowHazard
  else if !accessible s.cfg a.toNat then .refused .memoryAccess
  else if who = .host ∧ s.cfg.hostCoherent = false then
    .next { s with env := { s.env with hostBuf := s.env.hostBuf ++ [(a.toNat, v)] } }
  else .next (storeByte s a.toNat v)

/-- The value the host loads: its own buffered store if it has one, else the shared byte; an
incoherent host that has not synced reads a free value (20_memory.md R63; log 16). -/
def hostLoad (s : State) (a : Nat) : Byte :=
  if s.cfg.hostCoherent then s.mem.read a
  else
    match s.env.hostBuf.reverse.find? fun c => c.1 == a with
    | some c => c.2
    | none => if s.env.hostSynced then s.mem.read a else Config.freeByte s.draws

/-- Whether the host's load draws a free value. -/
def hostLoadDraws (s : State) (a : Nat) : Bool :=
  !s.cfg.hostCoherent && !s.env.hostSynced && (s.env.hostBuf.all fun c => c.1 != a)

/-- A load by the host or another master; another master's load returns nothing to the host. -/
def memoryLoad (s : State) (who : Agent) (a : Word) : Host.Outcome State Fault Refusal :=
  if isHeld s a.toNat then .fault .windowHazard
  else if !accessible s.cfg a.toNat then .refused .memoryAccess
  else
    match who with
    | .other => .next s
    | .host =>
      .next { s with
        draws := if hostLoadDraws s a.toNat then s.draws + 1 else s.draws
        env := { s.env with readData := (hostLoad s a.toNat).setWidth 32 } }

/-- The host's buffered stores reach shared memory, oldest first, and its stale data is dropped
(20_memory.md R63). A buffered store into a held window is the window hazard. -/
def syncHost (s : State) : Host.Outcome State Fault Refusal :=
  if s.env.hostBuf.any fun c => isHeld s c.1 then .fault .windowHazard
  else
    .next { s with
      mem := s.env.hostBuf.foldl (fun m c => m.write c.1 c.2) s.mem
      env := { s.env with hostBuf := [], hostSynced := true } }

/-! ## Other instances -/

/-- Another instance's BUSY windows change (60_exceptions.md R254). -/
def peersChange (s : State) (busy : List AddrRange) : Host.Outcome State Fault Refusal :=
  match s.pending with
  | some w =>
    if peerClash (wordWindows w s.regs) busy then .fault .peerOverlap
    else .next { s with env := { s.env with peers := busy } }
  | none => .next { s with env := { s.env with peers := busy } }

/-! ## One input -/

/-- The state with its next inputs replaced. -/
def State.withInputs (s : State) (l : List Input) : State := { s with env := { s.env with inputs := l } }

/-- Takes input `i`; `rest` is what comes after it. A `wait` stays in the list while BUSY, the engine
moving meanwhile (30_encoding.md R91; log 18). -/
def inputStep (i : Input) (rest : List Input) (s : State) : Host.Outcome State Fault Refusal :=
  match i with
  | .engine => engineStep (s.withInputs rest)
  | .wait =>
    if s.regs.busy then engineStep s else .next (hostReads (s.withInputs rest) RegName.STATUS.offset)
  | .regWrite addr bits v =>
    match regAccess s.cfg addr bits with
    | .error r => .refused r
    | .ok none => .next (s.withInputs rest)
    | .ok (some off) => writeRegister (s.withInputs rest) off v
  | .regRead addr bits =>
    match regAccess s.cfg addr bits with
    | .error r => .refused r
    | .ok none => .next (s.withInputs rest)
    | .ok (some off) => .next (hostReads (s.withInputs rest) off)
  | .memWrite who a v => memoryStore (s.withInputs rest) who a v
  | .memRead who a => memoryLoad (s.withInputs rest) who a
  | .hostSync => syncHost (s.withInputs rest)
  | .peers busy => peersChange (s.withInputs rest) busy
  | .reset => .next (s.withInputs rest).resetEvent

/-! ## The host notation (30_encoding.md R90 to R93) -/

/-- `wr REG, imm32` (R90). -/
def wr (c : Config) (n : RegName) (v : Word) : List Input :=
  [.regWrite (c.regBase + BitVec.ofNat 32 n.offset) 32 v]

/-- `rd REG` (R90). -/
def rd (c : Config) (n : RegName) : List Input :=
  [.regRead (c.regBase + BitVec.ofNat 32 n.offset) 32]

/-- `mem ADDR: b0 b1 ...` (R90): the bytes are in shared memory before the program runs. -/
def State.preload (s : State) (a : Nat) (bs : List Byte) : State := { s with mem := s.mem.writeSeq a bs }

/-- `cmd MNEMONIC` (R91): `wr CMD` with the command's word. -/
def cmd (c : Config) (i : Instr) : List Input :=
  match encode i with
  | .command w => wr c .CMD w
  | .block _ => []

/-- `win SRC, base, len` (R91). -/
def winSrc (c : Config) (base len : Word) : List Input := wr c .SRC_BASE base ++ wr c .SRC_LEN len

/-- `win DST, base, cap` (R91). -/
def winDst (c : Config) (base cap : Word) : List Input := wr c .DST_BASE base ++ wr c .DST_CAP cap

/-- `img w, h, fmt` (R91). -/
def img (c : Config) (w h fmt : Word) : List Input :=
  wr c .WIDTH w ++ wr c .HEIGHT h ++ wr c .FMT (fmtWord 0 (fmt.extractLsb' 0 8))

/-- `.row { blocks }` (R92). -/
def rowFrame (blocks : List Block) : List Byte :=
  let body := (blocks.map encodeBlock).flatten
  le16 (BitVec.ofNat 16 body.length) ++ body

/-- `.hdr fmt=F, comp=C, w=W, h=H, ck=K, po=P` (R93). -/
def hdrDirective (l : HdrLayout) (f c : Byte) (w h : Word) (k : BitVec 16) (p : Word) : List Byte :=
  magic l ++ le16 k ++ [f, c] ++ le32 w ++ le32 h ++ le32 p

end Sys2Proof.Machine
end

