-- ==== Sys2Proof/Machine/Step.lean ====
section
/-! DEFINITION. One step of the machine, and how a table word is put where the step fetches. -/

namespace Sys2Proof.Machine

/-- One step. Inside a row of ROW_DEC, one pass of the row decoder (log 10); else the next input of
the outside world, or, when there is none, the engine's step; with nothing pending the block is idle
(60_exceptions.md R256; log 4). -/
def step (s : State) : Host.Outcome State Fault Refusal :=
  match s.row with
  | some r => rowStep r s
  | none =>
    match s.env.inputs with
    | [] => engineStep s
    | i :: rest => inputStep i rest s

/-- ROW_DEC accepted, and its row decoder at the start of the row `bytes` with room for any block;
`bpp` is FMT's, or 1 where FMT names no format (log 19, log 24). -/
def State.withRowBytes (s : State) (bytes : List Byte) : State :=
  let bpp := match PixFmt.ofCode s.regs.pixfmt with
    | some f => f.bpp
    | none => 1
  { s with
    regs := { s.regs with cmd := 0x11, status := acceptedStatus }
    pending := some 0x11
    row := some { c := bytes, bpp := bpp, need := 255 * bpp, cp := 0, op := 0, out := [] } }

/-- `s` with a table word placed so that the next step runs exactly it: a command word is accepted
and the engine's step comes next; a tag block stands at the read cursor of a row (log 19). -/
def State.withFetchWord (s : State) (nbits w : Nat) : State :=
  if nbits = 32 then
    { s with
      regs := { s.regs with cmd := BitVec.ofNat 32 w, status := acceptedStatus }
      pending := some (BitVec.ofNat 32 w)
      row := none
      env := { s.env with inputs := .engine :: s.env.inputs } }
  else s.withRowBytes (tableBlockBytes nbits w)

end Sys2Proof.Machine
end

