-- ==== Sys2Proof/Safety.lean ====
section
/-! DEFINITION. The terms claims use: when a command is free to run, the error pairs the block can
report, the invariant of the machine, and a safe run. -/

namespace Sys2Proof.Machine

/-- The windows the command uses are backed ordinary memory and pass CheckWindows
(20_memory.md R53, R54). -/
def windowsReady (i : Instr) (s : State) : Bool :=
  (windowRefusal i s).isNone && (checkWindows i s.regs).isNone

/-- Every byte of the destination window that exists is a free value drawn between `s` and `t` (20_memory.md
R55(b), 93_implementation_defined.md U1; log 5), and every byte outside it reads as before. If the command uses the
source window, all of that window reads as before (20_memory.md R51; log 6). -/
def dstUnspecified (i : Instr) (s t : State) : Prop :=
  (∀ a, a < 4294967296 → inRange s.regs.dstWindow a = true → (usesSrc i = true → inRange s.regs.srcWindow a = false) →
    ∃ k, s.draws ≤ k ∧ k < t.draws ∧ t.mem.read a = Config.freeByte k) ∧
  (∀ a, inRange s.regs.dstWindow a = false → t.mem.read a = s.mem.read a) ∧
  (usesSrc i = true → ∀ a, inRange s.regs.srcWindow a = true → t.mem.read a = s.mem.read a)

/-- The command ends with an error past CheckWindows whose STATUS is `code`: of the registers `base`, only
OUT_LEN, IN_POS and STATUS change, `pending` empties, and of memory the destination window becomes unspecified
(60_exceptions.md R243, R244, R248; 20_memory.md R51, R55(b)). -/
def endsWithError (i : Instr) (s : State) (base : Regs) (code : Word) : Prop :=
  ∃ t, exec i s = .next t ∧ t.regs = { base with outLen := 0, inPos := 0, status := code } ∧
    t.pending = none ∧ t.row = none ∧ t.cfg = s.cfg ∧ t.env = s.env ∧ dstUnspecified i s t

/-- The five header checks of a file-level command pass (41_header.md R103(b)); the checksum's does not
count. -/
def fileHeaderPasses (s : State) : Prop :=
  let l := s.cfg.layout
  let h := s.mem.readSeq s.regs.srcBase.toNat (hdrSize l)
  hdrSize l ≤ s.regs.srcLen.toNat ∧ h.take (magicLen l) = magic l ∧
    (byteAt h (offPixfmt l) = 1 ∨ byteAt h (offPixfmt l) = 2) ∧
    (byteAt h (offComp l) = 0 ∨ byteAt h (offComp l) = 1) ∧
    readLe32 h (offWidth l) ≠ 0 ∧ readLe32 h (offHeight l) ≠ 0

/-- 46_file.md R211 to R214: what a file-level command whose output is the header `f2, c2` and `body` leaves
behind; the checksum is that of the output with its checksum bytes 00 00. -/
def fileCommandEnds (i : Instr) (s : State) (f2 : PixFmt) (c2 : Byte) (body : List Byte)
    (consumed : Nat) : Prop :=
  let l := s.cfg.layout
  let h := s.mem.readSeq s.regs.srcBase.toNat (hdrSize l)
  let ck := cksum (s.mem.readSeq s.regs.srcBase.toNat s.regs.srcLen.toNat) (offCksum l)
  let out := makeHeader l f2 c2 (readLe32 h (offWidth l)) (readLe32 h (offHeight l)) ++ body
  let c := cksum out (offCksum l)
  exec i s = .next { s with
    mem := (s.mem.writeSeq s.regs.dstBase.toNat out).writeSeq (s.regs.dstBase.toNat + offCksum l) (le16 c)
    regs := { s.regs with
      width := readLe32 h (offWidth l)
      height := readLe32 h (offHeight l)
      fmt := 0#16 ++ byteAt h (offComp l) ++ byteAt h (offPixfmt l)
      hdrCksum := (readLe16 h (offCksum l)).setWidth 32
      hdrPixoff := readLe32 h (offPixoff l)
      calcCksum := ck.setWidth 32
      hdrValid := validate l h ck
      outCksum := c.setWidth 32
      outLen := BitVec.ofNat 32 (hdrSize l + body.length)
      inPos := BitVec.ofNat 32 consumed
      status := 0x00000002 }
    pending := none
    row := none }

/-- The pairs of 60_exceptions.md R241, NONE left out. -/
def listedErr (e : Err) : Bool :=
  match e.kind with
  | .invalidFile => decide (1 ≤ e.detail.toNat) && decide (e.detail.toNat ≤ 31)
  | .truncated => decide (1 ≤ e.detail.toNat) && decide (e.detail.toNat ≤ 5)
  | .corrupt => decide (1 ≤ e.detail.toNat) && decide (e.detail.toNat ≤ 6)
  | .write => decide (e.detail.toNat = 1)
  | .illegal => decide (1 ≤ e.detail.toNat) && decide (e.detail.toNat ≤ 3)
  | .config => decide (1 ≤ e.detail.toNat) && decide (e.detail.toNat ≤ 7)
  | .range => decide (e.detail.toNat = 1)

/-- The kinds of error. -/
def ErrKind.all : List ErrKind := [.invalidFile, .truncated, .corrupt, .write, .illegal, .config, .range]

/-- STATUS holds a value the block can give it: 0 from reset, BUSY, done, or done with a listed
error (10_state.md R24, 60_exceptions.md R241). -/
def statusLegal (w : Word) : Bool :=
  w == 0 || w == acceptedStatus || w == doneStatus none ||
    ErrKind.all.any fun k =>
      w == doneStatus (some ⟨k, w.extractLsb' 8 8⟩) && listedErr ⟨k, w.extractLsb' 8 8⟩

/-- The fields marked zero hold zero (10_state.md R21). -/
def zeroFields (r : Regs) : Bool :=
  r.fmt.extractLsb' 16 16 == 0 && r.hdrValid.extractLsb' 6 26 == 0 && r.hdrCksum.extractLsb' 16 16 == 0 &&
    r.calcCksum.extractLsb' 16 16 == 0 && r.outCksum.extractLsb' 16 16 == 0

/-- `pending` and the registers and windows that go with it: CMD holds the same word (10_state.md
R37), its windows are held (20_memory.md R62), and no busy instance shares them (60_exceptions.md R254). -/
def pendingLegal (s : State) : Bool :=
  match s.pending with
  | none => true
  | some w =>
    s.regs.cmd == w && (wordWindows w s.regs).all (fun p => s.env.held.contains p) &&
      !peerClash (wordWindows w s.regs) s.env.peers

/-- The row decoder's locals fit the destination window, and the output has as many bytes as the
write cursor says (10_state.md R38). -/
def rowLegal (s : State) : Bool :=
  match s.row with
  | none => true
  | some r =>
    s.regs.busy && (checkWindows .rowDec s.regs).isNone && decide (r.need ≤ s.regs.dstCap.toNat) &&
      r.op == r.out.length && decide (r.op ≤ r.need)

/-- The invariant of the machine. -/
def State.inv (s : State) : Bool :=
  s.mem.wf && s.mem.inSpace && (s.env.hostBuf.all fun c => decide (c.1 < 4294967296)) &&
    statusLegal s.regs.status && (s.pending.isSome == s.regs.busy) && zeroFields s.regs &&
    pendingLegal s && rowLegal s

/-- A run of `k` steps that meets no fault: the host and the other masters keep the window rules. -/
def safeRun (k : Nat) (s : State) : Prop := ∀ f, Host.Core.run Sys2Proof.core k s ≠ .fault f

end Sys2Proof.Machine
end

