-- ==== Sys2Proof/Certificates/Slice0/Obligations.lean ====
section
/-! DEFINITION. The statements for the provers. -/

open Sys2Proof Sys2Proof.Machine

/-! ## Encoding -/

/-- 30_encoding.md R72 to R74, R79, R81, R82: no operand is lost between an instruction and its
encoding, whatever the pixel size of the row a block stands in. -/
def Obligations.DecodeOfEncodeIsTheInstruction : Prop :=
  ∀ (i : Instr) (bpp : Nat), bpp = 1 ∨ bpp = 3 → i.wellFormedAt bpp = true → decode bpp (encode i) = .ok i

/-- 30_encoding.md R74: each word has one meaning: a word that decodes is the encoding of what it decodes to. The
words that decode to an instruction other than the reserved slot's (log 13) are exactly the fourteen. -/
def Obligations.DecodedWordIsOneOfTheFourteen : Prop :=
  ∀ w : Word,
    (∀ i, decodeCommand w = .ok i → encode i = .command w) ∧
    ((∃ i, decodeCommand w = .ok i ∧ ∀ rest, i ≠ .reserved43 rest) ↔
      w ∈ ([0x00000000, 0x00000001, 0x00000002, 0x00000003, 0x00000010, 0x00000011, 0x00000020, 0x00000021,
        0x00000130, 0x00000230, 0x00000040, 0x00000041, 0x00000142, 0x00000242] : List Word))

/-- 30_encoding.md R80 to R82: blocks stand back to back. What follows a block does not change it; a decoded
block is the stream's first bytes; a repeat block has a nonzero tag and `1 + bpp` bytes, a literal block the
tag 0 and `2 + m*bpp` bytes. -/
def Obligations.BlocksStandBackToBack : Prop :=
  (∀ (bpp : Nat) (b : Block) (rest : List Byte),
    b.wellFormedAt bpp = true → decodeBlock bpp (encodeBlock b ++ rest) = .ok (b, rest)) ∧
  (∀ (bpp : Nat) (bs rest : List Byte) (b : Block), decodeBlock bpp bs = .ok (b, rest) →
    bs = encodeBlock b ++ rest ∧
    match b with
    | .rep n px => n ≠ 0 ∧ bs.head? = some n ∧ px.length = bpp ∧ (encodeBlock b).length = 1 + bpp
    | .lit m px => bs.head? = some 0 ∧ px.length = m.toNat * bpp ∧ (encodeBlock b).length = 2 + m.toNat * bpp)

/-- The legal words of 30_encoding.md R74, and two tag blocks of its R92. -/
def Obligations.WrittenOutWordsDecode : Prop :=
  decodeCommand 0x00000000 = .ok .nop ∧ decodeCommand 0x00000001 = .ok .hdrParse ∧
  decodeCommand 0x00000002 = .ok .cksum ∧ decodeCommand 0x00000003 = .ok .cksumStamp ∧
  decodeCommand 0x00000010 = .ok .rowEnc ∧ decodeCommand 0x00000011 = .ok .rowDec ∧
  decodeCommand 0x00000020 = .ok .imgEnc ∧ decodeCommand 0x00000021 = .ok .imgDec ∧
  decodeCommand 0x00000130 = .ok (.cvt .rgb8) ∧ decodeCommand 0x00000230 = .ok (.cvt .gray8) ∧
  decodeCommand 0x00000040 = .ok .fileCompress ∧ decodeCommand 0x00000041 = .ok .fileDecompress ∧
  decodeCommand 0x00000142 = .ok (.fileConvert .rgb8) ∧ decodeCommand 0x00000242 = .ok (.fileConvert .gray8) ∧
  decode 3 (.block [0x02, 0x0A, 0x14, 0x1E]) = .ok (.repeatBlock 2 [0x0A, 0x14, 0x1E]) ∧
  decode 1 (.block [0x00, 0x02, 0x07, 0x08]) = .ok (.literalBlock 2 [0x07, 0x08])

/-- 30_encoding.md R75, R76, R79: the engine's step on a word that is not legal. OPC, then RSVD, then ARG;
STATUS, OUT_LEN and IN_POS are all that changes, beside `pending`. The OPC 0x43 is undefined
here, and so is the instruction the decoder reads from it (log 13). -/
def Obligations.IllegalWordsEndWithIllegal : Prop :=
  ∀ (s : State) (w : Word), s.pending = some w →
    let opc : Byte := w.extractLsb' 0 8
    let arg : BitVec 4 := w.extractLsb' 8 4
    let rsvd : BitVec 20 := w.extractLsb' 12 20
    let defined : List Byte := [0x00, 0x01, 0x02, 0x03, 0x10, 0x11, 0x20, 0x21, 0x30, 0x40, 0x41, 0x42]
    let ends (code : Word) : Prop := engineStep s =
      .next { s with regs := { s.regs with outLen := 0, inPos := 0, status := code }, pending := none, row := none }
    (opc ∉ defined → ends 0x00000156) ∧
    (opc ∈ defined → rsvd ≠ 0 → ends 0x00000256) ∧
    ((opc = 0x30 ∨ opc = 0x42) → rsvd = 0 → arg ≠ 1 → arg ≠ 2 → ends 0x00000356) ∧
    (opc ∈ defined → opc ≠ 0x30 → opc ≠ 0x42 → rsvd = 0 → arg ≠ 0 → ends 0x00000356) ∧
    (∀ rest : BitVec 24, exec (.reserved43 rest) s = .next { s with
      regs := { s.regs with outLen := 0, inPos := 0, status := 0x00000156 }, pending := none, row := none })

/-! ## A step runs the decoded instruction -/

/-- A step is the decoded instruction's `exec`: for the pending command when no input is left (log 3), when
the input lets the engine move (log 3), and while the host waits (log 18); inside a row of ROW_DEC (the model's
view, log 10) for the block at the read cursor. With nothing pending the step leaves all but the inputs (log 4).
When the engine moves is the model's choice; the spec says only that its step comes. -/
def Obligations.StepRunsTheDecodedInstruction : Prop :=
  (∀ (s : State) (w : Word) (i : Instr), s.row = none → s.pending = some w → decodeCommand w = .ok i →
    (s.env.inputs = [] → step s = exec i s) ∧
    (∀ rest, s.env.inputs = .engine :: rest → step s = exec i (s.withInputs rest)) ∧
    (∀ rest, s.env.inputs = .wait :: rest → s.regs.busy = true → step s = exec i s)) ∧
  (∀ (s : State) (r : RowCtx) (b : Block) (rest : List Byte), s.row = some r → r.cp < r.c.length →
    decodeBlock r.bpp (r.c.drop r.cp) = .ok (b, rest) → step s = exec b.toInstr s) ∧
  (∀ s : State, s.row = none → s.pending = none →
    (s.env.inputs = [] → step s = .next s) ∧
    (∀ rest, s.env.inputs = .engine :: rest → step s = .next (s.withInputs rest)))

/-! ## The host -/

/-- 10_state.md R40: acceptance when BUSY = 0, whatever the word; every register write is ignored when
BUSY = 1. -/
def Obligations.CommandAcceptance : Prop :=
  ∀ (s : State) (rest : List Input) (addr w : Word), s.row = none → s.env.inputs = .regWrite addr 32 w :: rest →
    (s.regs.busy = false → addr = s.cfg.regBase → peerClash (wordWindows w s.regs) s.env.peers = false →
      step s = .next { s with
        regs := { s.regs with cmd := w, status := 0x00000001 }
        pending := some w
        env := { s.env with inputs := rest, held := s.env.held ++ wordWindows w s.regs } }) ∧
    (s.regs.busy = true → s.cfg.regBase.toNat ≤ addr.toNat → addr.toNat ≤ s.cfg.regBase.toNat + 0xFF →
      (addr.toNat - s.cfg.regBase.toNat) % 4 = 0 →
      step s = .next { s with env := { s.env with inputs := rest } })

/-- 10_state.md R22, R25 to R28: what an aligned 32-bit write does while BUSY = 0, register by register (CMD
apart); read-only registers and reserved offsets keep everything as it was. -/
def Obligations.HostWriteSetsOneRegister : Prop :=
  ∀ (s : State) (rest : List Input) (addr v : Word) (off : Nat), s.row = none → s.regs.busy = false →
    s.env.inputs = .regWrite addr 32 v :: rest → addr.toNat = s.cfg.regBase.toNat + off → off % 4 = 0 →
    off ≤ 0xFF → off ≠ 0 →
    step s = .next { s with
      env := { s.env with inputs := rest }
      regs :=
        if off = 0x08 then { s.regs with srcBase := v }
        else if off = 0x0C then { s.regs with srcLen := v }
        else if off = 0x10 then { s.regs with dstBase := v }
        else if off = 0x14 then { s.regs with dstCap := v }
        else if off = 0x18 then { s.regs with width := v }
        else if off = 0x1C then { s.regs with height := v }
        else if off = 0x20 then { s.regs with fmt := v &&& 0x0000FFFF }
        else s.regs }

/-- 10_state.md R22: an aligned 32-bit read returns the register, 0 at a reserved offset, and changes
no register, no memory and not `pending`; an access of another width, or not at a multiple of 4, is refused. -/
def Obligations.HostReadReturnsTheRegister : Prop :=
  (∀ (s : State) (rest : List Input) (addr : Word) (off : Nat), s.row = none →
    s.env.inputs = .regRead addr 32 :: rest → addr.toNat = s.cfg.regBase.toNat + off → off % 4 = 0 → off ≤ 0xFF →
    ∃ t, step s = .next t ∧ t.regs = s.regs ∧ t.mem = s.mem ∧ t.pending = s.pending ∧ t.env.inputs = rest ∧
      (∀ n : RegName, n.offset = off → t.env.readData = s.regs.get n) ∧
      (0x40 ≤ off → t.env.readData = 0)) ∧
  (∀ (s : State) (rest : List Input) (addr v : Word) (bits : Nat), s.row = none →
    s.cfg.regBase.toNat ≤ addr.toNat → addr.toNat ≤ s.cfg.regBase.toNat + 0xFF →
    (bits ≠ 32 ∨ (addr.toNat - s.cfg.regBase.toNat) % 4 ≠ 0) →
    (s.env.inputs = .regWrite addr bits v :: rest → step s = .refused .registerAccess) ∧
    (s.env.inputs = .regRead addr bits :: rest → step s = .refused .registerAccess))

/-- 20_memory.md R62: an access to a held window faults; any other access to accessible memory has its effect. R63:
a host synchronisation stores the host's buffered stores in their order, and is a fault if one of them would reach
a held window. The host's buffer, its freshness and the input `hostSync` are the model's (log 16), and so is what
another master's load shows here (log 22). -/
def Obligations.AccessToHeldWindowFaults : Prop :=
  ∀ (s : State) (rest : List Input), s.row = none →
    (∀ (a : Word) (v : Byte),
      let store (who : Agent) : Prop := s.env.inputs = .memWrite who a v :: rest
      let load (who : Agent) : Prop := s.env.inputs = .memRead who a :: rest
      let returns (b : Byte) (n : Nat) : Prop := step s = .next { s with
        draws := n, env := { s.env with inputs := rest, readData := b.setWidth 32 } }
      (∀ who, store who ∨ load who → (∃ w ∈ s.env.held, inRange w a.toNat = true) →
        step s = .fault .windowHazard) ∧
      ((∀ w ∈ s.env.held, inRange w a.toNat = false) → accessible s.cfg a.toNat = true →
        (store .other ∨ store .host ∧ s.cfg.hostCoherent = true →
          step s = .next { s with mem := s.mem.write a.toNat v, env := { s.env with inputs := rest } }) ∧
        (load .other → step s = .next { s with env := { s.env with inputs := rest } }) ∧
        (load .host → s.cfg.hostCoherent = true → returns (s.mem.read a.toNat) s.draws) ∧
        (store .host → s.cfg.hostCoherent = false → step s = .next { s with
          env := { s.env with inputs := rest, hostBuf := s.env.hostBuf ++ [(a.toNat, v)] } }) ∧
        (load .host → s.cfg.hostCoherent = false →
          (∀ older newer b, s.env.hostBuf = older ++ (a.toNat, b) :: newer → (∀ c ∈ newer, c.1 ≠ a.toNat) →
            returns b s.draws) ∧
          ((∀ c ∈ s.env.hostBuf, c.1 ≠ a.toNat) →
            (s.env.hostSynced = true → returns (s.mem.read a.toNat) s.draws) ∧
            (s.env.hostSynced = false → returns (Config.freeByte s.draws) (s.draws + 1)))))) ∧
    (s.env.inputs = .hostSync :: rest →
      ((∃ c ∈ s.env.hostBuf, ∃ w ∈ s.env.held, inRange w c.1 = true) → step s = .fault .windowHazard) ∧
      ((∀ c ∈ s.env.hostBuf, ∀ w ∈ s.env.held, inRange w c.1 = false) → step s = .next { s with
        mem := s.env.hostBuf.foldl (fun m c => m.write c.1 c.2) s.mem
        env := { s.env with inputs := rest, hostBuf := [], hostSynced := true } }))

/-- 20_memory.md R62: once held, a window stays held until the host reads STATUS with BUSY = 0, which releases every
window; a STATUS read with BUSY = 1 releases none. That a reset releases them too is the model's (log 9). -/
def Obligations.HeldWindowsStayHeld : Prop :=
  ∀ (s t : State), step s = .next t →
    ((∀ w ∈ s.env.held, w ∈ t.env.held) ∨
      (s.regs.busy = false ∧ (∃ rest, s.env.inputs = .wait :: rest)) ∨
      (s.regs.busy = false ∧ (∃ addr rest, s.env.inputs = .regRead addr 32 :: rest ∧
        addr.toNat = s.cfg.regBase.toNat + 4)) ∨
      (∃ rest, s.env.inputs = .reset :: rest)) ∧
    (∀ rest, s.row = none →
      (∀ addr, s.env.inputs = .regRead addr 32 :: rest → addr.toNat = s.cfg.regBase.toNat + 4 →
        t.env.held = if s.regs.busy then s.env.held else []) ∧
      (s.env.inputs = .wait :: rest → t.env.held = if s.regs.busy then s.env.held else []) ∧
      (s.env.inputs = .reset :: rest → t.env.held = []))

/-- 60_exceptions.md R254: two instances both BUSY with overlapping windows are a fault, whichever becomes
BUSY last. -/
def Obligations.OverlappingBusyInstancesFault : Prop :=
  ∀ (s : State) (rest : List Input), s.row = none →
    (∀ w busy, s.pending = some w → s.env.inputs = .peers busy :: rest →
      peerClash (wordWindows w s.regs) busy = true → step s = .fault .peerOverlap) ∧
    (∀ w, s.regs.busy = false → s.env.inputs = .regWrite s.cfg.regBase 32 w :: rest →
      peerClash (wordWindows w s.regs) s.env.peers = true → step s = .fault .peerOverlap)

/-- 10_state.md R43, 70_reset_and_hazards.md R270: the state after reset, and the reset event from any state. Memory is not changed when no
command is pending. -/
def Obligations.ResetEventClearsTheBlock : Prop :=
  (∀ n : RegName, State.reset.regs.get n = 0) ∧ State.reset.pending = none ∧
  ∀ (s : State) (rest : List Input), s.row = none → s.env.inputs = .reset :: rest →
    ∃ t, step s = .next t ∧
      t.regs = ⟨0, 0, 0, 0, 0, 0, 0, 0, 0, 0, 0, 0, 0, 0, 0, 0⟩ ∧ t.pending = none ∧ t.row = none ∧
      t.cfg = s.cfg ∧ t.env.inputs = rest ∧ (s.pending = none → t.mem = s.mem)

/-- 70_reset_and_hazards.md R271, 93_implementation_defined.md U7: a reset while a command is pending, in both orders
of reset and step; the two orders are two lists of inputs (log 8). Before the step: the command never runs, every
byte of every window it uses is a free value (log 5), and every other byte keeps its value. After the step: the
command's effects on memory stand, and the bytes of its source window keep their values. -/
def Obligations.ResetBeforeOrAfterTheStep : Prop :=
  ∀ (s : State) (w : Word) (rest : List Input), s.row = none → s.pending = some w → s.mem.wf = true →
    (s.env.inputs = .reset :: rest →
      ∃ t, step s = .next t ∧ t.regs = Regs.zero ∧ t.pending = none ∧
        (∀ a, (∀ r ∈ wordWindows w s.regs, inRange r a = false) → t.mem.read a = s.mem.read a) ∧
        (∀ a, a < 4294967296 → (∃ r ∈ wordWindows w s.regs, inRange r a = true) →
          ∃ k, s.draws ≤ k ∧ k < t.draws ∧ t.mem.read a = Config.freeByte k)) ∧
    (∀ t, s.env.inputs = .engine :: .reset :: rest → step s = .next t →
      ∃ u, step t = .next u ∧ u.regs = Regs.zero ∧ u.pending = none ∧ u.mem = t.mem ∧
        (∀ a, inRange s.regs.dstWindow a = false → u.mem.read a = s.mem.read a) ∧
        (∀ i, decodeCommand w = .ok i → usesSrc i = true →
          ∀ a, inRange s.regs.srcWindow a = true → u.mem.read a = s.mem.read a))

/-- 70_reset_and_hazards.md R273: the first command after a reset, accepted and run, whatever the parameters and
memory; of the registers only CMD and STATUS are not 0 afterwards. -/
def Obligations.FirstCommandAfterReset : Prop :=
  ∀ (s : State) (w : Word), s.regs = Regs.zero →
    let ends (code : Word) : Prop := ∃ t, engineStep (s.accept w) = .next t ∧
      t.regs = { Regs.zero with cmd := w, status := code }
    (w ∈ ([0x00000000, 0x00000002] : List Word) → ends 0x00000002) ∧
    (w ∈ ([0x00000001, 0x00000040, 0x00000041, 0x00000142, 0x00000242] : List Word) → ends 0x00000126) ∧
    (w = 0x00000003 → ends 0x00000766) ∧
    (w ∈ ([0x00000010, 0x00000011, 0x00000020, 0x00000021, 0x00000130, 0x00000230] : List Word) →
      ends 0x00000466)

/-! ## Completion, command by command -/

/-- 46_file.md R210: NOP, its word and the malformed words of its OPC. -/
def Obligations.NopCompletes : Prop :=
  ∀ s : State,
    exec .nop s = .next { s with regs := { s.regs with status := 0x00000002 }, pending := none, row := none } ∧
    (∀ w : Word, s.pending = some w → w.extractLsb' 0 8 = 0#8 →
      (w.extractLsb' 12 20 ≠ 0#20 →
        engineStep s = .next { s with
          regs := { s.regs with outLen := 0, inPos := 0, status := 0x00000256 }, pending := none, row := none }) ∧
      (w.extractLsb' 12 20 = 0#20 → w.extractLsb' 8 4 ≠ 0#4 →
        engineStep s = .next { s with
          regs := { s.regs with outLen := 0, inPos := 0, status := 0x00000356 }, pending := none, row := none }))

/-- 41_header.md R100, R101: HDR_PARSE. A short source is TRUNCATED 1, and leaves the destination window
unspecified as any error past CheckWindows does (20_memory.md R55(b)), but for bytes it shares with the source window
(20_memory.md R51; log 6). -/
def Obligations.HdrParseCompletes : Prop :=
  ∀ s : State, windowsReady .hdrParse s = true →
    let l := s.cfg.layout
    let h := s.mem.readSeq s.regs.srcBase.toNat (hdrSize l)
    let ck := cksum (s.mem.readSeq s.regs.srcBase.toNat s.regs.srcLen.toNat) (offCksum l)
    (hdrSize l ≤ s.regs.srcLen.toNat →
      exec .hdrParse s = .next { s with
        regs := { s.regs with
          width := readLe32 h (offWidth l)
          height := readLe32 h (offHeight l)
          fmt := 0#16 ++ byteAt h (offComp l) ++ byteAt h (offPixfmt l)
          hdrCksum := (readLe16 h (offCksum l)).setWidth 32
          hdrPixoff := readLe32 h (offPixoff l)
          calcCksum := ck.setWidth 32
          hdrValid := validate l h ck
          outLen := 0
          inPos := s.regs.srcLen
          status := 0x00000002 }
        pending := none
        row := none }) ∧
    (s.regs.srcLen.toNat < hdrSize l → endsWithError .hdrParse s s.regs 0x00000126)

/-- 41_header.md R102: each flag of HDR_VALID reads only its own field. -/
def Obligations.HdrValidBits : Prop :=
  ∀ (l : HdrLayout) (h : List Byte) (ck : BitVec 16),
    (validate l h ck).getLsbD 0 = decide (h.take (magicLen l) = magic l) ∧
    (validate l h ck).getLsbD 1 = decide (byteAt h (offPixfmt l) = 1 ∨ byteAt h (offPixfmt l) = 2) ∧
    (validate l h ck).getLsbD 2 = decide (byteAt h (offComp l) = 0 ∨ byteAt h (offComp l) = 1) ∧
    (validate l h ck).getLsbD 3 = decide (readLe32 h (offWidth l) ≠ 0) ∧
    (validate l h ck).getLsbD 4 = decide (readLe32 h (offHeight l) ≠ 0) ∧
    (validate l h ck).getLsbD 5 = decide (ck = readLe16 h (offCksum l)) ∧
    ∀ k, 6 ≤ k → (validate l h ck).getLsbD k = false

/-- 42_checksum.md R121: CKSUM. -/
def Obligations.CksumCompletes : Prop :=
  ∀ s : State, windowsReady .cksum s = true →
    exec .cksum s = .next { s with
      regs := { s.regs with
        calcCksum := (cksum (s.mem.readSeq s.regs.srcBase.toNat s.regs.srcLen.toNat) (offCksum s.cfg.layout)).setWidth 32
        outLen := 0
        inPos := s.regs.srcLen
        status := 0x00000002 }
      pending := none
      row := none }

/-- 42_checksum.md R120: the checksum byte by byte; the two sums are modulo 256, and the masked byte
counts as 0. -/
def Obligations.CksumAddsOneByte : Prop :=
  ∀ (s : List Byte) (b : Byte) (off : Nat),
    let masked : Byte := if s.length = off ∨ s.length = off + 1 then 0 else b
    let sum1 : Byte := (cksum s off).extractLsb' 0 8 + masked
    let sum2 : Byte := (cksum s off).extractLsb' 8 8 + sum1
    cksum [] off = 0 ∧ cksum (s ++ [b]) off = sum2 ++ sum1

/-- 42_checksum.md R122: CKSUM_STAMP writes two bytes, `sum1` first; a window too short for the checksum
field is CONFIG 7. -/
def Obligations.CksumStampCompletes : Prop :=
  ∀ s : State, windowsReady .cksumStamp s = true → s.mem.wf = true →
    let off := offCksum s.cfg.layout
    let c := cksum (s.mem.readSeq s.regs.dstBase.toNat s.regs.dstCap.toNat) off
    (off + 2 ≤ s.regs.dstCap.toNat →
      exec .cksumStamp s = .next { s with
        mem := (s.mem.write (s.regs.dstBase.toNat + off) (c.extractLsb' 0 8)).write
          (s.regs.dstBase.toNat + off + 1) (c.extractLsb' 8 8)
        regs := { s.regs with
          outCksum := c.setWidth 32, outLen := s.regs.dstCap, inPos := 0, status := 0x00000002 }
        pending := none
        row := none }) ∧
    (s.regs.dstCap.toNat < off + 2 → endsWithError .cksumStamp s s.regs 0x00000766)

/-- 43_rle_row.md R150: ROW_ENC. -/
def Obligations.RowEncCompletes : Prop :=
  ∀ (s : State) (f : PixFmt), windowsReady .rowEnc s = true → s.regs.width ≠ 0 →
    PixFmt.ofCode s.regs.pixfmt = some f →
    let n := s.regs.width.toNat * f.bpp
    let c := encodeRow (s.mem.readSeq s.regs.srcBase.toNat n) s.regs.width.toNat f.bpp
    n ≤ s.regs.srcLen.toNat → c.length ≤ s.regs.dstCap.toNat →
    exec .rowEnc s = .next { s with
      mem := s.mem.writeSeq s.regs.dstBase.toNat c
      regs := { s.regs with
        outLen := BitVec.ofNat 32 c.length, inPos := BitVec.ofNat 32 n, status := 0x00000002 }
      pending := none
      row := none }

/-- 43_rle_row.md R151: ROW_DEC. -/
def Obligations.RowDecCompletes : Prop :=
  ∀ (s : State) (f : PixFmt) (out : List Byte), windowsReady .rowDec s = true → s.regs.width ≠ 0 →
    PixFmt.ofCode s.regs.pixfmt = some f → s.regs.width.toNat * f.bpp ≤ s.regs.dstCap.toNat →
    decodeRow (s.mem.readSeq s.regs.srcBase.toNat s.regs.srcLen.toNat) s.regs.width.toNat f.bpp = .ok out →
    exec .rowDec s = .next { s with
      mem := s.mem.writeSeq s.regs.dstBase.toNat out
      regs := { s.regs with
        outLen := BitVec.ofNat 32 (s.regs.width.toNat * f.bpp), inPos := s.regs.srcLen, status := 0x00000002 }
      pending := none
      row := none }

/-- 44_image.md R171: IMG_ENC. -/
def Obligations.ImgEncCompletes : Prop :=
  ∀ (s : State) (f : PixFmt) (b : List Byte), windowsReady .imgEnc s = true → s.regs.width ≠ 0 →
    s.regs.height ≠ 0 → PixFmt.ofCode s.regs.pixfmt = some f →
    let n := s.regs.width.toNat * s.regs.height.toNat * f.bpp
    n ≤ s.regs.srcLen.toNat →
    encodeImage s.regs.width.toNat f.bpp s.regs.height.toNat (s.mem.readSeq s.regs.srcBase.toNat n) = .ok b →
    b.length ≤ s.regs.dstCap.toNat →
    exec .imgEnc s = .next { s with
      mem := s.mem.writeSeq s.regs.dstBase.toNat b
      regs := { s.regs with
        outLen := BitVec.ofNat 32 b.length, inPos := BitVec.ofNat 32 n, status := 0x00000002 }
      pending := none
      row := none }

/-- 44_image.md R173: IMG_DEC. -/
def Obligations.ImgDecCompletes : Prop :=
  ∀ (s : State) (f : PixFmt) (pix : List Byte) (p : Nat), windowsReady .imgDec s = true → s.regs.width ≠ 0 →
    s.regs.height ≠ 0 → PixFmt.ofCode s.regs.pixfmt = some f →
    let n := s.regs.width.toNat * s.regs.height.toNat * f.bpp
    n ≤ s.regs.dstCap.toNat →
    decodeImage s.regs.width.toNat f.bpp s.regs.height.toNat
      (s.mem.readSeq s.regs.srcBase.toNat s.regs.srcLen.toNat) = .ok (pix, p) →
    exec .imgDec s = .next { s with
      mem := s.mem.writeSeq s.regs.dstBase.toNat pix
      regs := { s.regs with
        outLen := BitVec.ofNat 32 n, inPos := BitVec.ofNat 32 p, status := 0x00000002 }
      pending := none
      row := none }

/-- 45_convert.md R191: CVT, to either target and from either source format; FMT.PIXFMT becomes the
target and the rest of FMT is unchanged. -/
def Obligations.CvtCompletes : Prop :=
  ∀ (s : State) (sf df : PixFmt), windowsReady (.cvt df) s = true → s.regs.width ≠ 0 → s.regs.height ≠ 0 →
    PixFmt.ofCode s.regs.pixfmt = some sf →
    let n := s.regs.width.toNat * s.regs.height.toNat
    n * sf.bpp ≤ s.regs.srcLen.toNat → n * df.bpp ≤ s.regs.dstCap.toNat →
    exec (.cvt df) s = .next { s with
      mem := s.mem.writeSeq s.regs.dstBase.toNat
        (convert (s.mem.readSeq s.regs.srcBase.toNat (n * sf.bpp)) sf df)
      regs := { s.regs with
        fmt := (s.regs.fmt &&& 0xFFFFFF00#32) ||| df.code.setWidth 32
        outLen := BitVec.ofNat 32 (n * df.bpp), inPos := BitVec.ofNat 32 (n * sf.bpp), status := 0x00000002 }
      pending := none
      row := none }

/-- 46_file.md R215: FILE_COMPRESS, from either input compression. -/
def Obligations.FileCompressCompletes : Prop :=
  ∀ (s : State) (pix body : List Byte) (consumed : Nat), windowsReady .fileCompress s = true → s.mem.wf = true →
    fileHeaderPasses s → readBody s s.fileInfo = .ok (pix, consumed) →
    encodeImage s.fileInfo.w.toNat s.fileInfo.f.bpp s.fileInfo.h.toNat pix = .ok body →
    hdrSize s.cfg.layout + body.length ≤ s.regs.dstCap.toNat →
    fileCommandEnds .fileCompress s s.fileInfo.f 1 body consumed

/-- 46_file.md R216: FILE_DECOMPRESS, from either input compression. -/
def Obligations.FileDecompressCompletes : Prop :=
  ∀ (s : State) (pix : List Byte) (consumed : Nat), windowsReady .fileDecompress s = true → s.mem.wf = true →
    fileHeaderPasses s → readBody s s.fileInfo = .ok (pix, consumed) →
    hdrSize s.cfg.layout + pix.length ≤ s.regs.dstCap.toNat →
    fileCommandEnds .fileDecompress s s.fileInfo.f 0 pix consumed

/-- 46_file.md R217: FILE_CONVERT to either target, with either compression; the output keeps the
input's compression. -/
def Obligations.FileConvertCompletes : Prop :=
  ∀ (s : State) (df : PixFmt) (pix body : List Byte) (consumed : Nat), windowsReady (.fileConvert df) s = true →
    s.mem.wf = true → fileHeaderPasses s → readBody s s.fileInfo = .ok (pix, consumed) →
    (s.fileInfo.c = 0 → body = convert pix s.fileInfo.f df) →
    (s.fileInfo.c = 1 →
      encodeImage s.fileInfo.w.toNat df.bpp s.fileInfo.h.toNat (convert pix s.fileInfo.f df) = .ok body) →
    hdrSize s.cfg.layout + body.length ≤ s.regs.dstCap.toNat →
    fileCommandEnds (.fileConvert df) s df s.fileInfo.c body consumed

/-- 41_header.md R106: the fields of an output header, under either layout. -/
def Obligations.MadeHeaderFields : Prop :=
  ∀ (l : HdrLayout) (f : PixFmt) (c : Byte) (w hh : Word),
    let h := makeHeader l f c w hh
    h.length = hdrSize l ∧ h.take (magicLen l) = magic l ∧ readLe16 h (offCksum l) = 0 ∧
    byteAt h (offPixfmt l) = f.code ∧ byteAt h (offComp l) = c ∧ readLe32 h (offWidth l) = w ∧
    readLe32 h (offHeight l) = hh ∧ readLe32 h (offPixoff l) = BitVec.ofNat 32 (hdrSize l)

/-! ## The tag blocks -/

/-- 43_rle_row.md R141: REPEAT inside a row with room for it: `n` copies of the pixel, both cursors
moved, nothing else changed (the row held in State is the model's view, log 10). -/
def Obligations.RepeatBlockCompletes : Prop :=
  ∀ (s : State) (n : Byte) (px : List Byte),
    let r := s.row.getD idleRow
    r.op + n.toNat * px.length ≤ r.need →
    exec (.repeatBlock n px) s = .next { s with
      row := some { r with
        out := r.out ++ (List.replicate n.toNat px).flatten
        op := r.op + n.toNat * px.length
        cp := r.cp + (1 + px.length) } }

/-- 43_rle_row.md R142: LITERAL inside a row with room for it: the payload copied, both cursors moved,
nothing else changed (log 10). -/
def Obligations.LiteralBlockCompletes : Prop :=
  ∀ (s : State) (m : Byte) (px : List Byte),
    let r := s.row.getD idleRow
    m ≠ 0 → r.op + px.length ≤ r.need →
    exec (.literalBlock m px) s = .next { s with
      row := some { r with
        out := r.out ++ px, op := r.op + px.length, cp := r.cp + (2 + px.length) } }

/-- 43_rle_row.md R141 to R143: what ends a row with CORRUPT, in the order of the checks, as ROW_DEC
reports it when CheckWindows has passed; the destination window is then unspecified (20_memory.md R55(b)). The single
step is the model's view (log 10). -/
def Obligations.RowEndsWithCorrupt : Prop :=
  ∀ (s : State) (r : RowCtx), s.row = some r → checkWindows .rowDec s.regs = none → s.mem.wf = true →
    let left := r.c.drop r.cp
    let ends (code : Word) : Prop := ∃ t, step s = .next t ∧
      t.regs = { s.regs with outLen := 0, inPos := 0, status := code } ∧ t.pending = none ∧ t.row = none ∧
      t.cfg = s.cfg ∧ t.env = s.env ∧ dstUnspecified .rowDec s t
    (∀ n rest, left = n :: rest → n ≠ 0 → rest.length < r.bpp → ends 0x00000136) ∧
    (∀ n rest, left = n :: rest → n ≠ 0 → r.bpp ≤ rest.length → r.need < r.op + n.toNat * r.bpp →
      ends 0x00000536) ∧
    (left = [0] → ends 0x00000236) ∧
    (∀ rest, left = 0 :: 0 :: rest → ends 0x00000336) ∧
    (∀ m rest, left = 0 :: m :: rest → m ≠ 0 → rest.length < m.toNat * r.bpp → ends 0x00000436) ∧
    (∀ m rest, left = 0 :: m :: rest → m ≠ 0 → m.toNat * r.bpp ≤ rest.length →
      r.need < r.op + m.toNat * r.bpp → ends 0x00000536) ∧
    (left = [] → r.op ≠ r.need → ends 0x00000636)

/-- ROW_DEC's atomic step is its tag blocks one after another: running the blocks by single steps from the
start of the row ends where the command ends, in success or in error (43_rle_row.md R140; the single
steps are the model's view, log 10). -/
def Obligations.RowDecIsItsBlocks : Prop :=
  ∀ (s : State) (f : PixFmt), windowsReady .rowDec s = true → s.regs.width ≠ 0 →
    PixFmt.ofCode s.regs.pixfmt = some f → s.regs.width.toNat * f.bpp ≤ s.regs.dstCap.toNat →
    ∃ k, Host.Core.run Sys2Proof.core k
      { s with row := some (startRow (s.mem.readSeq s.regs.srcBase.toNat s.regs.srcLen.toNat)
        s.regs.width.toNat f.bpp) } = exec .rowDec s

/-- 43_rle_row.md R140: DecodeRow returns exactly `W*bpp` bytes, or raises CORRUPT 1 to 6. -/
def Obligations.DecodeRowFillsTheRow : Prop :=
  ∀ (c : List Byte) (w bpp : Nat),
    (∀ out, decodeRow c w bpp = .ok out → out.length = w * bpp) ∧
    (∀ e, decodeRow c w bpp = .error e → e.kind = .corrupt ∧ 1 ≤ e.detail.toNat ∧ e.detail.toNat ≤ 6)

/-! ## The row encoder -/

/-- 43_rle_row.md R146 to R149: EncodeRow goes over the row's pixels, the `k`-th being bytes `k*bpp` up to
`(k+1)*bpp`, one block group at a time. RunLen is the maximal run that starts here. A run of 2 or more is repeat
blocks of at most 255, full ones first; else the literal span up to the row's end or the next run of 2 or more, in
literal blocks of at most 255, full ones first. -/
def Obligations.EncodeRowBlockByBlock : Prop :=
  (∀ (row : List Byte) (w bpp : Nat),
    encodeRow row w bpp = encodePixels w (pixels bpp w row) ∧ (pixels bpp w row).length = w ∧
    ∀ k, k < w → (pixels bpp w row)[k]? = some ((row.drop (k * bpp)).take bpp)) ∧
  (∀ (p : List Byte) (ps : List (List Byte)),
    1 ≤ runLen (p :: ps) ∧ runLen (p :: ps) ≤ (p :: ps).length ∧
    (∀ k, k < runLen (p :: ps) → (p :: ps)[k]? = some p) ∧
    (p :: ps)[runLen (p :: ps)]? ≠ some p) ∧
  (∀ n, encodePixels n [] = []) ∧
  (∀ (n : Nat) (ps : List (List Byte)), ps ≠ [] → ps.length ≤ n →
    (2 ≤ runLen ps → encodePixels n ps =
      repeatChunks (ps.headD []) (runLen ps) (runLen ps) ++ encodePixels n (ps.drop (runLen ps))) ∧
    (runLen ps < 2 → encodePixels n ps =
      literalChunks (literalSpan ps) (ps.take (literalSpan ps)) ++ encodePixels n (ps.drop (literalSpan ps)))) ∧
  literalSpan [] = 0 ∧
  (∀ (p : List Byte) (ps : List (List Byte)), runLen (p :: ps) < 2 →
    literalSpan (p :: ps) = 1 + literalSpan ps) ∧
  (∀ (ps : List (List Byte)), 2 ≤ runLen ps → literalSpan ps = 0) ∧
  (∀ (px : List Byte) (r : Nat), 0 < r →
    (r ≤ 255 → repeatChunks px r r = BitVec.ofNat 8 r :: px) ∧
    (255 < r → repeatChunks px r r = 0xFF :: px ++ repeatChunks px (r - 255) (r - 255))) ∧
  (∀ (ps : List (List Byte)), ps ≠ [] →
    (ps.length ≤ 255 → literalChunks ps.length ps = 0 :: BitVec.ofNat 8 ps.length :: ps.flatten) ∧
    (255 < ps.length → literalChunks ps.length ps =
      0 :: 0xFF :: (ps.take 255).flatten ++ literalChunks (ps.length - 255) (ps.drop 255)))

/-- 43_rle_row.md R152(a), R153: decoding an encoded row gives the row, and an encoded row has at most
`(bpp + 2) * W` bytes. -/
def Obligations.RowRoundTrip : Prop :=
  ∀ (row : List Byte) (w bpp : Nat), 1 ≤ w → bpp = 1 ∨ bpp = 3 → row.length = w * bpp →
    decodeRow (encodeRow row w bpp) w bpp = .ok row ∧
    (encodeRow row w bpp).length ≤ (bpp + 2) * w

/-! ## Images, pixels, checksums -/

/-- 44_image.md R176: decoding an encoded image gives the image and consumes exactly the stream; bytes
after it are ignored (R172). -/
def Obligations.ImageRoundTrip : Prop :=
  ∀ (pix b tail : List Byte) (w h bpp : Nat), 1 ≤ w → 1 ≤ h → bpp = 1 ∨ bpp = 3 → pix.length = w * h * bpp →
    encodeImage w bpp h pix = .ok b → decodeImage w bpp h (b ++ tail) = .ok (pix, b.length)

/-- 44_image.md R170, R174: EncodeImage row by row, each row's tag stream after its length as two little-endian bytes.
An image is framed exactly when every row's tag stream has at most 65535 bytes; else RANGE 1. -/
def Obligations.RangeExactlyWhenARowIsTooLong : Prop :=
  ∀ (w bpp h : Nat) (pix : List Byte),
    ((∃ b, encodeImage w bpp h pix = .ok b) ↔
      ∀ y < h, (encodeRow ((pix.drop (y * (w * bpp))).take (w * bpp)) w bpp).length ≤ 65535) ∧
    ((¬∃ b, encodeImage w bpp h pix = .ok b) → encodeImage w bpp h pix = .error ⟨.range, 1⟩) ∧
    encodeImage w bpp 0 pix = .ok [] ∧
    let c := encodeRow (pix.take (w * bpp)) w bpp
    ∀ rest, c.length ≤ 65535 → encodeImage w bpp h (pix.drop (w * bpp)) = .ok rest →
      encodeImage w bpp (h + 1) pix =
        .ok (BitVec.ofNat 8 (c.length % 256) :: BitVec.ofNat 8 (c.length / 256) :: c ++ rest)

/-- 42_checksum.md R123: stamping a sequence with its checksum does not change its checksum, which then
equals the stored one. -/
def Obligations.StampedChecksumIsStable : Prop :=
  ∀ (s : List Byte) (off : Nat), off + 2 ≤ s.length →
    let c := cksum s off
    let s' := s.take off ++ le16 c ++ s.drop (off + 2)
    cksum s' off = c ∧ readLe16 s' off = c

/-- 45_convert.md R190, R192, R193, R195: RGB to gray takes the exact quotient, which fits a byte; gray to RGB
replicates; a same-format conversion copies; gray to RGB and back is the identity. -/
def Obligations.ConvertPixelByPixel : Prop :=
  ∀ (pix rest : List Byte) (r g b : Byte) (f sf df : PixFmt),
    convert [] sf df = [] ∧
    (299 * r.toNat + 587 * g.toNat + 114 * b.toNat) / 1000 ≤ 255 ∧
    convert (r :: g :: b :: rest) .rgb8 .gray8 =
      BitVec.ofNat 8 ((299 * r.toNat + 587 * g.toNat + 114 * b.toNat) / 1000) :: convert rest .rgb8 .gray8 ∧
    convert (g :: rest) .gray8 .rgb8 = g :: g :: g :: convert rest .gray8 .rgb8 ∧
    convert pix f f = pix ∧
    convert (convert pix .gray8 .rgb8) .rgb8 .gray8 = pix

/-! ## Errors -/

/-- 20_memory.md R53: CheckWindows, for every command that uses a window: when it raises, and then no memory byte
changes; and when it passes, the windows being ready then. Windows may end at 2^32, may touch, and an empty one
shares no byte with another. -/
def Obligations.CheckWindowsErrors : Prop :=
  ∀ (i : Instr) (s : State), windowRefusal i s = none →
    let both : List Instr := [.rowEnc, .rowDec, .imgEnc, .imgDec, .cvt .rgb8, .cvt .gray8, .fileCompress,
      .fileDecompress, .fileConvert .rgb8, .fileConvert .gray8]
    let srcEnd := s.regs.srcBase.toNat + s.regs.srcLen.toNat
    let dstEnd := s.regs.dstBase.toNat + s.regs.dstCap.toNat
    let ends (code : Word) : Prop := exec i s = .next { s with
      regs := { s.regs with outLen := 0, inPos := 0, status := code }, pending := none, row := none }
    ((i ∈ both ∨ i = .hdrParse ∨ i = .cksum) → 4294967296 < srcEnd → ends 0x00000166) ∧
    (i ∈ both → srcEnd ≤ 4294967296 → 4294967296 < dstEnd → ends 0x00000266) ∧
    (i = .cksumStamp → 4294967296 < dstEnd → ends 0x00000266) ∧
    (i ∈ both → srcEnd ≤ 4294967296 → dstEnd ≤ 4294967296 → 0 < s.regs.srcLen.toNat → 0 < s.regs.dstCap.toNat →
      s.regs.srcBase.toNat < dstEnd → s.regs.dstBase.toNat < srcEnd → ends 0x00000366) ∧
    ((i = .hdrParse ∨ i = .cksum) → srcEnd ≤ 4294967296 → windowsReady i s = true) ∧
    (i = .cksumStamp → dstEnd ≤ 4294967296 → windowsReady i s = true) ∧
    (i ∈ both → srcEnd ≤ 4294967296 → dstEnd ≤ 4294967296 →
      (s.regs.srcLen.toNat = 0 ∨ s.regs.dstCap.toNat = 0 ∨ srcEnd ≤ s.regs.dstBase.toNat ∨
        dstEnd ≤ s.regs.srcBase.toNat) → windowsReady i s = true)

/-- 43_rle_row.md R145: Geometry's errors in its order; ROW_ENC and ROW_DEC do not read HEIGHT. -/
def Obligations.GeometryErrors : Prop :=
  ∀ (i : Instr) (s : State),
    i ∈ [Instr.rowEnc, .rowDec, .imgEnc, .imgDec, .cvt .rgb8, .cvt .gray8] →
    windowsReady i s = true → s.mem.wf = true →
    (s.regs.width = 0 → endsWithError i s s.regs 0x00000466) ∧
    (s.regs.width ≠ 0 → i ≠ .rowEnc → i ≠ .rowDec → s.regs.height = 0 → endsWithError i s s.regs 0x00000566) ∧
    (s.regs.width ≠ 0 → (i = .rowEnc ∨ i = .rowDec ∨ s.regs.height ≠ 0) →
      s.regs.pixfmt ≠ 1 → s.regs.pixfmt ≠ 2 → endsWithError i s s.regs 0x00000666)

/-- 60_exceptions.md R245: the errors of the primitive codec commands past Geometry, in their order. -/
def Obligations.CodecErrorsInOrder : Prop :=
  ∀ (s : State) (f : PixFmt), s.regs.width ≠ 0 → PixFmt.ofCode s.regs.pixfmt = some f → s.mem.wf = true →
    let w := s.regs.width.toNat
    let h := s.regs.height.toNat
    let srcLen := s.regs.srcLen.toNat
    let dstCap := s.regs.dstCap.toNat
    let src (n : Nat) : List Byte := s.mem.readSeq s.regs.srcBase.toNat n
    (windowsReady .rowEnc s = true →
      (srcLen < w * f.bpp → endsWithError .rowEnc s s.regs 0x00000526) ∧
      (w * f.bpp ≤ srcLen → dstCap < (encodeRow (src (w * f.bpp)) w f.bpp).length →
        endsWithError .rowEnc s s.regs 0x00000146)) ∧
    (windowsReady .rowDec s = true →
      (dstCap < w * f.bpp → endsWithError .rowDec s s.regs 0x00000146) ∧
      (∀ e, w * f.bpp ≤ dstCap → decodeRow (src srcLen) w f.bpp = .error e →
        endsWithError .rowDec s s.regs (doneStatus (some e)))) ∧
    (s.regs.height ≠ 0 → windowsReady .imgEnc s = true →
      (srcLen < w * h * f.bpp → endsWithError .imgEnc s s.regs 0x00000526) ∧
      (w * h * f.bpp ≤ srcLen → (∀ b, encodeImage w f.bpp h (src (w * h * f.bpp)) ≠ .ok b) →
        endsWithError .imgEnc s s.regs 0x00000176) ∧
      (∀ b, w * h * f.bpp ≤ srcLen → encodeImage w f.bpp h (src (w * h * f.bpp)) = .ok b → dstCap < b.length →
        endsWithError .imgEnc s s.regs 0x00000146)) ∧
    (s.regs.height ≠ 0 → windowsReady .imgDec s = true →
      (dstCap < w * h * f.bpp → endsWithError .imgDec s s.regs 0x00000146) ∧
      (∀ e, w * h * f.bpp ≤ dstCap → decodeImage w f.bpp h (src srcLen) = .error e →
        endsWithError .imgDec s s.regs (doneStatus (some e)))) ∧
    (∀ df, s.regs.height ≠ 0 → windowsReady (.cvt df) s = true →
      (srcLen < w * h * f.bpp → endsWithError (.cvt df) s s.regs 0x00000526) ∧
      (w * h * f.bpp ≤ srcLen → dstCap < w * h * df.bpp → endsWithError (.cvt df) s s.regs 0x00000146))

/-- 44_image.md R172: DecodeImage's errors row by row: the length prefix, the row's body, the row; what a
good row leaves goes on below it. -/
def Obligations.DecodeImageRowByRow : Prop :=
  ∀ (w bpp h : Nat) (s : List Byte),
    decodeImage w bpp 0 s = .ok ([], 0) ∧
    (s.length < 2 → decodeImage w bpp (h + 1) s = .error ⟨.truncated, 3⟩) ∧
    (∀ b0 b1 body, s = b0 :: b1 :: body →
      let len := b0.toNat + 256 * b1.toNat
      (body.length < len → decodeImage w bpp (h + 1) s = .error ⟨.truncated, 4⟩) ∧
      (∀ e, len ≤ body.length → decodeRow (body.take len) w bpp = .error e →
        decodeImage w bpp (h + 1) s = .error e) ∧
      (∀ row e, len ≤ body.length → decodeRow (body.take len) w bpp = .ok row →
        decodeImage w bpp h (body.drop len) = .error e → decodeImage w bpp (h + 1) s = .error e) ∧
      (∀ row pix p, len ≤ body.length → decodeRow (body.take len) w bpp = .ok row →
        decodeImage w bpp h (body.drop len) = .ok (pix, p) →
        decodeImage w bpp (h + 1) s = .ok (row ++ pix, 2 + len + p)))

/-- 46_file.md R211, R212: the errors of the file-level commands in their order; past the parse point the
header registers keep what was parsed (10_state.md R36). When no check fails: the fields FileFront returns, and the
pixels and the number of source bytes that ReadBody returns, for either compression. -/
def Obligations.FileFrontThenReadBody : Prop :=
  ∀ (i : Instr) (s : State), i ∈ [Instr.fileCompress, .fileDecompress, .fileConvert .rgb8, .fileConvert .gray8] →
    windowsReady i s = true → s.mem.wf = true →
    let l := s.cfg.layout
    let h := s.mem.readSeq s.regs.srcBase.toNat (hdrSize l)
    let ck := cksum (s.mem.readSeq s.regs.srcBase.toNat s.regs.srcLen.toNat) (offCksum l)
    let bad : Byte := (~~~(validate l h ck)).setWidth 8 &&& 0x1F
    let parsed := { s.regs with
      width := readLe32 h (offWidth l)
      height := readLe32 h (offHeight l)
      fmt := 0#16 ++ byteAt h (offComp l) ++ byteAt h (offPixfmt l)
      hdrCksum := (readLe16 h (offCksum l)).setWidth 32
      hdrPixoff := readLe32 h (offPixoff l)
      calcCksum := ck.setWidth 32
      hdrValid := validate l h ck }
    (s.regs.srcLen.toNat < hdrSize l → endsWithError i s s.regs 0x00000126) ∧
    (hdrSize l ≤ s.regs.srcLen.toNat → bad ≠ 0 →
      endsWithError i s parsed (0x00000016 ||| bad.setWidth 32 <<< 8)) ∧
    (hdrSize l ≤ s.regs.srcLen.toNat → bad = 0 → s.fileInfo.c = 0 →
      s.regs.srcLen.toNat - hdrSize l < s.fileInfo.w.toNat * s.fileInfo.h.toNat * s.fileInfo.f.bpp →
      endsWithError i s parsed 0x00000226) ∧
    (∀ e, hdrSize l ≤ s.regs.srcLen.toNat → bad = 0 → s.fileInfo.c ≠ 0 →
      decodeImage s.fileInfo.w.toNat s.fileInfo.f.bpp s.fileInfo.h.toNat
        (s.mem.readSeq (s.regs.srcBase.toNat + hdrSize l) (s.regs.srcLen.toNat - hdrSize l)) = .error e →
      endsWithError i s parsed (doneStatus (some e))) ∧
    (hdrSize l ≤ s.regs.srcLen.toNat → bad = 0 →
      s.fileInfo.w = readLe32 h (offWidth l) ∧ s.fileInfo.h = readLe32 h (offHeight l) ∧
      s.fileInfo.f.code = byteAt h (offPixfmt l) ∧ s.fileInfo.c = byteAt h (offComp l)) ∧
    (hdrSize l ≤ s.regs.srcLen.toNat → bad = 0 →
      let n := s.fileInfo.w.toNat * s.fileInfo.h.toNat * s.fileInfo.f.bpp
      (s.fileInfo.c = 0 → n ≤ s.regs.srcLen.toNat - hdrSize l →
        readBody s s.fileInfo = .ok (s.mem.readSeq (s.regs.srcBase.toNat + hdrSize l) n, hdrSize l + n)) ∧
      (∀ pix p, s.fileInfo.c ≠ 0 →
        decodeImage s.fileInfo.w.toNat s.fileInfo.f.bpp s.fileInfo.h.toNat
          (s.mem.readSeq (s.regs.srcBase.toNat + hdrSize l) (s.regs.srcLen.toNat - hdrSize l)) = .ok (pix, p) →
        readBody s s.fileInfo = .ok (pix, hdrSize l + p)))

/-- 46_file.md R213, R214: past a good body, RANGE 1 for a row that cannot be framed, then WRITE 1 for an
output longer than the destination window; the header registers, CALC_CKSUM and HDR_VALID keep what was parsed
(10_state.md R36), and every other register its value. -/
def Obligations.FileOutputErrors : Prop :=
  ∀ (i : Instr) (s : State) (pix : List Byte) (consumed : Nat) (f2 : PixFmt) (c2 : Byte) (pix2 : List Byte),
    (i = .fileCompress ∧ f2 = s.fileInfo.f ∧ c2 = 1 ∧ pix2 = pix ∨
      i = .fileDecompress ∧ f2 = s.fileInfo.f ∧ c2 = 0 ∧ pix2 = pix ∨
      ∃ df, i = .fileConvert df ∧ f2 = df ∧ c2 = s.fileInfo.c ∧ pix2 = convert pix s.fileInfo.f df) →
    windowsReady i s = true → s.mem.wf = true → fileHeaderPasses s →
    readBody s s.fileInfo = .ok (pix, consumed) →
    let l := s.cfg.layout
    let h := s.mem.readSeq s.regs.srcBase.toNat (hdrSize l)
    let ck := cksum (s.mem.readSeq s.regs.srcBase.toNat s.regs.srcLen.toNat) (offCksum l)
    let parsed := { s.regs with
      width := readLe32 h (offWidth l)
      height := readLe32 h (offHeight l)
      fmt := 0#16 ++ byteAt h (offComp l) ++ byteAt h (offPixfmt l)
      hdrCksum := (readLe16 h (offCksum l)).setWidth 32
      hdrPixoff := readLe32 h (offPixoff l)
      calcCksum := ck.setWidth 32
      hdrValid := validate l h ck }
    (c2 = 1 → (∀ b, encodeImage s.fileInfo.w.toNat f2.bpp s.fileInfo.h.toNat pix2 ≠ .ok b) →
      endsWithError i s parsed 0x00000176) ∧
    (∀ body, (c2 = 0 ∧ body = pix2 ∨
        c2 = 1 ∧ encodeImage s.fileInfo.w.toNat f2.bpp s.fileInfo.h.toNat pix2 = .ok body) →
      s.regs.dstCap.toNat < hdrSize l + body.length → endsWithError i s parsed 0x00000146)

/-- 60_exceptions.md R241, R244: after the engine's step STATUS reads 0x2, or 0x6 with one of the table's
kinds and details in their fields. -/
def Obligations.OnlyListedErrorsOccur : Prop :=
  ∀ (s t : State) (w : Word), s.pending = some w → engineStep s = .next t →
    t.regs.status = 0x00000002 ∨
    ∃ e : Err, listedErr e = true ∧
      t.regs.status.toNat = 6 + 16 * e.kind.code.toNat + 256 * e.detail.toNat

/-- 20_memory.md R54: a command is refused exactly when a byte of a window it uses is unbacked or not
ordinary memory; a window's addresses past 2^32 - 1 do not exist and are not asked about (log 7). A command
that is not refused answers a next state. -/
def Obligations.RefusedExactlyWhenNotOrdinary : Prop :=
  ∀ (i : Instr) (s : State),
    (windowRefusal i s = none ↔
      ∀ w ∈ windowsOf i s.regs, ∀ a, a < 4294967296 → inRange w a = true →
        (∃ r ∈ s.cfg.backed, inRange r a = true) ∧ ∀ d ∈ s.cfg.devices, inRange d a = false) ∧
    (∀ r, windowRefusal i s = some r → exec i s = .refused r) ∧
    (windowRefusal i s = none → ∃ t, exec i s = .next t)

/-! ## Frames -/

/-- 20_memory.md R51, 60_exceptions.md R248, 70_reset_and_hazards.md R285: no instruction changes a byte outside the
destination window, and no command, whether it succeeds or fails, changes a byte of a source window that it uses. -/
def Obligations.NothingOutsideTheDestinationChanges : Prop :=
  ∀ (i : Instr) (s t : State), exec i s = .next t → s.mem.wf = true →
    (∀ a, inRange s.regs.dstWindow a = false → t.mem.read a = s.mem.read a) ∧
    (usesSrc i = true → ∀ a, inRange s.regs.srcWindow a = true → t.mem.read a = s.mem.read a)

/-- The instructions that store nothing keep all of memory: NOP, CKSUM, a reserved word, HDR_PARSE but for its
TRUNCATED 1 (after which the destination window is unspecified: HdrParseCompletes), and a tag block that fits its
row; a tag block as a step of its own is log 10. -/
def Obligations.NonStoringInstructionsKeepMemory : Prop :=
  ∀ (i : Instr) (s t : State), exec i s = .next t →
    (i = .nop ∨ i = .hdrParse ∧ t.regs.status ≠ 0x00000126 ∨ i = .cksum ∨ (∃ rest, i = .reserved43 rest) ∨
      ((∃ n px, i = .repeatBlock n px) ∨ (∃ m px, i = .literalBlock m px)) ∧ t.row ≠ none) →
    t.mem = s.mem ∧ t.draws = s.draws

/-- 20_memory.md R55(a): a command that succeeds writes destination bytes `0 .. OUT_LEN-1` only, and
CKSUM_STAMP only the two checksum bytes. -/
def Obligations.SuccessWritesOnlyTheOutput : Prop :=
  ∀ (i : Instr) (s t : State),
    i ∈ [Instr.cksumStamp, .rowEnc, .rowDec, .imgEnc, .imgDec, .cvt .rgb8, .cvt .gray8, .fileCompress,
      .fileDecompress, .fileConvert .rgb8, .fileConvert .gray8] →
    exec i s = .next t → t.regs.err = false → s.mem.wf = true →
    ∀ a, (a < s.regs.dstBase.toNat ∨ s.regs.dstBase.toNat + t.regs.outLen.toNat ≤ a ∨
        i = .cksumStamp ∧ (a < s.regs.dstBase.toNat + offCksum s.cfg.layout ∨
          s.regs.dstBase.toNat + offCksum s.cfg.layout + 2 ≤ a)) →
      t.mem.read a = s.mem.read a

/-- 10_state.md R36 (with R25, R26, R39): the registers each command leaves alone, in success and in error. -/
def Obligations.CommandRegisterFrame : Prop :=
  ∀ (i : Instr) (s t : State), exec i s = .next t →
    (∀ n px, i ≠ .repeatBlock n px) → (∀ m px, i ≠ .literalBlock m px) →
    let file := i = .fileCompress ∨ i = .fileDecompress ∨ (∃ df, i = .fileConvert df)
    let parses := file ∨ i = .hdrParse ∧ t.regs.err = false
    t.cfg = s.cfg ∧ t.env = s.env ∧ t.pending = none ∧ t.row = none ∧
    t.regs.cmd = s.regs.cmd ∧ t.regs.srcBase = s.regs.srcBase ∧ t.regs.srcLen = s.regs.srcLen ∧
    t.regs.dstBase = s.regs.dstBase ∧ t.regs.dstCap = s.regs.dstCap ∧
    t.regs.busy = false ∧ t.regs.done = true ∧
    (t.regs.err = true → t.regs.outLen = 0 ∧ t.regs.inPos = 0) ∧
    (i = .nop → t.regs.outLen = s.regs.outLen ∧ t.regs.inPos = s.regs.inPos) ∧
    (¬parses → t.regs.width = s.regs.width ∧ t.regs.height = s.regs.height ∧ t.regs.hdrValid = s.regs.hdrValid ∧
      t.regs.hdrCksum = s.regs.hdrCksum ∧ t.regs.hdrPixoff = s.regs.hdrPixoff) ∧
    (¬parses → ¬((∃ df, i = .cvt df) ∧ t.regs.err = false) → t.regs.fmt = s.regs.fmt) ∧
    (¬parses → ¬(i = .cksum ∧ t.regs.err = false) → t.regs.calcCksum = s.regs.calcCksum) ∧
    (¬((file ∨ i = .cksumStamp) ∧ t.regs.err = false) → t.regs.outCksum = s.regs.outCksum)

/-- The frame of the tag blocks (43_rle_row.md R141, R142: no register is written): while the row goes on,
only the row decoder's locals change. -/
def Obligations.BlockFrame : Prop :=
  ∀ (b : Block) (s t : State) (r : RowCtx), exec b.toInstr s = .next t → t.row = some r →
    t = { s with row := some r } ∧ r.c = (s.row.getD idleRow).c ∧ r.bpp = (s.row.getD idleRow).bpp ∧
      r.need = (s.row.getD idleRow).need

/-- 10_state.md R39: a command's result depends only on the configuration registers and the source window: two
states that agree on these give the same STATUS, OUT_LEN, IN_POS and output bytes, and the same value in every
result register the command writes (CKSUM_STAMP, which reads its destination window, apart). -/
def Obligations.ResultDependsOnlyOnTheConfiguration : Prop :=
  ∀ (i : Instr) (s s' t : State),
    i ∈ [Instr.nop, .hdrParse, .cksum, .rowEnc, .rowDec, .imgEnc, .imgDec, .cvt .rgb8, .cvt .gray8, .fileCompress,
      .fileDecompress, .fileConvert .rgb8, .fileConvert .gray8] →
    s'.cfg = s.cfg → s'.regs.srcBase = s.regs.srcBase → s'.regs.srcLen = s.regs.srcLen →
    s'.regs.dstBase = s.regs.dstBase → s'.regs.dstCap = s.regs.dstCap → s'.regs.width = s.regs.width →
    s'.regs.height = s.regs.height → s'.regs.pixfmt = s.regs.pixfmt → s.mem.wf = true → s'.mem.wf = true →
    (∀ a, inRange s.regs.srcWindow a = true → s'.mem.read a = s.mem.read a) →
    exec i s = .next t →
    let file := i = .fileCompress ∨ i = .fileDecompress ∨ (∃ df, i = .fileConvert df)
    let early : List Word := [0x00000126, 0x00000166, 0x00000266, 0x00000366]
    ∃ t', exec i s' = .next t' ∧ t'.regs.status = t.regs.status ∧
      (i ≠ .nop → t'.regs.outLen = t.regs.outLen ∧ t'.regs.inPos = t.regs.inPos) ∧
      (t.regs.err = false → i ≠ .nop → ∀ k < t.regs.outLen.toNat,
        t'.mem.read (s.regs.dstBase.toNat + k) = t.mem.read (s.regs.dstBase.toNat + k)) ∧
      (i = .cksum ∧ t.regs.err = false → t'.regs.calcCksum = t.regs.calcCksum) ∧
      (i = .hdrParse ∧ t.regs.err = false ∨ file ∧ t.regs.status ∉ early →
        t'.regs.width = t.regs.width ∧ t'.regs.height = t.regs.height ∧ t'.regs.fmt = t.regs.fmt ∧
        t'.regs.hdrValid = t.regs.hdrValid ∧ t'.regs.hdrCksum = t.regs.hdrCksum ∧
        t'.regs.hdrPixoff = t.regs.hdrPixoff ∧ t'.regs.calcCksum = t.regs.calcCksum) ∧
      (t.regs.err = false → t'.regs.pixfmt = t.regs.pixfmt) ∧
      (file ∧ t.regs.err = false → t'.regs.outCksum = t.regs.outCksum)

/-! ## The whole machine -/

/-- The invariant of Safety.lean is kept by every step: memory canonical and inside the address space,
STATUS a legal value, BUSY exactly when a command is pending, zero fields zero, CMD and the held windows
those of the pending command, the row inside its window. -/
def Obligations.StepKeepsTheInvariant : Prop :=
  ∀ s t : State, s.inv = true → step s = .next t → t.inv = true

/-- The state after reset meets the invariant. -/
def Obligations.ResetMeetsTheInvariant : Prop := State.reset.inv = true

/-- The wait loop of 30_encoding.md R91 ends: while a command is pending, the step completes it, and the
next one reads its STATUS and releases the windows (weak fairness, 70_reset_and_hazards.md R283). -/
def Obligations.WaitEndsAfterTheCommand : Prop :=
  ∀ (s t : State) (w : Word) (rest : List Input), s.row = none → s.pending = some w → s.regs.busy = true →
    s.env.inputs = .wait :: rest → step s = .next t →
    t.regs.busy = false ∧ t.regs.done = true ∧ t.pending = none ∧
    ∃ u, step t = .next u ∧ u.env.inputs = rest ∧ u.env.readData = t.regs.status ∧ u.env.held = [] ∧
      u.regs = t.regs ∧ u.mem = t.mem

/-! ## Files -/

/-- 46_file.md R218(a): the output of every file-level command that succeeds, given to HDR_PARSE, has all
six flags set. -/
def Obligations.FileOutputValidates : Prop :=
  ∀ (i : Instr) (s t u : State), i ∈ [Instr.fileCompress, .fileDecompress, .fileConvert .rgb8, .fileConvert .gray8] →
    s.mem.wf = true → exec i s = .next t → t.regs.err = false →
    u.cfg = t.cfg → u.mem = t.mem → u.regs.srcBase = t.regs.dstBase → u.regs.srcLen = t.regs.outLen →
    ∃ v, exec .hdrParse u = .next v ∧ v.regs.status = 0x00000002 ∧ v.regs.hdrValid = 0x0000003F

/-- 46_file.md R218(b): FILE_DECOMPRESS on the output of FILE_COMPRESS gives back a valid uncompressed file
that has no trailing bytes, the pixel offset HDR_SIZE and a correct checksum, byte for byte. -/
def Obligations.CompressDecompressRoundTrip : Prop :=
  ∀ (s t u : State),
    let l := s.cfg.layout
    let n := s.regs.srcLen.toNat
    let file := s.mem.readSeq s.regs.srcBase.toNat n
    s.mem.wf = true → exec .fileCompress s = .next t → t.regs.err = false →
    byteAt file (offComp l) = 0 → readLe32 file (offPixoff l) = BitVec.ofNat 32 (hdrSize l) →
    n = hdrSize l + s.fileInfo.w.toNat * s.fileInfo.h.toNat * s.fileInfo.f.bpp →
    cksum file (offCksum l) = readLe16 file (offCksum l) →
    u.cfg = t.cfg → u.mem = t.mem → u.regs.srcBase = t.regs.dstBase → u.regs.srcLen = t.regs.outLen →
    windowsReady .fileDecompress u = true → n ≤ u.regs.dstCap.toNat →
    ∃ v, exec .fileDecompress u = .next v ∧ v.regs.status = 0x00000002 ∧ v.regs.outLen = s.regs.srcLen ∧
      v.mem.readSeq u.regs.dstBase.toNat n = file
end

