-- ==== Sys2Proof/Laws/Memory.lean ====
section
/-! SUPPORT. The laws of shared memory: reading after writing, and the canonical form. -/

namespace Sys2Proof.Machine

/-- What the canonical form says of a listed memory's head and tail. -/
theorem Memory.wf_cons {k : Nat} {v : Byte} {m : Memory} :
    Memory.wf ((k, v) :: m) = true ↔ (∀ c ∈ m, k < c.1) ∧ Memory.wf m = true := by
  simp [Memory.wf]

/-- An address below every listed one stores nothing. -/
theorem Memory.stored_of_lt {m : Memory} {a : Nat} (h : ∀ c ∈ m, a < c.1) : m.stored a = none := by
  induction m with
  | nil => rfl
  | cons c m ih =>
    have hk : a < c.1 := h c (by simp)
    simp only [Memory.stored, if_neg (show ¬c.1 = a by omega)]
    exact ih fun c hc => h c (by simp [hc])

/-- A write adds no address but its own. -/
theorem Memory.mem_write {m : Memory} {a : Nat} {v : Byte} {c : Host.Cell} (h : c ∈ m.write a v) :
    c.1 = a ∨ c ∈ m := by
  induction m with
  | nil =>
    simp only [Memory.write, List.mem_singleton] at h
    exact .inl (h ▸ rfl)
  | cons d m ih =>
    simp only [Memory.write] at h
    repeat' split at h
    all_goals simp only [List.mem_cons] at h ⊢
    · rcases h with rfl | h
      · exact .inl rfl
      · exact .inr h
    · rcases h with rfl | h
      · exact .inl rfl
      · exact .inr (.inr h)
    · rcases h with rfl | h
      · exact .inr (.inl rfl)
      · exact (ih h).imp_right .inr

/-- A write keeps the canonical form. -/
theorem Memory.write_wf {m : Memory} (a : Nat) (v : Byte) (h : m.wf = true) : (m.write a v).wf = true := by
  induction m with
  | nil => rfl
  | cons d m ih =>
    obtain ⟨k, w⟩ := d
    obtain ⟨hk, hm⟩ := Memory.wf_cons.1 h
    simp only [Memory.write]
    by_cases hlt : a < k
    · rw [if_pos hlt]
      refine Memory.wf_cons.2 ⟨fun c hc => ?_, h⟩
      rcases List.mem_cons.1 hc with rfl | hc
      · exact hlt
      · exact lt_trans hlt (hk c hc)
    · rw [if_neg hlt]
      by_cases heq : a = k
      · rw [if_pos heq]
        exact Memory.wf_cons.2 ⟨by simpa [heq] using hk, hm⟩
      · rw [if_neg heq]
        refine Memory.wf_cons.2 ⟨fun c hc => ?_, ih hm⟩
        rcases Memory.mem_write hc with rfl | hc
        · omega
        · exact hk c hc

/-- What is stored after a write: the written byte at its address, the old byte elsewhere. -/
theorem Memory.stored_write (m : Memory) (a b : Nat) (v : Byte) :
    (m.write a v).stored b = if a = b then some v else m.stored b := by
  induction m with
  | nil => rfl
  | cons d m ih =>
    simp only [Memory.write]
    by_cases hlt : a < d.1
    · rw [if_pos hlt]
      rfl
    · rw [if_neg hlt]
      by_cases heq : a = d.1
      · rw [if_pos heq]
        by_cases hab : a = b
        · simp [Memory.stored, hab]
        · simp [Memory.stored, hab, ← heq]
      · rw [if_neg heq]
        simp only [Memory.stored, ih]
        by_cases hkb : d.1 = b
        · rw [if_pos hkb, if_neg (by omega), if_pos hkb]
        · rw [if_neg hkb, if_neg hkb]

/-- A read after a write: the written byte at its address, the old byte elsewhere. -/
theorem Memory.read_write (m : Memory) (a b : Nat) (v : Byte) :
    (m.write a v).read b = if a = b then v else m.read b := by
  simp only [Memory.read, Memory.stored_write]
  split <;> rfl

/-- A write inside the address space keeps memory inside it. -/
theorem Memory.write_inSpace {m : Memory} {a : Nat} {v : Byte} (h : m.inSpace = true) (ha : a < 4294967296) :
    (m.write a v).inSpace = true := by
  simp only [Memory.inSpace, List.all_eq_true, decide_eq_true_eq] at h ⊢
  intro c hc
  rcases Memory.mem_write hc with rfl | hc
  · exact ha
  · exact h c hc

/-- Canonical memories that store the same bytes are equal. -/
theorem Memory.ext_stored {m m' : Memory} (h : m.wf = true) (h' : m'.wf = true)
    (hr : ∀ a, m.stored a = m'.stored a) : m = m' := by
  induction m generalizing m' with
  | nil =>
    cases m' with
    | nil => rfl
    | cons d m' =>
      have := hr d.1
      simp [Memory.stored] at this
  | cons c m ih =>
    obtain ⟨k, v⟩ := c
    obtain ⟨hk, hm⟩ := Memory.wf_cons.1 h
    cases m' with
    | nil =>
      have := hr k
      simp [Memory.stored] at this
    | cons d m' =>
      obtain ⟨k', v'⟩ := d
      obtain ⟨hk', hm'⟩ := Memory.wf_cons.1 h'
      have hkk : k = k' := by
        rcases Nat.lt_trichotomy k k' with hlt | heq | hlt
        · have := hr k
          rw [Memory.stored_of_lt (m := (k', v') :: m')] at this
          · simp [Memory.stored] at this
          · rintro c (_ | ⟨_, hc⟩)
            · exact hlt
            · exact lt_trans hlt (hk' c hc)
        · exact heq
        · have := hr k'
          rw [Memory.stored_of_lt (m := (k, v) :: m)] at this
          · simp [Memory.stored] at this
          · rintro c (_ | ⟨_, hc⟩)
            · exact hlt
            · exact lt_trans hlt (hk c hc)
      subst hkk
      have hvv : v = v' := by
        have := hr k
        simpa [Memory.stored] using this
      subst hvv
      congr 1
      refine ih hm hm' fun a => ?_
      by_cases hka : k = a
      · subst hka
        rw [Memory.stored_of_lt hk, Memory.stored_of_lt hk']
      · have := hr a
        simpa only [Memory.stored, if_neg hka] using this

/-! ## Sequences of bytes -/

@[simp] theorem Memory.readSeq_length (m : Memory) (a n : Nat) : (m.readSeq a n).length = n := by
  induction n generalizing a with
  | zero => rfl
  | succ n ih => simp [Memory.readSeq, ih]

theorem Memory.readSeq_getElem (m : Memory) (a n i : Nat) (h : i < (m.readSeq a n).length) :
    (m.readSeq a n)[i] = m.read (a + i) := by
  induction n generalizing a i with
  | zero => simp [Memory.readSeq] at h
  | succ n ih =>
    cases i with
    | zero => simp [Memory.readSeq]
    | succ i =>
      simp only [Memory.readSeq, List.getElem_cons_succ]
      rw [ih]
      congr 1
      omega

/-- Two stretches of memory with equal bytes read as equal sequences. -/
theorem Memory.readSeq_congr {m m' : Memory} {a n : Nat}
    (h : ∀ i < n, m.read (a + i) = m'.read (a + i)) : m.readSeq a n = m'.readSeq a n := by
  apply List.ext_getElem (by simp)
  intro i h1 _
  simp only [Memory.readSeq_getElem]
  exact h i (by simpa using h1)

theorem Memory.readSeq_add (m : Memory) (a n k : Nat) :
    m.readSeq a (n + k) = m.readSeq a n ++ m.readSeq (a + n) k := by
  induction n generalizing a with
  | zero => simp [Memory.readSeq]
  | succ n ih =>
    rw [Nat.succ_add]
    simp only [Memory.readSeq, List.cons_append, ih, show a + 1 + n = a + (n + 1) by omega]

theorem Memory.readSeq_take (m : Memory) (a n k : Nat) (h : k ≤ n) :
    (m.readSeq a n).take k = m.readSeq a k := by
  obtain ⟨d, rfl⟩ := Nat.exists_eq_add_of_le h
  rw [Memory.readSeq_add, List.take_append_of_le_length (by simp), List.take_of_length_le (by simp)]

theorem Memory.readSeq_drop (m : Memory) (a n k : Nat) (h : k ≤ n) :
    (m.readSeq a n).drop k = m.readSeq (a + k) (n - k) := by
  obtain ⟨d, rfl⟩ := Nat.exists_eq_add_of_le h
  rw [Memory.readSeq_add, List.drop_append_of_le_length (by simp), List.drop_of_length_le (by simp)]
  simp

theorem Memory.writeSeq_wf {m : Memory} (a : Nat) (bs : List Byte) (h : m.wf = true) :
    (m.writeSeq a bs).wf = true := by
  induction bs generalizing m a with
  | nil => exact h
  | cons b bs ih => exact ih _ (Memory.write_wf a b h)

theorem Memory.writeSeq_inSpace {m : Memory} {a : Nat} {bs : List Byte} (h : m.inSpace = true)
    (ha : a + bs.length ≤ 4294967296) : (m.writeSeq a bs).inSpace = true := by
  induction bs generalizing m a with
  | nil => exact h
  | cons b bs ih =>
    simp only [List.length_cons] at ha
    exact ih (Memory.write_inSpace h (by omega)) (by omega)

/-- What is stored after a sequence of writes: the sequence's byte inside it, the old byte outside. -/
theorem Memory.stored_writeSeq (m : Memory) (a : Nat) (bs : List Byte) (b : Nat) :
    (m.writeSeq a bs).stored b = if a ≤ b ∧ b < a + bs.length then some (bs.getD (b - a) 0) else m.stored b := by
  induction bs generalizing m a with
  | nil => simp [Memory.writeSeq, show ¬(a ≤ b ∧ b < a) by omega]
  | cons x bs ih =>
    simp only [Memory.writeSeq, ih, Memory.stored_write, List.length_cons]
    by_cases hab : a = b
    · subst hab
      simp
    · by_cases hin : a + 1 ≤ b ∧ b < a + 1 + bs.length
      · rw [if_pos hin, if_pos (by omega), show b - a = (b - (a + 1)) + 1 by omega]
        simp
      · rw [if_neg hin, if_neg hab, if_neg (by omega)]

/-- A read after a sequence of writes: the sequence's byte inside it, the old byte outside. -/
theorem Memory.read_writeSeq (m : Memory) (a : Nat) (bs : List Byte) (b : Nat) :
    (m.writeSeq a bs).read b = if a ≤ b ∧ b < a + bs.length then bs.getD (b - a) 0 else m.read b := by
  simp only [Memory.read, Memory.stored_writeSeq]
  split <;> rfl

/-- What has been written as a sequence reads back as that sequence. -/
theorem Memory.readSeq_writeSeq (m : Memory) (a : Nat) (bs : List Byte) :
    (m.writeSeq a bs).readSeq a bs.length = bs := by
  apply List.ext_getElem (by simp)
  intro i h1 h2
  rw [Memory.readSeq_getElem, Memory.read_writeSeq, if_pos (by omega)]
  simp [h2]

/-- A sequence of writes leaves the bytes outside it alone. -/
theorem Memory.read_writeSeq_outside {m : Memory} {a b : Nat} {bs : List Byte}
    (ho : b < a ∨ a + bs.length ≤ b) : (m.writeSeq a bs).read b = m.read b := by
  rw [Memory.read_writeSeq, if_neg (by omega)]

@[simp] theorem freeBytes_length (k n : Nat) : (freeBytes k n).length = n := by
  induction n generalizing k with
  | zero => rfl
  | succ n ih => simp [freeBytes, ih]

/-- The `i`-th of the bytes drawn from draw number `k` on is that of draw `k + i`. -/
theorem freeBytes_getD {k n i : Nat} (h : i < n) : (freeBytes k n).getD i 0 = Config.freeByte (k + i) := by
  induction n generalizing k i with
  | zero => omega
  | succ n ih =>
    cases i with
    | zero => rfl
    | succ i =>
      rw [freeBytes, List.getD_cons_succ, ih (by omega)]
      congr 1
      omega

/-! ## Covered ranges -/

/-- A covered stretch: every address in it lies in one of the ranges. -/
theorem coversFrom_sound {rs : List AddrRange} {n lo hi : Nat} (h : coversFrom rs n lo hi = true) {a : Nat}
    (h1 : lo ≤ a) (h2 : a < hi) : ∃ r ∈ rs, inRange r a = true := by
  induction n generalizing lo with
  | zero => simp [coversFrom] at h; omega
  | succ n ih =>
    simp only [coversFrom, Bool.or_eq_true, decide_eq_true_eq] at h
    rcases h with h | h
    · omega
    · split at h
      · simp at h
      · rename_i r hr
        by_cases hra : inRange r a = true
        · exact ⟨r, List.mem_of_find?_eq_some hr, hra⟩
        · refine ih h ?_
          have hlo := List.find?_some hr
          simp only [inRange, Bool.and_eq_true, decide_eq_true_eq] at hlo hra
          omega

/-- As many passes as there are ranges end past `lo` are enough. -/
theorem coversFrom_of_countP {rs : List AddrRange} {n lo hi : Nat}
    (hn : rs.countP (fun r => decide (lo < rangeEnd r)) ≤ n)
    (h : ∀ a, lo ≤ a → a < hi → ∃ r ∈ rs, inRange r a = true) : coversFrom rs n lo hi = true := by
  induction n generalizing lo with
  | zero =>
    by_contra hc
    have hlt : lo < hi := by simpa [coversFrom] using hc
    obtain ⟨r, hr, hin⟩ := h lo (le_refl _) hlt
    have hpos : 0 < rs.countP (fun r => decide (lo < rangeEnd r)) := by
      refine List.countP_pos_iff.2 ⟨r, hr, ?_⟩
      simp only [inRange, Bool.and_eq_true, decide_eq_true_eq] at hin
      simpa using hin.2
    omega
  | succ n ih =>
    simp only [coversFrom, Bool.or_eq_true, decide_eq_true_eq]
    by_cases hlt : hi ≤ lo
    · exact .inl hlt
    · right
      obtain ⟨r, hr, hin⟩ := h lo (le_refl _) (by omega)
      cases hf : rs.find? (fun r => inRange r lo) with
      | none => exact absurd hin (by simpa using List.find?_eq_none.1 hf r hr)
      | some q =>
        have hq := List.mem_of_find?_eq_some hf
        have hql := List.find?_some hf
        simp only [inRange, Bool.and_eq_true, decide_eq_true_eq] at hql
        refine ih ?_ fun a h1 h2 => h a (by omega) h2
        have hstrict : rs.countP (fun r => decide (rangeEnd q < rangeEnd r)) <
            rs.countP (fun r => decide (lo < rangeEnd r)) := by
          obtain ⟨l1, l2, rfl⟩ := List.append_of_mem hq
          simp only [List.countP_append, List.countP_cons, decide_eq_true_eq, lt_self_iff_false, if_false, hql.2,
            if_true]
          have h1 : l1.countP (fun r => decide (rangeEnd q < rangeEnd r)) ≤ l1.countP (fun r => decide (lo < rangeEnd r)) :=
            List.countP_mono_left fun x _ hx => by
              simp only [decide_eq_true_eq] at hx ⊢
              omega
          have h2 : l2.countP (fun r => decide (rangeEnd q < rangeEnd r)) ≤ l2.countP (fun r => decide (lo < rangeEnd r)) :=
            List.countP_mono_left fun x _ hx => by
              simp only [decide_eq_true_eq] at hx ⊢
              omega
          omega
        omega

/-- Covered exactly when every address lies in one of the ranges. -/
theorem coversFrom_iff {rs : List AddrRange} {lo hi : Nat} :
    coversFrom rs rs.length lo hi = true ↔ ∀ a, lo ≤ a → a < hi → ∃ r ∈ rs, inRange r a = true :=
  ⟨fun h _ h1 h2 => coversFrom_sound h h1 h2, fun h => coversFrom_of_countP List.countP_le_length h⟩

end Sys2Proof.Machine
end

