-- ==== Sys2Proof/Laws/State.lean ====
section
/-! SUPPORT. One lemma per field per state update, true by definition. -/

namespace Sys2Proof.Machine

/-! ### dstWrite -/

@[simp] theorem dstWrite_cfg (s : State) (bs : List Byte) : (s.dstWrite bs).cfg = s.cfg := rfl
@[simp] theorem dstWrite_regs (s : State) (bs : List Byte) : (s.dstWrite bs).regs = s.regs := rfl
@[simp] theorem dstWrite_pending (s : State) (bs : List Byte) : (s.dstWrite bs).pending = s.pending := rfl
@[simp] theorem dstWrite_mem (s : State) (bs : List Byte) : (s.dstWrite bs).mem = s.mem.writeSeq s.regs.dstBase.toNat bs := rfl
@[simp] theorem dstWrite_row (s : State) (bs : List Byte) : (s.dstWrite bs).row = s.row := rfl
@[simp] theorem dstWrite_draws (s : State) (bs : List Byte) : (s.dstWrite bs).draws = s.draws := rfl
@[simp] theorem dstWrite_env (s : State) (bs : List Byte) : (s.dstWrite bs).env = s.env := rfl

/-! ### setLengths -/

@[simp] theorem setLengths_cfg (s : State) (n p : Nat) : (s.setLengths n p).cfg = s.cfg := rfl
@[simp] theorem setLengths_regs (s : State) (n p : Nat) : (s.setLengths n p).regs = { s.regs with outLen := BitVec.ofNat 32 n, inPos := BitVec.ofNat 32 p } := rfl
@[simp] theorem setLengths_pending (s : State) (n p : Nat) : (s.setLengths n p).pending = s.pending := rfl
@[simp] theorem setLengths_mem (s : State) (n p : Nat) : (s.setLengths n p).mem = s.mem := rfl
@[simp] theorem setLengths_row (s : State) (n p : Nat) : (s.setLengths n p).row = s.row := rfl
@[simp] theorem setLengths_draws (s : State) (n p : Nat) : (s.setLengths n p).draws = s.draws := rfl
@[simp] theorem setLengths_env (s : State) (n p : Nat) : (s.setLengths n p).env = s.env := rfl

/-! ### deliver -/

@[simp] theorem deliver_cfg (s : State) (bs : List Byte) (p : Nat) : (s.deliver bs p).cfg = s.cfg := rfl
@[simp] theorem deliver_regs (s : State) (bs : List Byte) (p : Nat) : (s.deliver bs p).regs = { s.regs with outLen := BitVec.ofNat 32 bs.length, inPos := BitVec.ofNat 32 p } := rfl
@[simp] theorem deliver_pending (s : State) (bs : List Byte) (p : Nat) : (s.deliver bs p).pending = s.pending := rfl
@[simp] theorem deliver_mem (s : State) (bs : List Byte) (p : Nat) : (s.deliver bs p).mem = s.mem.writeSeq s.regs.dstBase.toNat bs := rfl
@[simp] theorem deliver_row (s : State) (bs : List Byte) (p : Nat) : (s.deliver bs p).row = s.row := rfl
@[simp] theorem deliver_draws (s : State) (bs : List Byte) (p : Nat) : (s.deliver bs p).draws = s.draws := rfl
@[simp] theorem deliver_env (s : State) (bs : List Byte) (p : Nat) : (s.deliver bs p).env = s.env := rfl

/-! ### complete -/

@[simp] theorem complete_cfg (s : State) : s.complete.cfg = s.cfg := rfl
@[simp] theorem complete_regs (s : State) : s.complete.regs = { s.regs with status := doneStatus none } := rfl
@[simp] theorem complete_pending (s : State) : s.complete.pending = none := rfl
@[simp] theorem complete_mem (s : State) : s.complete.mem = s.mem := rfl
@[simp] theorem complete_row (s : State) : s.complete.row = none := rfl
@[simp] theorem complete_draws (s : State) : s.complete.draws = s.draws := rfl
@[simp] theorem complete_env (s : State) : s.complete.env = s.env := rfl

/-! ### completeErr -/

@[simp] theorem completeErr_cfg (s : State) (e : Err) : (s.completeErr e).cfg = s.cfg := rfl
@[simp] theorem completeErr_regs (s : State) (e : Err) : (s.completeErr e).regs = { s.regs with outLen := 0, inPos := 0, status := doneStatus (some e) } := rfl
@[simp] theorem completeErr_pending (s : State) (e : Err) : (s.completeErr e).pending = none := rfl
@[simp] theorem completeErr_mem (s : State) (e : Err) : (s.completeErr e).mem = s.mem := rfl
@[simp] theorem completeErr_row (s : State) (e : Err) : (s.completeErr e).row = none := rfl
@[simp] theorem completeErr_draws (s : State) (e : Err) : (s.completeErr e).draws = s.draws := rfl
@[simp] theorem completeErr_env (s : State) (e : Err) : (s.completeErr e).env = s.env := rfl

/-! ### drawRange -/

@[simp] theorem drawRange_cfg (s : State) (r : AddrRange) : (s.drawRange r).cfg = s.cfg := rfl
@[simp] theorem drawRange_regs (s : State) (r : AddrRange) : (s.drawRange r).regs = s.regs := rfl
@[simp] theorem drawRange_pending (s : State) (r : AddrRange) : (s.drawRange r).pending = s.pending := rfl
@[simp] theorem drawRange_mem (s : State) (r : AddrRange) : (s.drawRange r).mem = s.mem.writeSeq r.base (freeBytes s.draws r.size) := rfl
@[simp] theorem drawRange_row (s : State) (r : AddrRange) : (s.drawRange r).row = s.row := rfl
@[simp] theorem drawRange_draws (s : State) (r : AddrRange) : (s.drawRange r).draws = s.draws + r.size := rfl
@[simp] theorem drawRange_env (s : State) (r : AddrRange) : (s.drawRange r).env = s.env := rfl

/-! ### drawDst -/

@[simp] theorem drawDst_cfg (s : State) (i : Instr) : (s.drawDst i).cfg = s.cfg := rfl
@[simp] theorem drawDst_regs (s : State) (i : Instr) : (s.drawDst i).regs = s.regs := rfl
@[simp] theorem drawDst_pending (s : State) (i : Instr) : (s.drawDst i).pending = s.pending := rfl
@[simp] theorem drawDst_mem (s : State) (i : Instr) : (s.drawDst i).mem =
    ((s.drawRange (below (clipped s.regs.dstWindow) (keptRange i s.regs))).drawRange
      (above (clipped s.regs.dstWindow) (keptRange i s.regs))).mem := rfl
@[simp] theorem drawDst_row (s : State) (i : Instr) : (s.drawDst i).row = s.row := rfl
@[simp] theorem drawDst_draws (s : State) (i : Instr) : (s.drawDst i).draws =
    s.draws + (below (clipped s.regs.dstWindow) (keptRange i s.regs)).size +
      (above (clipped s.regs.dstWindow) (keptRange i s.regs)).size := rfl
@[simp] theorem drawDst_env (s : State) (i : Instr) : (s.drawDst i).env = s.env := rfl

/-! ### accept -/

@[simp] theorem accept_cfg (s : State) (w : Word) : (s.accept w).cfg = s.cfg := rfl
@[simp] theorem accept_regs (s : State) (w : Word) : (s.accept w).regs = { s.regs with cmd := w, status := acceptedStatus } := rfl
@[simp] theorem accept_pending (s : State) (w : Word) : (s.accept w).pending = some w := rfl
@[simp] theorem accept_mem (s : State) (w : Word) : (s.accept w).mem = s.mem := rfl
@[simp] theorem accept_row (s : State) (w : Word) : (s.accept w).row = s.row := rfl
@[simp] theorem accept_draws (s : State) (w : Word) : (s.accept w).draws = s.draws := rfl
@[simp] theorem accept_env (s : State) (w : Word) : (s.accept w).env = { s.env with held := s.env.held ++ wordWindows w s.regs } := rfl

/-! ### setCalcCksum -/

@[simp] theorem setCalcCksum_cfg (s : State) (c : BitVec 16) : (s.setCalcCksum c).cfg = s.cfg := rfl
@[simp] theorem setCalcCksum_regs (s : State) (c : BitVec 16) : (s.setCalcCksum c).regs = { s.regs with calcCksum := c.setWidth 32 } := rfl
@[simp] theorem setCalcCksum_pending (s : State) (c : BitVec 16) : (s.setCalcCksum c).pending = s.pending := rfl
@[simp] theorem setCalcCksum_mem (s : State) (c : BitVec 16) : (s.setCalcCksum c).mem = s.mem := rfl
@[simp] theorem setCalcCksum_row (s : State) (c : BitVec 16) : (s.setCalcCksum c).row = s.row := rfl
@[simp] theorem setCalcCksum_draws (s : State) (c : BitVec 16) : (s.setCalcCksum c).draws = s.draws := rfl
@[simp] theorem setCalcCksum_env (s : State) (c : BitVec 16) : (s.setCalcCksum c).env = s.env := rfl

/-! ### setHdrValid -/

@[simp] theorem setHdrValid_cfg (s : State) (v : Word) : (s.setHdrValid v).cfg = s.cfg := rfl
@[simp] theorem setHdrValid_regs (s : State) (v : Word) : (s.setHdrValid v).regs = { s.regs with hdrValid := v } := rfl
@[simp] theorem setHdrValid_pending (s : State) (v : Word) : (s.setHdrValid v).pending = s.pending := rfl
@[simp] theorem setHdrValid_mem (s : State) (v : Word) : (s.setHdrValid v).mem = s.mem := rfl
@[simp] theorem setHdrValid_row (s : State) (v : Word) : (s.setHdrValid v).row = s.row := rfl
@[simp] theorem setHdrValid_draws (s : State) (v : Word) : (s.setHdrValid v).draws = s.draws := rfl
@[simp] theorem setHdrValid_env (s : State) (v : Word) : (s.setHdrValid v).env = s.env := rfl

/-! ### setTarget -/

@[simp] theorem setTarget_cfg (s : State) (df : PixFmt) : (s.setTarget df).cfg = s.cfg := rfl
@[simp] theorem setTarget_regs (s : State) (df : PixFmt) : (s.setTarget df).regs = { s.regs with fmt := setPixfmt s.regs.fmt df } := rfl
@[simp] theorem setTarget_pending (s : State) (df : PixFmt) : (s.setTarget df).pending = s.pending := rfl
@[simp] theorem setTarget_mem (s : State) (df : PixFmt) : (s.setTarget df).mem = s.mem := rfl
@[simp] theorem setTarget_row (s : State) (df : PixFmt) : (s.setTarget df).row = s.row := rfl
@[simp] theorem setTarget_draws (s : State) (df : PixFmt) : (s.setTarget df).draws = s.draws := rfl
@[simp] theorem setTarget_env (s : State) (df : PixFmt) : (s.setTarget df).env = s.env := rfl

/-! ### parseHeader -/

@[simp] theorem parseHeader_cfg (s : State) (h : List Byte) : (s.parseHeader h).cfg = s.cfg := rfl
@[simp] theorem parseHeader_pending (s : State) (h : List Byte) : (s.parseHeader h).pending = s.pending := rfl
@[simp] theorem parseHeader_mem (s : State) (h : List Byte) : (s.parseHeader h).mem = s.mem := rfl
@[simp] theorem parseHeader_row (s : State) (h : List Byte) : (s.parseHeader h).row = s.row := rfl
@[simp] theorem parseHeader_draws (s : State) (h : List Byte) : (s.parseHeader h).draws = s.draws := rfl
@[simp] theorem parseHeader_env (s : State) (h : List Byte) : (s.parseHeader h).env = s.env := rfl

/-! ### parsePoint -/

@[simp] theorem parsePoint_cfg (s : State) : s.parsePoint.cfg = s.cfg := rfl
@[simp] theorem parsePoint_regs (s : State) : s.parsePoint.regs = { s.regs with
    width := readLe32 s.srcHeader (offWidth s.cfg.layout)
    height := readLe32 s.srcHeader (offHeight s.cfg.layout)
    fmt := fmtWord (byteAt s.srcHeader (offComp s.cfg.layout)) (byteAt s.srcHeader (offPixfmt s.cfg.layout))
    hdrCksum := (readLe16 s.srcHeader (offCksum s.cfg.layout)).setWidth 32
    hdrPixoff := readLe32 s.srcHeader (offPixoff s.cfg.layout)
    calcCksum := s.srcCksum.setWidth 32
    hdrValid := validate s.cfg.layout s.srcHeader s.srcCksum } := rfl
@[simp] theorem parsePoint_pending (s : State) : s.parsePoint.pending = s.pending := rfl
@[simp] theorem parsePoint_mem (s : State) : s.parsePoint.mem = s.mem := rfl
@[simp] theorem parsePoint_row (s : State) : s.parsePoint.row = s.row := rfl
@[simp] theorem parsePoint_draws (s : State) : s.parsePoint.draws = s.draws := rfl
@[simp] theorem parsePoint_env (s : State) : s.parsePoint.env = s.env := rfl

/-! ### stamp -/

@[simp] theorem stamp_cfg (s : State) (n : Nat) : (s.stamp n).cfg = s.cfg := rfl
@[simp] theorem stamp_regs (s : State) (n : Nat) : (s.stamp n).regs = { s.regs with outCksum := (cksum (s.dstSeq 0 n) (offCksum s.cfg.layout)).setWidth 32 } := rfl
@[simp] theorem stamp_mem (s : State) (n : Nat) : (s.stamp n).mem =
    s.mem.writeSeq (s.regs.dstBase.toNat + offCksum s.cfg.layout)
      (le16 (cksum (s.dstSeq 0 n) (offCksum s.cfg.layout))) := rfl
@[simp] theorem stamp_pending (s : State) (n : Nat) : (s.stamp n).pending = s.pending := rfl
@[simp] theorem stamp_row (s : State) (n : Nat) : (s.stamp n).row = s.row := rfl
@[simp] theorem stamp_draws (s : State) (n : Nat) : (s.stamp n).draws = s.draws := rfl
@[simp] theorem stamp_env (s : State) (n : Nat) : (s.stamp n).env = s.env := rfl

/-! ### withInputs -/

@[simp] theorem withInputs_cfg (s : State) (l : List Input) : (s.withInputs l).cfg = s.cfg := rfl
@[simp] theorem withInputs_regs (s : State) (l : List Input) : (s.withInputs l).regs = s.regs := rfl
@[simp] theorem withInputs_pending (s : State) (l : List Input) : (s.withInputs l).pending = s.pending := rfl
@[simp] theorem withInputs_mem (s : State) (l : List Input) : (s.withInputs l).mem = s.mem := rfl
@[simp] theorem withInputs_row (s : State) (l : List Input) : (s.withInputs l).row = s.row := rfl
@[simp] theorem withInputs_draws (s : State) (l : List Input) : (s.withInputs l).draws = s.draws := rfl
@[simp] theorem withInputs_env (s : State) (l : List Input) : (s.withInputs l).env = { s.env with inputs := l } := rfl

/-! ### release -/

@[simp] theorem release_inputs (e : Env) : e.release.inputs = e.inputs := rfl
@[simp] theorem release_readData (e : Env) : e.release.readData = e.readData := rfl
@[simp] theorem release_hostBuf (e : Env) : e.release.hostBuf = e.hostBuf := rfl
@[simp] theorem release_hostSynced (e : Env) : e.release.hostSynced = (e.hostSynced && e.held.isEmpty) := rfl
@[simp] theorem release_held (e : Env) : e.release.held = [] := rfl
@[simp] theorem release_peers (e : Env) : e.release.peers = e.peers := rfl

/-! ### resetEvent -/

@[simp] theorem resetEvent_regs (s : State) : s.resetEvent.regs = Regs.zero := rfl
@[simp] theorem resetEvent_pending (s : State) : s.resetEvent.pending = none := rfl
@[simp] theorem resetEvent_row (s : State) : s.resetEvent.row = none := rfl
@[simp] theorem resetEvent_cfg (s : State) : s.resetEvent.cfg = s.interrupt.cfg := rfl
@[simp] theorem resetEvent_mem (s : State) : s.resetEvent.mem = s.interrupt.mem := rfl
@[simp] theorem resetEvent_draws (s : State) : s.resetEvent.draws = s.interrupt.draws := rfl
@[simp] theorem resetEvent_env (s : State) : s.resetEvent.env = s.interrupt.env.release := rfl

end Sys2Proof.Machine
end

