-- ==== Sys2Proof/Laws/Commands.lean ====
section
/-! SUPPORT. What a command's step can do, said once: the two ends of a command, its windows, its bodies. -/

namespace Sys2Proof.Machine

/-! ## Computations with errors -/

/-- A computation that answers has answered at each step. -/
theorem except_bind_ok {ε α β : Type} {x : Except ε α} {f : α → Except ε β} {b : β} :
    (x >>= f) = .ok b ↔ ∃ a, x = .ok a ∧ f a = .ok b := by
  cases x <;> simp [bind, Except.bind]

/-- A computation that raises has raised at one of its steps. -/
theorem except_bind_error {ε α β : Type} {x : Except ε α} {f : α → Except ε β} {e : ε} :
    (x >>= f) = .error e ↔ x = .error e ∨ ∃ a, x = .ok a ∧ f a = .error e := by
  cases x <;> simp [bind, Except.bind]

theorem check_ok {c : Bool} {e : Err} {u : Unit} : check c e = .ok u ↔ c = true := by
  cases c <;> simp [check]

theorem check_error {c : Bool} {e e' : Err} : check c e = .error e' ↔ c = false ∧ e' = e := by
  cases c <;> simp [check, eq_comm]

theorem raisedAt_ok {α : Type} {s : State} {x : Except Err α} {a : α} : raisedAt s x = .ok a ↔ x = .ok a := by
  cases x <;> simp [raisedAt]

theorem raisedAt_error {α : Type} {s t : State} {x : Except Err α} {e : Err} :
    raisedAt s x = .error (t, e) ↔ t = s ∧ x = .error e := by
  cases x <;> simp [raisedAt, eq_comm]

/-! ## Ranges and windows -/

theorem inRange_eq_true {r : AddrRange} {a : Nat} : inRange r a = true ↔ r.base ≤ a ∧ a < rangeEnd r := by
  simp [inRange]

theorem inRange_eq_false {r : AddrRange} {a : Nat} : inRange r a = false ↔ a < r.base ∨ rangeEnd r ≤ a := by
  rw [← Bool.not_eq_true, inRange_eq_true]
  omega

theorem overlap_eq_true {p q : AddrRange} :
    overlap p q = true ↔ 0 < p.size ∧ 0 < q.size ∧ p.base < rangeEnd q ∧ q.base < rangeEnd p := by
  simp [overlap, and_assoc]

/-- Ranges that do not overlap share no address. -/
theorem overlap_eq_false {p q : AddrRange} (h : overlap p q = false) {a : Nat} (ha : inRange p a = true) :
    inRange q a = false := by
  rw [← Bool.not_eq_true] at h ⊢
  rw [overlap_eq_true] at h
  rw [inRange_eq_true] at ha ⊢
  simp only [rangeEnd] at *
  omega

/-- The part of a range inside the address space: where it ends, and which addresses it holds. -/
theorem clipped_facts (r : AddrRange) (h : r.base < 4294967296) :
    rangeEnd (clipped r) ≤ 4294967296 ∧ (∀ a, inRange r a = false → inRange (clipped r) a = false) ∧
      ∀ a, a < 4294967296 → inRange r a = true → inRange (clipped r) a = true := by
  simp only [inRange_eq_false, inRange_eq_true, rangeEnd, clipped]
  exact ⟨by omega, fun a ha => by omega, fun a h1 h2 => by omega⟩

/-- The two parts of a range beside another: together they hold exactly its addresses outside the other, and each
ends where the range ends or before. -/
theorem below_above_facts (r k : AddrRange) :
    (∀ a, inRange r a = true → inRange k a = false → inRange (below r k) a = true ∨ inRange (above r k) a = true) ∧
    (∀ a, inRange r a = false ∨ inRange k a = true → inRange (below r k) a = false ∧ inRange (above r k) a = false) ∧
    rangeEnd (below r k) ≤ rangeEnd r ∧ rangeEnd (above r k) ≤ rangeEnd r := by
  simp only [inRange_eq_false, inRange_eq_true, rangeEnd, below, above]
  exact ⟨fun a h1 h2 => by omega, fun a h => by omega, by omega, by omega⟩

/-- CheckWindows passes exactly when no used window wraps and two used windows do not overlap. -/
theorem checkWindows_eq_none {i : Instr} {r : Regs} :
    checkWindows i r = none ↔
      (usesSrc i = true → rangeEnd r.srcWindow ≤ 4294967296) ∧
      (usesDst i = true → rangeEnd r.dstWindow ≤ 4294967296) ∧
      (usesSrc i = true → usesDst i = true → overlap r.srcWindow r.dstWindow = false) := by
  simp only [checkWindows, Bool.and_eq_true, decide_eq_true_eq]
  cases usesSrc i <;> cases usesDst i <;> simp
  split_ifs <;> simp_all

/-- CheckWindows raises CONFIG 1, 2 or 3. -/
theorem checkWindows_eq_some {i : Instr} {r : Regs} {e : Err} (h : checkWindows i r = some e) :
    e = .config 1 ∨ e = .config 2 ∨ e = .config 3 := by
  simp only [checkWindows] at h
  split_ifs at h <;> simp only [Option.some.injEq] at h
  · exact .inl h.symm
  · exact .inr (.inl h.symm)
  · exact .inr (.inr h.symm)

/-- CheckWindows reads the window registers only. -/
theorem checkWindows_congr {i : Instr} {r r' : Regs} (hs : r'.srcWindow = r.srcWindow)
    (hd : r'.dstWindow = r.dstWindow) : checkWindows i r' = checkWindows i r := by
  simp only [checkWindows, hs, hd]

/-- The refusal of R54 reads the parameters and the window registers only. -/
theorem windowRefusal_congr {i : Instr} {s s' : State} (hc : s'.cfg = s.cfg)
    (hs : s'.regs.srcWindow = s.regs.srcWindow) (hd : s'.regs.dstWindow = s.regs.dstWindow) :
    windowRefusal i s' = windowRefusal i s := by
  have h : windowsOf i s'.regs = windowsOf i s.regs := by simp only [windowsOf, hs, hd]
  simp only [windowRefusal, h, hc]

theorem windowsReady_iff {i : Instr} {s : State} :
    windowsReady i s = true ↔ windowRefusal i s = none ∧ checkWindows i s.regs = none := by
  simp [windowsReady]

/-! ## The ends of a command -/

@[simp] theorem raise_cfg (s : State) (i : Instr) (e : Err) : (s.raise i e).cfg = s.cfg := rfl
@[simp] theorem raise_regs (s : State) (i : Instr) (e : Err) :
    (s.raise i e).regs = { s.regs with outLen := 0, inPos := 0, status := doneStatus (some e) } := rfl
@[simp] theorem raise_pending (s : State) (i : Instr) (e : Err) : (s.raise i e).pending = none := rfl
@[simp] theorem raise_mem (s : State) (i : Instr) (e : Err) : (s.raise i e).mem = (s.drawDst i).mem := rfl
@[simp] theorem raise_row (s : State) (i : Instr) (e : Err) : (s.raise i e).row = none := rfl
@[simp] theorem raise_draws (s : State) (i : Instr) (e : Err) : (s.raise i e).draws = (s.drawDst i).draws := rfl
@[simp] theorem raise_env (s : State) (i : Instr) (e : Err) : (s.raise i e).env = s.env := rfl

/-- A draw stays inside its range. -/
theorem drawRange_read {s : State} {r : AddrRange} {a : Nat} (ha : inRange r a = false) :
    (s.drawRange r).mem.read a = s.mem.read a := by
  rw [inRange_eq_false] at ha
  exact Memory.read_writeSeq_outside (by simpa [rangeEnd] using ha)

theorem drawRange_wf {s : State} {r : AddrRange} (hm : s.mem.wf = true) : (s.drawRange r).mem.wf = true :=
  Memory.writeSeq_wf _ _ hm

theorem drawRange_inSpace {s : State} {r : AddrRange} (hm : s.mem.inSpace = true) (hr : rangeEnd r ≤ 4294967296) :
    (s.drawRange r).mem.inSpace = true :=
  Memory.writeSeq_inSpace hm (by simpa [rangeEnd] using hr)

/-- What the draws of several ranges change: memory inside those ranges, and the number of draws. -/
theorem drawRanges_facts (rs : List AddrRange) (s : State) :
    (rs.foldl State.drawRange s).cfg = s.cfg ∧ (rs.foldl State.drawRange s).env = s.env ∧
      (∀ a, (∀ r ∈ rs, inRange r a = false) → (rs.foldl State.drawRange s).mem.read a = s.mem.read a) ∧
      (s.mem.wf = true → (rs.foldl State.drawRange s).mem.wf = true) ∧
      (s.mem.inSpace = true → (∀ r ∈ rs, rangeEnd r ≤ 4294967296) →
        (rs.foldl State.drawRange s).mem.inSpace = true) := by
  induction rs generalizing s with
  | nil => simp
  | cons r rs ih =>
    obtain ⟨h1, h2, h3, h4, h5⟩ := ih (s.drawRange r)
    simp only [List.foldl_cons, List.forall_mem_cons]
    exact ⟨h1, h2, fun a ha => (h3 a ha.2).trans (drawRange_read ha.1), fun hm => h4 (drawRange_wf hm),
      fun hs hr => h5 (drawRange_inSpace hs hr.1) hr.2⟩

/-- Inside its range, a draw leaves the free values of its draws. -/
theorem drawRange_read_free {s : State} {r : AddrRange} {a : Nat} (ha : inRange r a = true) :
    (s.drawRange r).mem.read a = Config.freeByte (s.draws + (a - r.base)) := by
  rw [inRange_eq_true] at ha
  simp only [rangeEnd] at ha
  rw [drawRange_mem, Memory.read_writeSeq, if_pos (by simpa using ha), freeBytes_getD (by omega)]

theorem drawRanges_draws (rs : List AddrRange) (s : State) : s.draws ≤ (rs.foldl State.drawRange s).draws := by
  induction rs generalizing s with
  | nil => exact Nat.le_refl _
  | cons r rs ih => exact Nat.le_trans (Nat.le_add_right _ _) (ih (s.drawRange r))

/-- Inside one of the ranges, the draws of several ranges leave the free value of one of their draws. -/
theorem drawRanges_read_free {rs : List AddrRange} {s : State} {a : Nat} (ha : ∃ r ∈ rs, inRange r a = true) :
    ∃ k, s.draws ≤ k ∧ k < (rs.foldl State.drawRange s).draws ∧
      (rs.foldl State.drawRange s).mem.read a = Config.freeByte k := by
  induction rs generalizing s with
  | nil => simp at ha
  | cons r rs ih =>
    have hd := drawRanges_draws rs (s.drawRange r)
    rw [drawRange_draws] at hd
    by_cases hrs : ∃ r ∈ rs, inRange r a = true
    · obtain ⟨k, h1, h2, h3⟩ := ih (s := s.drawRange r) hrs
      rw [drawRange_draws] at h1
      exact ⟨k, by omega, h2, h3⟩
    · have hin : inRange r a = true := by
        obtain ⟨r', hr', hin⟩ := ha
        rcases List.mem_cons.1 hr' with rfl | hr'
        · exact hin
        · exact absurd ⟨r', hr', hin⟩ hrs
      have hb := inRange_eq_true.1 hin
      simp only [rangeEnd] at hb
      refine ⟨s.draws + (a - r.base), by omega, by rw [List.foldl_cons]; omega, ?_⟩
      rw [List.foldl_cons, (drawRanges_facts rs (s.drawRange r)).2.2.1 a fun x hx => ?_, drawRange_read_free hin]
      rw [← Bool.not_eq_true]
      exact fun h => hrs ⟨x, hx, h⟩

/-- The draws of an error past CheckWindows: inside the address space they take exactly the bytes of the destination
window that are not to be kept. -/
theorem drawDst_facts (s : State) (i : Instr) :
    (∀ a, a < 4294967296 → inRange s.regs.dstWindow a = true → inRange (keptRange i s.regs) a = false →
      ∃ k, s.draws ≤ k ∧ k < (s.drawDst i).draws ∧ (s.drawDst i).mem.read a = Config.freeByte k) ∧
    (∀ a, inRange s.regs.dstWindow a = false ∨ inRange (keptRange i s.regs) a = true →
      (s.drawDst i).mem.read a = s.mem.read a) ∧
    (s.mem.wf = true → (s.drawDst i).mem.wf = true) ∧ (s.mem.inSpace = true → (s.drawDst i).mem.inSpace = true) := by
  obtain ⟨c1, c2, c3⟩ := clipped_facts s.regs.dstWindow s.regs.dstBase.isLt
  obtain ⟨p1, p2, p3, p4⟩ := below_above_facts (clipped s.regs.dstWindow) (keptRange i s.regs)
  obtain ⟨-, -, f1, f2, f3⟩ := drawRanges_facts
    [below (clipped s.regs.dstWindow) (keptRange i s.regs), above (clipped s.regs.dstWindow) (keptRange i s.regs)] s
  simp only [List.forall_mem_cons, List.not_mem_nil, false_imp_iff, implies_true, and_true] at f1 f3
  refine ⟨fun a ha hd hk => drawRanges_read_free (rs := [_, _]) ?_, fun a ha => f1 a (p2 a (ha.imp_left (c2 a))), f2,
    fun hs => f3 hs ⟨Nat.le_trans p3 c1, Nat.le_trans p4 c1⟩⟩
  simpa using p1 a (c3 a ha hd) hk

/-- An error past CheckWindows leaves the destination window unspecified but for the command's source, and every
other byte alone. -/
theorem raise_dst (s : State) (i : Instr) (e : Err) : dstUnspecified i s (s.raise i e) := by
  obtain ⟨h1, h2, -⟩ := drawDst_facts s i
  refine ⟨fun a ha hd hk => h1 a ha hd ?_, fun a ha => h2 a (.inl ha), fun hu a ha => h2 a (.inr ?_)⟩
  · simp only [keptRange]
    split
    · exact hk ‹_›
    · exact inRange_eq_false.2 (by simp [rangeEnd])
  · simp only [keptRange, hu, if_true, ha]

theorem raise_wf {s : State} {i : Instr} {e : Err} (hm : s.mem.wf = true) : (s.raise i e).mem.wf = true :=
  (drawDst_facts s i).2.2.1 hm

theorem raise_inSpace {s : State} {i : Instr} {e : Err} (hs : s.mem.inSpace = true) :
    (s.raise i e).mem.inSpace = true :=
  (drawDst_facts s i).2.2.2 hs

/-- A command's step, from its outcome: which way it ended. -/
theorem runCommand_cases {i : Instr} {s t : State} {body : Except (State × Err) State}
    (h : runCommand i s body = .next t) :
    windowRefusal i s = none ∧
      ((∃ e, checkWindows i s.regs = some e ∧ t = s.completeErr e) ∨
        checkWindows i s.regs = none ∧
          ((∃ u, body = .ok u ∧ t = u.complete) ∨ ∃ u e, body = .error (u, e) ∧ t = u.raise i e)) := by
  simp only [runCommand] at h
  split at h
  · simp at h
  · rename_i hr
    refine ⟨hr, ?_⟩
    split at h
    · rename_i e he
      simp only [Host.Outcome.next.injEq] at h
      exact .inl ⟨e, he, h.symm⟩
    · rename_i hc
      refine .inr ⟨hc, ?_⟩
      split at h <;> simp only [Host.Outcome.next.injEq] at h
      · exact .inl ⟨_, rfl, h.symm⟩
      · exact .inr ⟨_, _, rfl, h.symm⟩

/-- A command whose windows are ready and whose body succeeds completes. -/
theorem runCommand_ok {i : Instr} {s u : State} {body : Except (State × Err) State}
    (hw : windowsReady i s = true) (hb : body = .ok u) : runCommand i s body = .next u.complete := by
  obtain ⟨h1, h2⟩ := windowsReady_iff.1 hw
  simp [runCommand, h1, h2, hb]

/-- A command whose windows are ready and whose body raises ends with that error. -/
theorem runCommand_error {i : Instr} {s u : State} {e : Err} {body : Except (State × Err) State}
    (hw : windowsReady i s = true) (hb : body = .error (u, e)) : runCommand i s body = .next (u.raise i e) := by
  obtain ⟨h1, h2⟩ := windowsReady_iff.1 hw
  simp [runCommand, h1, h2, hb]

/-- A command whose CheckWindows raises. -/
theorem runCommand_windows {i : Instr} {s : State} {e : Err} {body : Except (State × Err) State}
    (hr : windowRefusal i s = none) (hc : checkWindows i s.regs = some e) :
    runCommand i s body = .next (s.completeErr e) := by
  simp [runCommand, hr, hc]

/-- A command is refused only for its windows, and otherwise answers a next state. -/
theorem runCommand_next {i : Instr} {s : State} {body : Except (State × Err) State}
    (hr : windowRefusal i s = none) : ∃ t, runCommand i s body = .next t := by
  simp only [runCommand, hr]
  split
  · exact ⟨_, rfl⟩
  · split <;> exact ⟨_, rfl⟩

theorem runCommand_refused {i : Instr} {s : State} {r : Refusal} {body : Except (State × Err) State}
    (hr : windowRefusal i s = some r) : runCommand i s body = .refused r := by
  simp [runCommand, hr]

/-- The way `endsWithError` is shown: the body raises `e` at a state that keeps memory and the draws. -/
theorem endsWithError_of_raise {i : Instr} {s u : State} {e : Err} {body : Except (State × Err) State}
    (hx : exec i s = runCommand i s body) (hw : windowsReady i s = true)
    (hb : body = .error (u, e)) (hum : u.mem = s.mem) (huc : u.cfg = s.cfg) (hue : u.env = s.env)
    (hud : u.draws = s.draws) (hus : u.regs.srcWindow = s.regs.srcWindow)
    (hur : u.regs.dstWindow = s.regs.dstWindow) :
    endsWithError i s u.regs (doneStatus (some e)) := by
  refine ⟨u.raise i e, hx.trans (runCommand_error hw hb), rfl, rfl, rfl, huc, hue, ?_⟩
  have h := raise_dst u i e
  rwa [dstUnspecified, hud, hus, hur, hum] at h

/-! ## The bodies -/

theorem deliverBody_ok {s u : State} {x : Except Err (List Byte × Nat)} :
    deliverBody s x = .ok u ↔ ∃ out p, x = .ok (out, p) ∧ u = s.deliver out p := by
  rcases x with e | ⟨out, p⟩
  · simp [deliverBody]
  · constructor
    · intro h
      simp only [deliverBody, Except.ok.injEq] at h
      exact ⟨out, p, rfl, h.symm⟩
    · rintro ⟨out', p', h, rfl⟩
      simp only [Except.ok.injEq, Prod.mk.injEq] at h
      obtain ⟨rfl, rfl⟩ := h
      rfl

theorem deliverBody_error {s u : State} {e : Err} {x : Except Err (List Byte × Nat)} :
    deliverBody s x = .error (u, e) ↔ u = s ∧ x = .error e := by
  rcases x with e' | ⟨out, p⟩
  · simp only [deliverBody, Except.error.injEq, Prod.mk.injEq, eq_comm]
  · simp [deliverBody]

/-- Geometry answers the registers' width, height and format, all legal. -/
theorem geometry_ok {needH : Bool} {r : Regs} {w h : Nat} {f : PixFmt} :
    geometry needH r = .ok (w, h, f) ↔
      r.width ≠ 0 ∧ (needH = true → r.height ≠ 0) ∧ PixFmt.ofCode r.pixfmt = some f ∧
        w = r.width.toNat ∧ h = r.height.toNat := by
  simp only [geometry, formatOf]
  by_cases h1 : r.width = 0
  · simp [h1]
  · by_cases h2 : (needH && r.height == 0) = true
    · simp_all
    · rw [if_neg h1, if_neg h2]
      have h3 : needH = true → r.height ≠ 0 := by
        intro hn hh
        simp [hn, hh] at h2
      cases hf : PixFmt.ofCode r.pixfmt with
      | none => simp
      | some g =>
        simp only [Except.ok.injEq, Prod.mk.injEq, Option.some.injEq]
        constructor
        · rintro ⟨rfl, rfl, rfl⟩
          exact ⟨h1, h3, rfl, rfl, rfl⟩
        · rintro ⟨-, -, rfl, rfl, rfl⟩
          exact ⟨rfl, rfl, rfl⟩

/-- Geometry raises CONFIG 4, 5 or 6. -/
theorem geometry_error {needH : Bool} {r : Regs} {e : Err} :
    geometry needH r = .error e ↔
      (r.width = 0 ∧ e = .config 4) ∨ (r.width ≠ 0 ∧ needH = true ∧ r.height = 0 ∧ e = .config 5) ∨
        (r.width ≠ 0 ∧ (needH = true → r.height ≠ 0) ∧ PixFmt.ofCode r.pixfmt = none ∧ e = .config 6) := by
  simp only [geometry, formatOf]
  by_cases h1 : r.width = 0
  · rw [if_pos h1]
    simp only [Except.error.injEq, h1, ne_eq, not_true_eq_false, false_and, or_false, true_and]
    exact eq_comm
  · by_cases h2 : (needH && r.height == 0) = true
    · rw [if_neg h1, if_pos h2]
      simp only [Bool.and_eq_true, beq_iff_eq] at h2
      simp only [Except.error.injEq, h1, h2, ne_eq, not_true_eq_false, not_false_eq_true, false_and, false_or,
        or_false, true_and, forall_const]
      exact eq_comm
    · rw [if_neg h1, if_neg h2]
      have h3 : needH = true → r.height ≠ 0 := by
        intro hn hh
        simp [hn, hh] at h2
      cases hf : PixFmt.ofCode r.pixfmt with
      | none =>
        simp only [Except.error.injEq]
        constructor
        · intro he
          exact .inr (.inr ⟨h1, h3, trivial, he.symm⟩)
        · rintro (⟨h, -⟩ | ⟨-, hn, hh, -⟩ | ⟨-, -, -, rfl⟩)
          · exact absurd h h1
          · exact absurd hh (h3 hn)
          · rfl
      | some g =>
        simp only [reduceCtorEq, and_false, false_and, or_false, false_iff, not_or, not_and]
        exact ⟨fun h => absurd h h1, fun _ hn hh => absurd hh (h3 hn)⟩

end Sys2Proof.Machine
end

