-- ==== Sys2Proof/Laws/Rle.lean ====
section
/-! SUPPORT. What the row and image codecs compute: blocks, rows, lengths, errors. -/

namespace Sys2Proof.Machine

/-! ## Blocks -/

/-- The pixels' bytes a block stands for (30_encoding.md R81, R82). -/
def blockOut : Block → List Byte
  | .rep n px => (List.replicate n.toNat px).flatten
  | .lit _ px => px

/-- The bytes a list of blocks is written as. -/
def blockBytes (bs : List Block) : List Byte := (bs.map encodeBlock).flatten

/-- The bytes a list of blocks stands for. -/
def blocksOut (bs : List Block) : List Byte := (bs.map blockOut).flatten

theorem blockBytes_cons (b : Block) (bs : List Block) : blockBytes (b :: bs) = encodeBlock b ++ blockBytes bs := rfl

theorem blocksOut_cons (b : Block) (bs : List Block) : blocksOut (b :: bs) = blockOut b ++ blocksOut bs := rfl

theorem blockBytes_append (as bs : List Block) : blockBytes (as ++ bs) = blockBytes as ++ blockBytes bs := by
  simp [blockBytes]

theorem blocksOut_append (as bs : List Block) : blocksOut (as ++ bs) = blocksOut as ++ blocksOut bs := by
  simp [blocksOut]

theorem encodeBlock_length_pos (b : Block) : 0 < (encodeBlock b).length := by
  cases b <;> simp [encodeBlock]

/-- A block at the front of a stream is decoded, whatever follows. -/
theorem decodeBlock_encodeBlock {bpp : Nat} {b : Block} (h : b.wellFormedAt bpp = true) (rest : List Byte) :
    decodeBlock bpp (encodeBlock b ++ rest) = .ok (b, rest) := by
  cases b with
  | rep n px =>
    simp only [Block.wellFormedAt, Bool.and_eq_true, bne_iff_ne, beq_iff_eq] at h
    obtain ⟨hn, rfl⟩ := h
    simp only [encodeBlock, List.cons_append, decodeBlock]
    rw [if_pos hn, if_pos (by simp)]
    simp
  | lit m px =>
    simp only [Block.wellFormedAt, Bool.and_eq_true, bne_iff_ne, beq_iff_eq] at h
    obtain ⟨-, hl⟩ := h
    simp only [encodeBlock, List.cons_append, decodeBlock]
    rw [if_neg (by simp), if_pos (by simp [hl]), ← hl]
    simp

/-- A decoded block is the stream's first bytes. -/
theorem decodeBlock_ok {bpp : Nat} {bs rest : List Byte} {b : Block} (h : decodeBlock bpp bs = .ok (b, rest)) :
    bs = encodeBlock b ++ rest ∧
      ((∃ n px, b = .rep n px ∧ n ≠ 0 ∧ px.length = bpp) ∨ ∃ m px, b = .lit m px ∧ px.length = m.toNat * bpp) := by
  cases bs with
  | nil => simp [decodeBlock] at h
  | cons tag bs =>
    simp only [decodeBlock] at h
    by_cases ht : tag ≠ 0
    · rw [if_pos ht] at h
      by_cases hl : bpp ≤ bs.length
      · rw [if_pos hl] at h
        simp only [Except.ok.injEq, Prod.mk.injEq] at h
        obtain ⟨rfl, rfl⟩ := h
        exact ⟨by simp [encodeBlock], .inl ⟨_, _, rfl, ht, by simp [hl]⟩⟩
      · simp [hl] at h
    · rw [if_neg ht] at h
      simp only [ne_eq, not_not] at ht
      subst ht
      cases bs with
      | nil => simp at h
      | cons m bs =>
        simp only at h
        by_cases hl : m.toNat * bpp ≤ bs.length
        · rw [if_pos hl] at h
          simp only [Except.ok.injEq, Prod.mk.injEq] at h
          obtain ⟨rfl, rfl⟩ := h
          exact ⟨by simp [encodeBlock], .inr ⟨_, _, rfl, by simp [hl]⟩⟩
        · simp [hl] at h

/-- A block that cannot be read is CORRUPT 1, 2, 4 or 6. -/
theorem decodeBlock_error {bpp : Nat} {bs : List Byte} {e : DecodeError} (h : decodeBlock bpp bs = .error e) :
    e = .noBlock ∨ e = .repeatCutShort ∨ e = .literalCountMissing ∨ e = .literalCutShort := by
  unfold decodeBlock at h
  split at h
  · simp_all
  · split_ifs at h
    · simp_all
    · split at h
      · simp_all
      · split_ifs at h
        simp_all

/-! ## Rows -/

/-- What a block does to the decoder's locals. -/
theorem applyBlock_ok {b : Block} {r r' : RowCtx} (h : applyBlock b r = .ok r') :
    r' = { r with out := r.out ++ blockOut b, op := r.op + (blockOut b).length, cp := r.cp + (encodeBlock b).length } ∧
      r'.op ≤ r'.need := by
  cases b with
  | rep n px =>
    simp only [applyBlock, applyRepeat] at h
    split_ifs at h with hb
    simp only [Except.ok.injEq] at h
    subst h
    simp [blockOut, encodeBlock, hb]
    omega
  | lit m px =>
    simp only [applyBlock, applyLiteral] at h
    split_ifs at h with hm hb
    simp only [Except.ok.injEq] at h
    subst h
    simp [blockOut, encodeBlock, hb]
    omega

/-- A block that fits the row has its effect. -/
theorem applyBlock_fits {b : Block} {r : RowCtx} {bpp : Nat} (hb : b.wellFormedAt bpp = true)
    (hf : r.op + (blockOut b).length ≤ r.need) :
    applyBlock b r =
      .ok { r with out := r.out ++ blockOut b, op := r.op + (blockOut b).length, cp := r.cp + (encodeBlock b).length } := by
  cases b with
  | rep n px =>
    simp only [blockOut, List.length_flatten, List.map_replicate, List.sum_replicate, smul_eq_mul] at hf
    simp only [applyBlock, applyRepeat, if_pos hf]
    simp [blockOut, encodeBlock]
    omega
  | lit m px =>
    simp only [Block.wellFormedAt, Bool.and_eq_true, bne_iff_ne] at hb
    simp only [blockOut] at hf
    simp only [applyBlock, applyLiteral, if_neg hb.1, if_pos hf]
    simp [blockOut, encodeBlock]
    omega

/-- A block raises CORRUPT 3 or 5. -/
theorem applyBlock_error {b : Block} {r : RowCtx} {e : Err} (h : applyBlock b r = .error e) :
    e = .corrupt 3 ∨ e = .corrupt 5 := by
  cases b <;> simp only [applyBlock, applyRepeat, applyLiteral] at h <;> split_ifs at h <;>
    simp only [Except.error.injEq] at h
  · exact .inr h.symm
  · exact .inl h.symm
  · exact .inr h.symm

/-- The errors of a row: CORRUPT 1 to 6. -/
def rowErr (e : Err) : Prop := e.kind = .corrupt ∧ 1 ≤ e.detail.toNat ∧ e.detail.toNat ≤ 6

theorem fetchBlock_rowErr {r : RowCtx} {e : DecodeError} (h : fetchBlock r = .error e) : rowErr (decodeErr e) := by
  rcases decodeBlock_error h with rfl | rfl | rfl | rfl <;>
    exact ⟨rfl, by decide, by decide⟩

theorem applyBlock_rowErr {b : Block} {r : RowCtx} {e : Err} (h : applyBlock b r = .error e) : rowErr e := by
  rcases applyBlock_error h with rfl | rfl <;> exact ⟨rfl, by decide, by decide⟩

/-- The decoder's locals are in step: the output has as many bytes as the write cursor says. -/
theorem runRow_ok {n : Nat} {r r' : RowCtx} (h : runRow n r = .ok r') (ho : r.op = r.out.length) :
    r'.op = r'.out.length ∧ r'.need = r.need ∧ r'.c = r.c ∧ r'.bpp = r.bpp := by
  induction n generalizing r with
  | zero =>
    simp only [runRow, Except.ok.injEq] at h
    subst h
    exact ⟨ho, rfl, rfl, rfl⟩
  | succ n ih =>
    simp only [runRow] at h
    split_ifs at h
    · split at h
      · simp at h
      · split at h
        · simp at h
        · rename_i r1 h1
          obtain ⟨he, -⟩ := applyBlock_ok h1
          have := ih h (by subst he; simp [ho])
          subst he
          exact this
    · simp only [Except.ok.injEq] at h
      subst h
      exact ⟨ho, rfl, rfl, rfl⟩

theorem runRow_error {n : Nat} {r : RowCtx} {e : Err} (h : runRow n r = .error e) : rowErr e := by
  induction n generalizing r with
  | zero => simp [runRow] at h
  | succ n ih =>
    simp only [runRow] at h
    split_ifs at h
    split at h
    · rename_i e' he
      simp only [Except.error.injEq] at h
      exact h ▸ fetchBlock_rowErr he
    · split at h
      · rename_i e' he
        simp only [Except.error.injEq] at h
        exact h ▸ applyBlock_rowErr he
      · exact ih h

/-- A decoded row has exactly `W*bpp` bytes. -/
theorem decodeRow_length {c out : List Byte} {w bpp : Nat} (h : decodeRow c w bpp = .ok out) :
    out.length = w * bpp := by
  simp only [decodeRow] at h
  split at h
  · rename_i r hr
    obtain ⟨ho, hn, -, -⟩ := runRow_ok hr rfl
    simp only [endRow] at h
    split_ifs at h with he
    simp only [Except.ok.injEq] at h
    subst h
    rw [← ho, he, hn]
    rfl
  · simp at h

theorem decodeRow_error {c : List Byte} {w bpp : Nat} {e : Err} (h : decodeRow c w bpp = .error e) : rowErr e := by
  simp only [decodeRow] at h
  split at h
  · simp only [endRow] at h
    split_ifs at h
    simp only [Except.error.injEq] at h
    subst h
    exact ⟨rfl, by decide, by decide⟩
  · rename_i e' he
    simp only [Except.error.injEq] at h
    exact h ▸ runRow_error he

/-- One block at the cursor, when it fits. -/
theorem runRow_block {n : Nat} {r : RowCtx} {b : Block} {rest : List Byte} (hb : b.wellFormedAt r.bpp = true)
    (hc : r.c.drop r.cp = encodeBlock b ++ rest) (hf : r.op + (blockOut b).length ≤ r.need) :
    runRow (n + 1) r =
      runRow n { r with
        out := r.out ++ blockOut b
        op := r.op + (blockOut b).length
        cp := r.cp + (encodeBlock b).length } := by
  have hlt : r.cp < r.c.length := by
    have := congrArg List.length hc
    have hp := encodeBlock_length_pos b
    simp only [List.length_drop, List.length_append] at this
    omega
  simp only [runRow, if_pos hlt, fetchBlock, hc, decodeBlock_encodeBlock hb, applyBlock_fits hb hf]

/-- A stream of blocks that fits the row is read to its end. -/
theorem runRow_blocks {bs : List Block} {n : Nat} {r : RowCtx} (hb : ∀ b ∈ bs, b.wellFormedAt r.bpp = true)
    (hc : r.c.drop r.cp = blockBytes bs) (hcp : r.cp ≤ r.c.length) (hf : r.op + (blocksOut bs).length ≤ r.need)
    (hn : bs.length ≤ n) :
    ∃ r', runRow n r = .ok r' ∧ r'.out = r.out ++ blocksOut bs ∧ r'.op = r.op + (blocksOut bs).length ∧
      r'.need = r.need := by
  induction bs generalizing n r with
  | nil =>
    refine ⟨r, ?_, by simp [blocksOut], by simp [blocksOut], rfl⟩
    have hge : ¬r.cp < r.c.length := by
      have := congrArg List.length hc
      simp only [List.length_drop, blockBytes, List.map_nil, List.flatten_nil, List.length_nil] at this
      omega
    cases n with
    | zero => rfl
    | succ n => simp only [runRow, if_neg hge]
  | cons b bs ih =>
    cases n with
    | zero => simp at hn
    | succ n =>
      rw [blockBytes_cons] at hc
      rw [blocksOut_cons, List.length_append] at hf
      rw [runRow_block (hb b (by simp)) hc (by omega)]
      have hlen := congrArg List.length hc
      simp only [List.length_drop, List.length_append] at hlen
      obtain ⟨r', h1, h2, h3, h4⟩ := ih (n := n) (r := { r with
          out := r.out ++ blockOut b
          op := r.op + (blockOut b).length
          cp := r.cp + (encodeBlock b).length }) (fun b' hb' => hb b' (by simp [hb'])) (by
            simp only [← List.drop_drop, hc]
            simp) (by simp only; omega) (by simp only; omega) (by simpa using hn)
      refine ⟨r', h1, ?_, ?_, h4⟩
      · simp [h2, blocksOut_cons]
      · simp only [h3, blocksOut_cons, List.length_append]
        omega

theorem length_le_blockBytes (bs : List Block) : bs.length ≤ (blockBytes bs).length := by
  induction bs with
  | nil => simp
  | cons b bs ih =>
    have := encodeBlock_length_pos b
    rw [blockBytes_cons, List.length_append, List.length_cons]
    omega

/-- A stream of well-formed blocks that fills the row decodes to the bytes the blocks stand for. -/
theorem decodeRow_blocks {bs : List Block} {w bpp : Nat} (hb : ∀ b ∈ bs, b.wellFormedAt bpp = true)
    (hf : (blocksOut bs).length = w * bpp) : decodeRow (blockBytes bs) w bpp = .ok (blocksOut bs) := by
  obtain ⟨r, h1, h2, h3, h4⟩ := runRow_blocks (bs := bs) (n := (blockBytes bs).length)
    (r := startRow (blockBytes bs) w bpp) hb rfl (by simp [startRow]) (by simp [startRow, hf])
    (length_le_blockBytes bs)
  have h5 : r.op = r.need := by rw [h3, h4]; simp [startRow, hf]
  simp only [decodeRow, h1, endRow, if_pos h5, h2]
  simp [startRow]

/-! ## The encoder writes blocks -/

/-- The repeat blocks of a run. -/
theorem repeatChunks_blocks {bpp : Nat} {px : List Byte} (hp : px.length = bpp) {n r : Nat} (hr : r ≤ n) :
    ∃ bs : List Block, repeatChunks px n r = blockBytes bs ∧ (∀ b ∈ bs, b.wellFormedAt bpp = true) ∧
      blocksOut bs = (List.replicate r px).flatten ∧ (2 ≤ r → (blockBytes bs).length ≤ (bpp + 2) * r) ∧
      (blockBytes bs).length ≤ (bpp + 1) * r := by
  induction n generalizing r with
  | zero =>
    obtain rfl : r = 0 := by omega
    exact ⟨[], rfl, by simp, rfl, by simp, by simp [blockBytes]⟩
  | succ n ih =>
    by_cases h0 : r = 0
    · subst h0
      exact ⟨[], by simp [repeatChunks, blockBytes], by simp, rfl, by simp, by simp [blockBytes]⟩
    · obtain ⟨bs, h1, h2, h3, -, h5⟩ := ih (r := r - min 255 r) (by omega)
      have hk : (BitVec.ofNat 8 (min 255 r)).toNat = min 255 r := by
        rw [BitVec.toNat_ofNat]
        omega
      have hb : (blockBytes (.rep (BitVec.ofNat 8 (min 255 r)) px :: bs)).length ≤ (bpp + 1) * r := by
        rw [blockBytes_cons, List.length_append]
        simp only [encodeBlock, List.length_cons, hp]
        obtain ⟨k, hk'⟩ : ∃ k, r = min 255 r + k := ⟨r - min 255 r, by omega⟩
        have h6 : (bpp + 1) * r = (bpp + 1) * min 255 r + (bpp + 1) * (r - min 255 r) := by
          rw [← Nat.mul_add]
          congr 1
          omega
        have h7 : bpp + 1 ≤ (bpp + 1) * min 255 r := Nat.le_mul_of_pos_right _ (by omega)
        omega
      refine ⟨.rep (BitVec.ofNat 8 (min 255 r)) px :: bs, ?_, ?_, ?_, fun _ => ?_, hb⟩
      · simp only [repeatChunks, if_neg h0, blockBytes_cons, encodeBlock, h1]
      · intro b hb'
        rcases List.mem_cons.1 hb' with rfl | hb'
        · simp only [Block.wellFormedAt, Bool.and_eq_true, bne_iff_ne, beq_iff_eq, hp, and_true]
          intro hz
          rw [hz] at hk
          simp at hk
          omega
        · exact h2 b hb'
      · rw [blocksOut_cons, blockOut, hk, h3, ← List.flatten_append, List.replicate_append_replicate]
        congr 2
        omega
      · exact hb.trans (Nat.mul_le_mul_right _ (by omega))

/-- The literal blocks of a span. -/
theorem literalChunks_blocks {bpp n : Nat} {ps : List (List Byte)} (hp : ∀ p ∈ ps, p.length = bpp)
    (hn : ps.length ≤ n) :
    ∃ bs : List Block, literalChunks n ps = blockBytes bs ∧ (∀ b ∈ bs, b.wellFormedAt bpp = true) ∧
      blocksOut bs = ps.flatten ∧ (blockBytes bs).length ≤ (bpp + 2) * ps.length := by
  induction n generalizing ps with
  | zero =>
    obtain rfl : ps = [] := List.eq_nil_of_length_eq_zero (by omega)
    exact ⟨[], rfl, by simp, rfl, by simp [blockBytes]⟩
  | succ n ih =>
    by_cases h0 : ps.length = 0
    · obtain rfl : ps = [] := List.eq_nil_of_length_eq_zero h0
      exact ⟨[], rfl, by simp, rfl, by simp [blockBytes]⟩
    · obtain ⟨bs, h1, h2, h3, h4⟩ := ih (ps := ps.drop 255) (fun p h => hp p (List.mem_of_mem_drop h))
        (by rw [List.length_drop]; omega)
      have hk : (BitVec.ofNat 8 (min 255 ps.length)).toNat = min 255 ps.length := by
        rw [BitVec.toNat_ofNat]
        omega
      have hfl : (ps.take 255).flatten.length = min 255 ps.length * bpp := by
        have h6 : ∀ qs : List (List Byte), (∀ q ∈ qs, q.length = bpp) → qs.flatten.length = qs.length * bpp := by
          intro qs hq
          induction qs with
          | nil => simp
          | cons q qs ihq =>
            simp only [List.flatten_cons, List.length_append, hq q (by simp), List.length_cons,
              ihq fun x hx => hq x (by simp [hx])]
            ring
        rw [h6 _ fun p h => hp p (List.mem_of_mem_take h), List.length_take]
      refine ⟨.lit (BitVec.ofNat 8 (min 255 ps.length)) (ps.take 255).flatten :: bs, ?_, ?_, ?_, ?_⟩
      · simp only [literalChunks, if_neg h0, blockBytes_cons, encodeBlock, h1]
      · intro b hb'
        rcases List.mem_cons.1 hb' with rfl | hb'
        · simp only [Block.wellFormedAt, Bool.and_eq_true, bne_iff_ne, beq_iff_eq, hk, hfl, and_true]
          intro hz
          rw [hz] at hk
          simp at hk
          omega
        · exact h2 b hb'
      · rw [blocksOut_cons, blockOut, h3, ← List.flatten_append, List.take_append_drop]
      · rw [blockBytes_cons, List.length_append]
        simp only [encodeBlock, List.length_cons, hfl]
        rw [List.length_drop] at h4
        have h6 : (bpp + 2) * ps.length = (bpp + 2) * min 255 ps.length + (bpp + 2) * (ps.length - 255) := by
          rw [← Nat.mul_add, show min 255 ps.length + (ps.length - 255) = ps.length by omega]
        have h7 : (bpp + 2) * min 255 ps.length = min 255 ps.length * bpp + 2 * min 255 ps.length := by ring
        have h8 : 1 ≤ min 255 ps.length := by omega
        omega

theorem runLen_le (ps : List (List Byte)) : runLen ps ≤ ps.length := by
  cases ps with
  | nil => rfl
  | cons p ps =>
    simp only [runLen, List.length_cons]
    have := (List.takeWhile_prefix (fun q => q == p) (l := ps)).length_le
    omega

/-- The pixels of a run are the first one repeated. -/
theorem take_runLen (p : List Byte) (ps : List (List Byte)) :
    (p :: ps).take (runLen (p :: ps)) = List.replicate (runLen (p :: ps)) p := by
  simp only [runLen, Nat.add_comm 1, List.take_succ_cons, List.replicate_succ, List.cons.injEq, true_and]
  induction ps with
  | nil => simp
  | cons q ps ih =>
    by_cases hq : q = p
    · subst hq
      simp [ih, List.replicate_succ]
    · simp [hq]

theorem literalSpan_le (ps : List (List Byte)) : literalSpan ps ≤ ps.length := by
  induction ps with
  | nil => simp [literalSpan]
  | cons p ps ih =>
    simp only [literalSpan, List.length_cons]
    split <;> omega

/-- The encoder's output is a stream of well-formed blocks that stand for the pixels. -/
theorem encodePixels_blocks {bpp n : Nat} {ps : List (List Byte)} (hp : ∀ p ∈ ps, p.length = bpp)
    (hn : ps.length ≤ n) :
    ∃ bs : List Block, encodePixels n ps = blockBytes bs ∧ (∀ b ∈ bs, b.wellFormedAt bpp = true) ∧
      blocksOut bs = ps.flatten ∧ (blockBytes bs).length ≤ (bpp + 2) * ps.length := by
  induction n generalizing ps with
  | zero =>
    obtain rfl : ps = [] := List.eq_nil_of_length_eq_zero (by omega)
    exact ⟨[], rfl, by simp, rfl, by simp [blockBytes]⟩
  | succ n ih =>
    cases ps with
    | nil => exact ⟨[], rfl, by simp, rfl, by simp [blockBytes]⟩
    | cons p ps =>
      have key : ∀ k, 1 ≤ k → k ≤ (p :: ps).length → ∀ as : List Block,
          (∀ b ∈ as, b.wellFormedAt bpp = true) → blocksOut as = ((p :: ps).take k).flatten →
          (blockBytes as).length ≤ (bpp + 2) * k →
          ∃ bs : List Block, blockBytes as ++ encodePixels n ((p :: ps).drop k) = blockBytes bs ∧
            (∀ b ∈ bs, b.wellFormedAt bpp = true) ∧ blocksOut bs = (p :: ps).flatten ∧
            (blockBytes bs).length ≤ (bpp + 2) * (p :: ps).length := by
        intro k h1 hk as ha1 ha2 ha3
        obtain ⟨bs, hb1, hb2, hb3, hb4⟩ := ih (ps := (p :: ps).drop k) (fun q hq => hp q (List.mem_of_mem_drop hq))
          (by rw [List.length_drop]; omega)
        refine ⟨as ++ bs, by rw [blockBytes_append, hb1], ?_, ?_, ?_⟩
        · intro b hb
          rcases List.mem_append.1 hb with hb | hb
          · exact ha1 b hb
          · exact hb2 b hb
        · rw [blocksOut_append, ha2, hb3, ← List.flatten_append, List.take_append_drop]
        · rw [blockBytes_append, List.length_append]
          rw [List.length_drop] at hb4
          have : (bpp + 2) * (p :: ps).length = (bpp + 2) * k + (bpp + 2) * ((p :: ps).length - k) := by
            rw [← Nat.mul_add]
            congr 1
            omega
          omega
      simp only [encodePixels]
      by_cases hr : 2 ≤ runLen (p :: ps)
      · rw [if_pos hr]
        obtain ⟨as, h1, h2, h3, h4, -⟩ := repeatChunks_blocks (bpp := bpp) (px := p) (hp p (by simp))
          (n := runLen (p :: ps)) (le_refl _)
        rw [h1]
        exact key _ (by omega) (runLen_le _) as h2 (by rw [h3, take_runLen]) (h4 hr)
      · rw [if_neg hr]
        have hl : (( p :: ps).take (literalSpan (p :: ps))).length = literalSpan (p :: ps) := by
          rw [List.length_take]
          have := literalSpan_le (p :: ps)
          omega
        obtain ⟨as, h1, h2, h3, h4⟩ := literalChunks_blocks (bpp := bpp) (n := literalSpan (p :: ps))
          (ps := (p :: ps).take (literalSpan (p :: ps))) (fun q hq => hp q (List.mem_of_mem_take hq)) (by omega)
        rw [h1]
        refine key _ ?_ (literalSpan_le _) as h2 h3 (by rw [hl] at h4; exact h4)
        simp only [literalSpan, if_pos (show runLen (p :: ps) < 2 by omega)]
        omega

theorem pixels_length (bpp n : Nat) (bs : List Byte) : (pixels bpp n bs).length = n := by
  induction n generalizing bs with
  | zero => rfl
  | succ n ih => simp [pixels, ih]

theorem pixels_mem {bpp n : Nat} {bs p : List Byte} (hl : bs.length = n * bpp) (h : p ∈ pixels bpp n bs) :
    p.length = bpp := by
  induction n generalizing bs with
  | zero => simp [pixels] at h
  | succ n ih =>
    simp only [pixels, List.mem_cons] at h
    rw [Nat.succ_mul] at hl
    rcases h with rfl | h
    · rw [List.length_take]
      omega
    · exact ih (by rw [List.length_drop]; omega) h

theorem pixels_flatten {bpp n : Nat} {bs : List Byte} (hl : bs.length = n * bpp) :
    (pixels bpp n bs).flatten = bs := by
  induction n generalizing bs with
  | zero =>
    simp only [Nat.zero_mul, List.length_eq_zero_iff] at hl
    simp [pixels, hl]
  | succ n ih =>
    rw [Nat.succ_mul] at hl
    simp only [pixels, List.flatten_cons]
    rw [ih (by rw [List.length_drop]; omega), List.take_append_drop]

/-- An encoded row is a stream of well-formed blocks that stand for the row. -/
theorem encodeRow_blocks {row : List Byte} {w bpp : Nat} (hl : row.length = w * bpp) :
    ∃ bs : List Block, encodeRow row w bpp = blockBytes bs ∧ (∀ b ∈ bs, b.wellFormedAt bpp = true) ∧
      blocksOut bs = row ∧ (blockBytes bs).length ≤ (bpp + 2) * w := by
  obtain ⟨bs, h1, h2, h3, h4⟩ := encodePixels_blocks (n := w) (fun p hp => pixels_mem hl hp)
    (by rw [pixels_length])
  exact ⟨bs, h1, h2, by rw [h3, pixels_flatten hl], by rw [pixels_length] at h4; exact h4⟩

/-! ## Images -/

theorem decodeImage_length {w bpp h : Nat} {s pix : List Byte} {p : Nat}
    (hd : decodeImage w bpp h s = .ok (pix, p)) : pix.length = h * (w * bpp) ∧ p ≤ s.length := by
  induction h generalizing s pix p with
  | zero =>
    simp only [decodeImage, Except.ok.injEq, Prod.mk.injEq] at hd
    obtain ⟨rfl, rfl⟩ := hd
    simp
  | succ h ih =>
    simp only [decodeImage] at hd
    split_ifs at hd with h1 h2
    split at hd
    · simp at hd
    · rename_i row hr
      split at hd
      · simp at hd
      · rename_i pix' p' hi
        simp only [Except.ok.injEq, Prod.mk.injEq] at hd
        obtain ⟨rfl, rfl⟩ := hd
        obtain ⟨h3, h4⟩ := ih hi
        simp only [List.length_append, decodeRow_length hr, h3, Nat.succ_mul, List.length_drop] at h4 h2 ⊢
        omega

/-- DecodeImage raises TRUNCATED 3 or 4, or a row's error. -/
theorem decodeImage_error {w bpp h : Nat} {s : List Byte} {e : Err} (hd : decodeImage w bpp h s = .error e) :
    e = .truncated 3 ∨ e = .truncated 4 ∨ rowErr e := by
  induction h generalizing s with
  | zero => simp [decodeImage] at hd
  | succ h ih =>
    simp only [decodeImage] at hd
    split_ifs at hd
    · simp only [Except.error.injEq] at hd
      exact .inl hd.symm
    · simp only [Except.error.injEq] at hd
      exact .inr (.inl hd.symm)
    · split at hd
      · rename_i e' he
        simp only [Except.error.injEq] at hd
        exact .inr (.inr (hd ▸ decodeRow_error he))
      · split at hd
        · rename_i e' he
          simp only [Except.error.injEq] at hd
          subst hd
          exact ih he
        · simp at hd

theorem encodeImage_error {w bpp h : Nat} {pix : List Byte} {e : Err} (he : encodeImage w bpp h pix = .error e) :
    e = .rowTooLong := by
  induction h generalizing pix with
  | zero => simp [encodeImage] at he
  | succ h ih =>
    simp only [encodeImage] at he
    split_ifs at he
    · split at he
      · simp at he
      · rename_i e' h'
        simp only [Except.error.injEq] at he
        subst he
        exact ih h'
    · simp only [Except.error.injEq] at he
      exact he.symm

/-! ## Pixels -/

theorem rgbToGray_length {n : Nat} {pix : List Byte} (h : pix.length = 3 * n) : (rgbToGray pix).length = n := by
  induction n generalizing pix with
  | zero =>
    obtain rfl : pix = [] := List.eq_nil_of_length_eq_zero (by omega)
    rfl
  | succ n ih =>
    match pix, h with
    | r :: g :: b :: rest, h =>
      simp only [List.length_cons] at h
      simp only [rgbToGray, List.length_cons, ih (pix := rest) (by omega)]

theorem grayToRgb_length (pix : List Byte) : (grayToRgb pix).length = 3 * pix.length := by
  induction pix with
  | nil => rfl
  | cons v rest ih =>
    simp only [grayToRgb, List.length_cons, ih]
    omega

/-- `n` pixels of one format convert to `n` pixels of the other. -/
theorem convert_length {n : Nat} {pix : List Byte} {sf df : PixFmt} (h : pix.length = n * sf.bpp) :
    (convert pix sf df).length = n * df.bpp := by
  cases sf <;> cases df <;> simp only [PixFmt.bpp, convert] at h ⊢
  · exact h
  · rw [rgbToGray_length (n := n) (by omega)]
    omega
  · rw [grayToRgb_length]
    omega
  · exact h

/-- The gray value fits a byte. -/
theorem luma_le (r g b : Byte) : luma r g b ≤ 255 := by
  have := r.isLt
  have := g.isLt
  have := b.isLt
  simp only [luma]
  omega

end Sys2Proof.Machine
end

