-- ==== Sys2Proof/Laws/Results.lean ====
section
/-! SUPPORT. What each command computes, said once per command: when it succeeds and with what, and which
errors it raises. -/

namespace Sys2Proof.Machine

/-! ## The codec commands -/

theorem rowEncResult_ok {s : State} {out : List Byte} {p : Nat} :
    rowEncResult s = .ok (out, p) ↔ ∃ f, s.regs.width ≠ 0 ∧ PixFmt.ofCode s.regs.pixfmt = some f ∧
      s.regs.width.toNat * f.bpp ≤ s.regs.srcLen.toNat ∧
      out = encodeRow (s.srcSeq 0 (s.regs.width.toNat * f.bpp)) s.regs.width.toNat f.bpp ∧
      out.length ≤ s.regs.dstCap.toNat ∧ p = s.regs.width.toNat * f.bpp := by
  simp only [rowEncResult, except_bind_ok, Prod.exists, geometry_ok, check_ok, decide_eq_true_eq]
  constructor
  · rintro ⟨w, h, f, ⟨h1, -, h3, rfl, rfl⟩, -, h4, -, h5, h6⟩
    simp only [pure, Except.pure, Except.ok.injEq, Prod.mk.injEq] at h6
    obtain ⟨rfl, rfl⟩ := h6
    exact ⟨f, h1, h3, h4, rfl, h5, rfl⟩
  · rintro ⟨f, h1, h3, h4, rfl, h5, rfl⟩
    exact ⟨_, _, f, ⟨h1, by simp, h3, rfl, rfl⟩, (), h4, (), h5, rfl⟩

theorem rowDecResult_ok {s : State} {out : List Byte} {p : Nat} :
    rowDecResult s = .ok (out, p) ↔ ∃ f, s.regs.width ≠ 0 ∧ PixFmt.ofCode s.regs.pixfmt = some f ∧
      s.regs.width.toNat * f.bpp ≤ s.regs.dstCap.toNat ∧
      decodeRow (s.srcSeq 0 s.regs.srcLen.toNat) s.regs.width.toNat f.bpp = .ok out ∧ p = s.regs.srcLen.toNat := by
  simp only [rowDecResult, except_bind_ok, Prod.exists, geometry_ok, check_ok, decide_eq_true_eq]
  constructor
  · rintro ⟨w, h, f, ⟨h1, -, h3, rfl, rfl⟩, -, h4, row, h5, h6⟩
    simp only [pure, Except.pure, Except.ok.injEq, Prod.mk.injEq] at h6
    obtain ⟨rfl, rfl⟩ := h6
    exact ⟨f, h1, h3, h4, h5, rfl⟩
  · rintro ⟨f, h1, h3, h4, h5, rfl⟩
    exact ⟨_, _, f, ⟨h1, by simp, h3, rfl, rfl⟩, (), h4, out, h5, rfl⟩

theorem imgEncResult_ok {s : State} {out : List Byte} {p : Nat} :
    imgEncResult s = .ok (out, p) ↔ ∃ f, s.regs.width ≠ 0 ∧ s.regs.height ≠ 0 ∧ PixFmt.ofCode s.regs.pixfmt = some f ∧
      s.regs.width.toNat * s.regs.height.toNat * f.bpp ≤ s.regs.srcLen.toNat ∧
      encodeImage s.regs.width.toNat f.bpp s.regs.height.toNat
        (s.srcSeq 0 (s.regs.width.toNat * s.regs.height.toNat * f.bpp)) = .ok out ∧
      out.length ≤ s.regs.dstCap.toNat ∧ p = s.regs.width.toNat * s.regs.height.toNat * f.bpp := by
  simp only [imgEncResult, except_bind_ok, Prod.exists, geometry_ok, check_ok, decide_eq_true_eq]
  constructor
  · rintro ⟨w, h, f, ⟨h1, h2, h3, rfl, rfl⟩, -, h4, b, h5, -, h6, h7⟩
    simp only [pure, Except.pure, Except.ok.injEq, Prod.mk.injEq] at h7
    obtain ⟨rfl, rfl⟩ := h7
    exact ⟨f, h1, h2 trivial, h3, h4, h5, h6, rfl⟩
  · rintro ⟨f, h1, h2, h3, h4, h5, h6, rfl⟩
    exact ⟨_, _, f, ⟨h1, fun _ => h2, h3, rfl, rfl⟩, (), h4, out, h5, (), h6, rfl⟩

theorem imgDecResult_ok {s : State} {out : List Byte} {p : Nat} :
    imgDecResult s = .ok (out, p) ↔ ∃ f, s.regs.width ≠ 0 ∧ s.regs.height ≠ 0 ∧ PixFmt.ofCode s.regs.pixfmt = some f ∧
      s.regs.width.toNat * s.regs.height.toNat * f.bpp ≤ s.regs.dstCap.toNat ∧
      decodeImage s.regs.width.toNat f.bpp s.regs.height.toNat (s.srcSeq 0 s.regs.srcLen.toNat) = .ok (out, p) := by
  simp only [imgDecResult, except_bind_ok, Prod.exists, geometry_ok, check_ok, decide_eq_true_eq]
  constructor
  · rintro ⟨w, h, f, ⟨h1, h2, h3, rfl, rfl⟩, -, h4, h5⟩
    exact ⟨f, h1, h2 trivial, h3, h4, h5⟩
  · rintro ⟨f, h1, h2, h3, h4, h5⟩
    exact ⟨_, _, f, ⟨h1, fun _ => h2, h3, rfl, rfl⟩, (), h4, h5⟩

theorem cvtResult_ok {df : PixFmt} {s : State} {out : List Byte} {p : Nat} :
    cvtResult df s = .ok (out, p) ↔ ∃ sf, s.regs.width ≠ 0 ∧ s.regs.height ≠ 0 ∧
      PixFmt.ofCode s.regs.pixfmt = some sf ∧
      s.regs.width.toNat * s.regs.height.toNat * sf.bpp ≤ s.regs.srcLen.toNat ∧
      s.regs.width.toNat * s.regs.height.toNat * df.bpp ≤ s.regs.dstCap.toNat ∧
      out = convert (s.srcSeq 0 (s.regs.width.toNat * s.regs.height.toNat * sf.bpp)) sf df ∧
      p = s.regs.width.toNat * s.regs.height.toNat * sf.bpp := by
  simp only [cvtResult, except_bind_ok, Prod.exists, geometry_ok, check_ok, decide_eq_true_eq]
  constructor
  · rintro ⟨w, h, f, ⟨h1, h2, h3, rfl, rfl⟩, -, h4, -, h5, h6⟩
    simp only [pure, Except.pure, Except.ok.injEq, Prod.mk.injEq] at h6
    obtain ⟨rfl, rfl⟩ := h6
    exact ⟨f, h1, h2 trivial, h3, h4, h5, rfl, rfl⟩
  · rintro ⟨f, h1, h2, h3, h4, h5, rfl, rfl⟩
    exact ⟨_, _, f, ⟨h1, fun _ => h2, h3, rfl, rfl⟩, (), h4, (), h5, rfl⟩

/-! ## The errors a command raises are listed -/

theorem rowErr.listed {e : Err} (h : rowErr e) : listedErr e = true := by
  obtain ⟨h1, h2, h3⟩ := h
  simp [listedErr, h1, h2, h3]

theorem listed_geometry {needH : Bool} {r : Regs} {e : Err} (h : geometry needH r = .error e) :
    listedErr e = true := by
  rcases geometry_error.1 h with ⟨-, rfl⟩ | ⟨-, -, -, rfl⟩ | ⟨-, -, -, rfl⟩ <;> rfl

theorem listed_decodeImage {w bpp h : Nat} {s : List Byte} {e : Err} (hd : decodeImage w bpp h s = .error e) :
    listedErr e = true := by
  rcases decodeImage_error hd with rfl | rfl | h
  · rfl
  · rfl
  · exact h.listed

theorem listed_rowEnc {s : State} {e : Err} (h : rowEncResult s = .error e) : listedErr e = true := by
  simp only [rowEncResult, except_bind_error, Prod.exists, check_error, pure, Except.pure, reduceCtorEq,
    and_false, or_false, exists_false] at h
  rcases h with h | ⟨w, hh, f, -, ⟨-, rfl⟩ | ⟨-, -, -, rfl⟩⟩
  · exact listed_geometry h
  · rfl
  · rfl

theorem listed_rowDec {s : State} {e : Err} (h : rowDecResult s = .error e) : listedErr e = true := by
  simp only [rowDecResult, except_bind_error, Prod.exists, check_error, pure, Except.pure, reduceCtorEq,
    and_false, or_false, exists_false] at h
  rcases h with h | ⟨w, hh, f, -, ⟨-, rfl⟩ | ⟨-, -, h⟩⟩
  · exact listed_geometry h
  · rfl
  · exact (decodeRow_error h).listed

theorem listed_imgEnc {s : State} {e : Err} (h : imgEncResult s = .error e) : listedErr e = true := by
  simp only [imgEncResult, except_bind_error, Prod.exists, check_error, pure, Except.pure, reduceCtorEq,
    and_false, or_false, exists_false] at h
  rcases h with h | ⟨w, hh, f, -, ⟨-, rfl⟩ | ⟨-, -, h | ⟨-, -, -, rfl⟩⟩⟩
  · exact listed_geometry h
  · rfl
  · rw [encodeImage_error h]; rfl
  · rfl

theorem listed_imgDec {s : State} {e : Err} (h : imgDecResult s = .error e) : listedErr e = true := by
  simp only [imgDecResult, except_bind_error, Prod.exists, check_error] at h
  rcases h with h | ⟨w, hh, f, -, ⟨-, rfl⟩ | ⟨-, -, h⟩⟩
  · exact listed_geometry h
  · rfl
  · exact listed_decodeImage h

theorem listed_cvt {df : PixFmt} {s : State} {e : Err} (h : cvtResult df s = .error e) : listedErr e = true := by
  simp only [cvtResult, except_bind_error, Prod.exists, check_error, pure, Except.pure, reduceCtorEq,
    and_false, or_false, exists_false] at h
  rcases h with h | ⟨w, hh, f, -, ⟨-, rfl⟩ | ⟨-, -, -, rfl⟩⟩
  · exact listed_geometry h
  · rfl
  · rfl

/-! ## The file-level commands -/

/-- The body the three file-level commands share: FileFront, ReadBody, a change of the pixels, WriteBody,
FileBack. -/
def fileBody (s : State) (f2 : FileInfo → PixFmt) (c2 : FileInfo → Byte) (chg : FileInfo → List Byte → List Byte) :
    Except (State × Err) State := do
  let (t, i) ← fileFront s
  let (pix, consumed) ← raisedAt t (readBody t i)
  let body ← raisedAt t (writeBody (chg i pix) i.w i.h (f2 i) (c2 i))
  raisedAt t (fileBack t (f2 i) (c2 i) i.w i.h body consumed)

theorem execFileCompress_eq (s : State) : execFileCompress s =
    runCommand .fileCompress s (fileBody s (fun i => i.f) (fun _ => 1) fun _ p => p) := rfl

theorem execFileDecompress_eq (s : State) : execFileDecompress s =
    runCommand .fileDecompress s (fileBody s (fun i => i.f) (fun _ => 0) fun _ p => p) := rfl

theorem execFileConvert_eq (df : PixFmt) (s : State) : execFileConvert df s =
    runCommand (.fileConvert df) s (fileBody s (fun _ => df) (fun i => i.c) fun i p => convert p i.f df) := rfl

/-- ReadBody reads the parameters, the source window's registers and memory only. -/
theorem readBody_parsePoint (s : State) (i : FileInfo) : readBody s.parsePoint i = readBody s i := rfl

theorem fileFront_ok {s t : State} {i : FileInfo} :
    fileFront s = .ok (t, i) ↔ hdrSize s.cfg.layout ≤ s.regs.srcLen.toNat ∧
      failedChecks (validate s.cfg.layout s.srcHeader s.srcCksum) = 0 ∧ t = s.parsePoint ∧ i = s.fileInfo := by
  simp only [fileFront]
  split_ifs with h1 h2
  · simp [h1, h2, eq_comm]
  · simp only [reduceCtorEq, false_iff, not_and]
    exact fun _ h => absurd h h2
  · simp [h1]

theorem fileFront_error {s t : State} {e : Err} :
    fileFront s = .error (t, e) ↔
      (s.regs.srcLen.toNat < hdrSize s.cfg.layout ∧ t = s ∧ e = .truncated 1) ∨
      (hdrSize s.cfg.layout ≤ s.regs.srcLen.toNat ∧
        failedChecks (validate s.cfg.layout s.srcHeader s.srcCksum) ≠ 0 ∧ t = s.parsePoint ∧
        e = .invalidFile (failedChecks (validate s.cfg.layout s.srcHeader s.srcCksum))) := by
  simp only [fileFront]
  split_ifs with h1 h2
  · simp [h2, show ¬s.regs.srcLen.toNat < hdrSize s.cfg.layout by omega]
  · simp only [Except.error.injEq, Prod.mk.injEq, h1, h2, show ¬s.regs.srcLen.toNat < hdrSize s.cfg.layout by omega,
      ne_eq, not_false_eq_true, true_and, false_and, false_or, @eq_comm _ t, @eq_comm _ e]
  · simp [h1, show s.regs.srcLen.toNat < hdrSize s.cfg.layout by omega, eq_comm]

/-- A file-level body succeeds with this state. -/
theorem fileBody_ok {s u : State} {f2 : FileInfo → PixFmt} {c2 : FileInfo → Byte}
    {chg : FileInfo → List Byte → List Byte} :
    fileBody s f2 c2 chg = .ok u ↔ ∃ pix consumed body,
      hdrSize s.cfg.layout ≤ s.regs.srcLen.toNat ∧
      failedChecks (validate s.cfg.layout s.srcHeader s.srcCksum) = 0 ∧
      readBody s s.fileInfo = .ok (pix, consumed) ∧
      writeBody (chg s.fileInfo pix) s.fileInfo.w s.fileInfo.h (f2 s.fileInfo) (c2 s.fileInfo) = .ok body ∧
      fileBack s.parsePoint (f2 s.fileInfo) (c2 s.fileInfo) s.fileInfo.w s.fileInfo.h body consumed = .ok u := by
  simp only [fileBody, except_bind_ok, Prod.exists, fileFront_ok, raisedAt_ok]
  constructor
  · rintro ⟨t, i, ⟨h1, h2, rfl, rfl⟩, pix, consumed, h3, body, h4, h5⟩
    exact ⟨pix, consumed, body, h1, h2, h3, h4, h5⟩
  · rintro ⟨pix, consumed, body, h1, h2, h3, h4, h5⟩
    exact ⟨_, _, ⟨h1, h2, rfl, rfl⟩, pix, consumed, h3, body, h4, h5⟩

/-- A file-level body raises at the start, or past the parse point. -/
theorem fileBody_error {s u : State} {e : Err} {f2 : FileInfo → PixFmt} {c2 : FileInfo → Byte}
    {chg : FileInfo → List Byte → List Byte} :
    fileBody s f2 c2 chg = .error (u, e) ↔
      fileFront s = .error (u, e) ∨
      hdrSize s.cfg.layout ≤ s.regs.srcLen.toNat ∧
      failedChecks (validate s.cfg.layout s.srcHeader s.srcCksum) = 0 ∧ u = s.parsePoint ∧
      (readBody s s.fileInfo = .error e ∨ ∃ pix consumed, readBody s s.fileInfo = .ok (pix, consumed) ∧
        (writeBody (chg s.fileInfo pix) s.fileInfo.w s.fileInfo.h (f2 s.fileInfo) (c2 s.fileInfo) = .error e ∨
        ∃ body,
          writeBody (chg s.fileInfo pix) s.fileInfo.w s.fileInfo.h (f2 s.fileInfo) (c2 s.fileInfo) = .ok body ∧
          fileBack s.parsePoint (f2 s.fileInfo) (c2 s.fileInfo) s.fileInfo.w s.fileInfo.h body consumed =
            .error e)) := by
  simp only [fileBody, except_bind_error, Prod.exists, fileFront_ok, raisedAt_ok, raisedAt_error]
  constructor
  · rintro (h | ⟨t, i, ⟨h1, h2, rfl, rfl⟩, h⟩)
    · exact .inl h
    · refine .inr ⟨h1, h2, ?_⟩
      rcases h with ⟨rfl, h⟩ | ⟨pix, consumed, h3, ⟨rfl, h⟩ | ⟨body, h4, rfl, h⟩⟩
      · exact ⟨rfl, .inl h⟩
      · exact ⟨rfl, .inr ⟨pix, consumed, h3, .inl h⟩⟩
      · exact ⟨rfl, .inr ⟨pix, consumed, h3, .inr ⟨body, h4, h⟩⟩⟩
  · rintro (h | ⟨h1, h2, rfl, h⟩)
    · exact .inl h
    · refine .inr ⟨_, _, ⟨h1, h2, rfl, rfl⟩, ?_⟩
      rcases h with h | ⟨pix, consumed, h3, h | ⟨body, h4, h⟩⟩
      · exact .inl ⟨rfl, h⟩
      · exact .inr ⟨pix, consumed, h3, .inl ⟨rfl, h⟩⟩
      · exact .inr ⟨pix, consumed, h3, .inr ⟨body, h4, rfl, h⟩⟩

theorem fileBack_ok {s u : State} {f2 : PixFmt} {c2 : Byte} {w h : Word} {body : List Byte} {consumed : Nat} :
    fileBack s f2 c2 w h body consumed = .ok u ↔
      (makeHeader s.cfg.layout f2 c2 w h ++ body).length ≤ s.regs.dstCap.toNat ∧
      u = ((s.dstWrite (makeHeader s.cfg.layout f2 c2 w h ++ body)).stamp
        (makeHeader s.cfg.layout f2 c2 w h ++ body).length).setLengths
          (makeHeader s.cfg.layout f2 c2 w h ++ body).length consumed := by
  simp only [fileBack]
  split_ifs with h1
  · simp only [Except.ok.injEq, h1, true_and]
    exact eq_comm
  · simp only [reduceCtorEq, false_iff, not_and]
    exact fun h => absurd h h1

theorem fileBack_error {s : State} {e : Err} {f2 : PixFmt} {c2 : Byte} {w h : Word} {body : List Byte}
    {consumed : Nat} :
    fileBack s f2 c2 w h body consumed = .error e ↔
      s.regs.dstCap.toNat < (makeHeader s.cfg.layout f2 c2 w h ++ body).length ∧ e = .outputTooLong := by
  simp only [fileBack]
  split_ifs with h1
  · simp only [reduceCtorEq, false_iff, not_and]
    intro h2
    omega
  · simp only [Except.error.injEq, show s.regs.dstCap.toNat < (makeHeader s.cfg.layout f2 c2 w h ++ body).length by
      omega, true_and]
    exact eq_comm

theorem readBody_error {s : State} {i : FileInfo} {e : Err} (h : readBody s i = .error e) :
    listedErr e = true := by
  simp only [readBody] at h
  split_ifs at h
  · simp only [Except.error.injEq] at h
    subst h
    rfl
  · split at h
    · simp at h
    · rename_i e' he
      simp only [Except.error.injEq] at h
      exact h ▸ listed_decodeImage he

theorem writeBody_error {pix : List Byte} {w h : Word} {f2 : PixFmt} {c2 : Byte} {e : Err}
    (he : writeBody pix w h f2 c2 = .error e) : e = .rowTooLong := by
  simp only [writeBody] at he
  split_ifs at he
  exact encodeImage_error he

theorem failedChecks_le (v : Word) : (failedChecks v).toNat ≤ 31 := by
  have : failedChecks v &&& 0x1F = failedChecks v := by
    simp only [failedChecks]
    rw [BitVec.and_assoc]
    rfl
  rw [← this, BitVec.toNat_and]
  exact Nat.and_le_right

theorem listed_invalidFile {v : Word} (h : failedChecks v ≠ 0) : listedErr (.invalidFile (failedChecks v)) = true := by
  have h1 := failedChecks_le v
  have h2 : 1 ≤ (failedChecks v).toNat := by
    rcases Nat.eq_zero_or_pos (failedChecks v).toNat with h3 | h3
    · exact absurd (BitVec.eq_of_toNat_eq (by simpa using h3)) h
    · exact h3
  simp [listedErr, Err.invalidFile, h1, h2]

theorem fileBody_listed {s u : State} {e : Err} {f2 : FileInfo → PixFmt} {c2 : FileInfo → Byte}
    {chg : FileInfo → List Byte → List Byte} (h : fileBody s f2 c2 chg = .error (u, e)) :
    listedErr e = true ∧ (u = s ∨ u = s.parsePoint) := by
  replace h := fileBody_error.1 h
  rcases h with h | ⟨-, -, rfl, h⟩
  · rcases fileFront_error.1 h with ⟨-, rfl, rfl⟩ | ⟨-, h2, rfl, rfl⟩
    · exact ⟨rfl, .inl rfl⟩
    · exact ⟨listed_invalidFile h2, .inr rfl⟩
  · refine ⟨?_, .inr rfl⟩
    rcases h with h | ⟨pix, consumed, -, h | ⟨body, -, h⟩⟩
    · exact readBody_error h
    · rw [writeBody_error h]; rfl
    · rw [(fileBack_error.1 h).2]; rfl

/-! ## All commands alike -/

/-- The body of a command that uses a window. -/
def commandBody : Instr → State → Except (State × Err) State
  | .hdrParse, s =>
    if hdrSize s.cfg.layout ≤ s.regs.srcLen.toNat then .ok (s.parsePoint.setLengths 0 s.regs.srcLen.toNat)
    else .error (s, .truncated 1)
  | .cksum, s => .ok ((s.setCalcCksum s.srcCksum).setLengths 0 s.regs.srcLen.toNat)
  | .cksumStamp, s =>
    if offCksum s.cfg.layout + 2 ≤ s.regs.dstCap.toNat then
      .ok ((s.stamp s.regs.dstCap.toNat).setLengths s.regs.dstCap.toNat 0)
    else .error (s, .config 7)
  | .rowEnc, s => deliverBody s (rowEncResult s)
  | .rowDec, s => deliverBody s (rowDecResult s)
  | .imgEnc, s => deliverBody s (imgEncResult s)
  | .imgDec, s => deliverBody s (imgDecResult s)
  | .cvt df, s =>
    match cvtResult df s with
    | .ok (out, inPos) => .ok ((s.deliver out inPos).setTarget df)
    | .error e => .error (s, e)
  | .fileCompress, s => fileBody s (fun i => i.f) (fun _ => 1) fun _ p => p
  | .fileDecompress, s => fileBody s (fun i => i.f) (fun _ => 0) fun _ p => p
  | .fileConvert df, s => fileBody s (fun _ => df) (fun i => i.c) fun i p => convert p i.f df
  | .nop, s | .reserved43 _, s | .literalBlock _ _, s | .repeatBlock _ _, s => .ok s

/-- Whether the instruction is a command with a window. -/
def usesWindow (i : Instr) : Bool := usesSrc i || usesDst i

theorem exec_eq_runCommand {i : Instr} (h : usesWindow i = true) (s : State) :
    exec i s = runCommand i s (commandBody i s) := by
  cases i <;> first | rfl | simp [usesWindow, usesSrc, usesDst] at h

/-- The file-level commands. -/
def isFile : Instr → Bool
  | .fileCompress | .fileDecompress | .fileConvert _ => true
  | .nop | .hdrParse | .cksum | .cksumStamp | .rowEnc | .rowDec | .imgEnc | .imgDec | .cvt _ | .reserved43 _
  | .literalBlock _ _ | .repeatBlock _ _ => false

/-- What a file-level body does, whichever command it is. -/
theorem isFile_body {i : Instr} (h : isFile i = true) : ∃ f2 c2 chg, ∀ s, commandBody i s = fileBody s f2 c2 chg := by
  cases i with
  | fileCompress => exact ⟨fun i => i.f, fun _ => 1, fun _ p => p, fun _ => rfl⟩
  | fileDecompress => exact ⟨fun i => i.f, fun _ => 0, fun _ p => p, fun _ => rfl⟩
  | fileConvert df => exact ⟨fun _ => df, fun i => i.c, fun i p => convert p i.f df, fun _ => rfl⟩
  | nop | hdrParse | cksum | cksumStamp | rowEnc | rowDec | imgEnc | imgDec | cvt | reserved43 | literalBlock
  | repeatBlock => simp [isFile] at h

theorem cvt_body_ok {df : PixFmt} {s u : State} : commandBody (.cvt df) s = .ok u ↔
    ∃ out p, cvtResult df s = .ok (out, p) ∧ u = (s.deliver out p).setTarget df := by
  simp only [commandBody]
  cases cvtResult df s with
  | error e => simp
  | ok x =>
    obtain ⟨out, p⟩ := x
    simp only [Except.ok.injEq, Prod.mk.injEq]
    constructor
    · rintro rfl
      exact ⟨out, p, ⟨rfl, rfl⟩, rfl⟩
    · rintro ⟨_, _, ⟨rfl, rfl⟩, rfl⟩
      rfl

theorem cvt_body_error {df : PixFmt} {s u : State} {e : Err} : commandBody (.cvt df) s = .error (u, e) ↔
    u = s ∧ cvtResult df s = .error e := by
  simp only [commandBody]
  cases cvtResult df s with
  | error e' =>
    simp only [Except.error.injEq, Prod.mk.injEq, @eq_comm _ s]
  | ok x => simp

/-- A command's body raises a listed error, at the start or (a file-level command) past its parse point. -/
theorem commandBody_error {i : Instr} {s u : State} {e : Err} (h : commandBody i s = .error (u, e)) :
    listedErr e = true ∧ (u = s ∨ isFile i = true ∧ u = s.parsePoint) := by
  cases i with
  | hdrParse =>
    simp only [commandBody] at h
    split_ifs at h
    simp only [Except.error.injEq, Prod.mk.injEq] at h
    obtain ⟨rfl, rfl⟩ := h
    exact ⟨rfl, .inl rfl⟩
  | cksumStamp =>
    simp only [commandBody] at h
    split_ifs at h
    simp only [Except.error.injEq, Prod.mk.injEq] at h
    obtain ⟨rfl, rfl⟩ := h
    exact ⟨rfl, .inl rfl⟩
  | rowEnc =>
    obtain ⟨rfl, h⟩ := deliverBody_error.1 h
    exact ⟨listed_rowEnc h, .inl rfl⟩
  | rowDec =>
    obtain ⟨rfl, h⟩ := deliverBody_error.1 h
    exact ⟨listed_rowDec h, .inl rfl⟩
  | imgEnc =>
    obtain ⟨rfl, h⟩ := deliverBody_error.1 h
    exact ⟨listed_imgEnc h, .inl rfl⟩
  | imgDec =>
    obtain ⟨rfl, h⟩ := deliverBody_error.1 h
    exact ⟨listed_imgDec h, .inl rfl⟩
  | cvt df =>
    obtain ⟨rfl, h⟩ := cvt_body_error.1 h
    exact ⟨listed_cvt h, .inl rfl⟩
  | fileCompress | fileDecompress | fileConvert =>
    simp only [commandBody] at h
    obtain ⟨h1, h2⟩ := fileBody_listed h
    exact ⟨h1, h2.imp id fun h => ⟨rfl, h⟩⟩
  | nop | cksum | reserved43 | literalBlock | repeatBlock => simp [commandBody] at h

end Sys2Proof.Machine
end

