-- ==== Sys2Proof/Laws/Bodies.lean ====
section
/-! SUPPORT. What a command's body changes, for all commands alike: registers, memory, and nothing else. -/

namespace Sys2Proof.Machine

/-- A sequence of bytes with the bytes from position `off` on replaced by `bs`. -/
def patched (out : List Byte) (off : Nat) (bs : List Byte) : List Byte :=
  out.take off ++ bs ++ out.drop (off + bs.length)

theorem patched_length {out bs : List Byte} {off : Nat} (h : off + bs.length ≤ out.length) :
    (patched out off bs).length = out.length := by
  simp only [patched, List.length_append, List.length_take, List.length_drop]
  omega

theorem patched_getD {out bs : List Byte} {off : Nat} (h : off + bs.length ≤ out.length) (k : Nat) :
    (patched out off bs).getD k 0 =
      if off ≤ k ∧ k < off + bs.length then bs.getD (k - off) 0 else out.getD k 0 := by
  have ht : (out.take off).length = off := by rw [List.length_take]; omega
  simp only [patched, List.getD_eq_getElem?_getD, List.append_assoc]
  by_cases h1 : k < off
  · rw [List.getElem?_append_left (by omega), if_neg (by omega), List.getElem?_take_of_lt h1]
  · rw [List.getElem?_append_right (by omega), ht]
    by_cases h2 : k < off + bs.length
    · rw [List.getElem?_append_left (by omega), if_pos (by omega)]
    · rw [List.getElem?_append_right (by omega), List.getElem?_drop, if_neg (by omega)]
      congr 2
      omega

/-- Writing over part of what has just been written is writing the patched sequence. -/
theorem Memory.writeSeq_writeSeq {m : Memory} {a off : Nat} {out bs : List Byte} (hm : m.wf = true)
    (h : off + bs.length ≤ out.length) :
    (m.writeSeq a out).writeSeq (a + off) bs = m.writeSeq a (patched out off bs) := by
  refine Memory.ext_stored (Memory.writeSeq_wf _ _ (Memory.writeSeq_wf _ _ hm)) (Memory.writeSeq_wf _ _ hm) fun b => ?_
  rw [Memory.stored_writeSeq, Memory.stored_writeSeq, Memory.stored_writeSeq, patched_length h, patched_getD h]
  by_cases h1 : a + off ≤ b ∧ b < a + off + bs.length
  · rw [if_pos h1, if_pos (by omega), if_pos (by omega), Nat.sub_sub]
  · rw [if_neg h1]
    by_cases h2 : a ≤ b ∧ b < a + out.length
    · rw [if_pos h2, if_pos h2, if_neg (by omega)]
    · rw [if_neg h2, if_neg h2]

theorem makeHeader_length (l : HdrLayout) (f : PixFmt) (c : Byte) (w hh : Word) :
    (makeHeader l f c w hh).length = hdrSize l := by
  cases l <;> rfl

theorem offCksum_lt (l : HdrLayout) : offCksum l + 2 ≤ hdrSize l := by
  cases l <;> decide

@[simp] theorem le16_length (v : BitVec 16) : (le16 v).length = 2 := rfl

/-- The registers and fields no body touches. -/
structure BodyFrame (s u : State) : Prop where
  cfg : u.cfg = s.cfg
  env : u.env = s.env
  pending : u.pending = s.pending
  row : u.row = s.row
  draws : u.draws = s.draws
  cmd : u.regs.cmd = s.regs.cmd
  status : u.regs.status = s.regs.status
  srcBase : u.regs.srcBase = s.regs.srcBase
  srcLen : u.regs.srcLen = s.regs.srcLen
  dstBase : u.regs.dstBase = s.regs.dstBase
  dstCap : u.regs.dstCap = s.regs.dstCap

theorem BodyFrame.refl (s : State) : BodyFrame s s :=
  ⟨rfl, rfl, rfl, rfl, rfl, rfl, rfl, rfl, rfl, rfl, rfl⟩

theorem BodyFrame.parsePoint (s : State) : BodyFrame s s.parsePoint :=
  ⟨rfl, rfl, rfl, rfl, rfl, rfl, rfl, rfl, rfl, rfl, rfl⟩

theorem BodyFrame.dstWindow {s u : State} (h : BodyFrame s u) : u.regs.dstWindow = s.regs.dstWindow := by
  simp only [Regs.dstWindow, h.dstBase, h.dstCap]

theorem BodyFrame.srcWindow {s u : State} (h : BodyFrame s u) : u.regs.srcWindow = s.regs.srcWindow := by
  simp only [Regs.srcWindow, h.srcBase, h.srcLen]

/-- The state a successful body leaves, command by command. -/
theorem commandBody_ok {i : Instr} {s u : State} (hw : usesWindow i = true) (h : commandBody i s = .ok u) :
    (i = .hdrParse ∧ hdrSize s.cfg.layout ≤ s.regs.srcLen.toNat ∧
      u = s.parsePoint.setLengths 0 s.regs.srcLen.toNat) ∨
    (i = .cksum ∧ u = (s.setCalcCksum s.srcCksum).setLengths 0 s.regs.srcLen.toNat) ∨
    (i = .cksumStamp ∧ offCksum s.cfg.layout + 2 ≤ s.regs.dstCap.toNat ∧
      u = (s.stamp s.regs.dstCap.toNat).setLengths s.regs.dstCap.toNat 0) ∨
    ((i = .rowEnc ∨ i = .rowDec ∨ i = .imgEnc ∨ i = .imgDec) ∧ ∃ out p, out.length ≤ s.regs.dstCap.toNat ∧
      u = s.deliver out p) ∨
    (∃ df out p, i = .cvt df ∧ out.length ≤ s.regs.dstCap.toNat ∧ u = (s.deliver out p).setTarget df) ∨
    (isFile i = true ∧ ∃ f2 c2 body consumed,
      (makeHeader s.cfg.layout f2 c2 s.fileInfo.w s.fileInfo.h ++ body).length ≤ s.regs.dstCap.toNat ∧
      u = ((s.parsePoint.dstWrite (makeHeader s.cfg.layout f2 c2 s.fileInfo.w s.fileInfo.h ++ body)).stamp
        (makeHeader s.cfg.layout f2 c2 s.fileInfo.w s.fileInfo.h ++ body).length).setLengths
          (makeHeader s.cfg.layout f2 c2 s.fileInfo.w s.fileInfo.h ++ body).length consumed) := by
  cases i with
  | hdrParse =>
    simp only [commandBody] at h
    split_ifs at h with h1
    simp only [Except.ok.injEq] at h
    exact .inl ⟨rfl, h1, h.symm⟩
  | cksum =>
    simp only [commandBody, Except.ok.injEq] at h
    exact .inr (.inl ⟨rfl, h.symm⟩)
  | cksumStamp =>
    simp only [commandBody] at h
    split_ifs at h with h1
    simp only [Except.ok.injEq] at h
    exact .inr (.inr (.inl ⟨rfl, h1, h.symm⟩))
  | rowEnc =>
    obtain ⟨out, p, h1, rfl⟩ := deliverBody_ok.1 h
    obtain ⟨f, -, -, -, -, h2, -⟩ := rowEncResult_ok.1 h1
    exact .inr (.inr (.inr (.inl ⟨by simp, out, p, h2, rfl⟩)))
  | rowDec =>
    obtain ⟨out, p, h1, rfl⟩ := deliverBody_ok.1 h
    obtain ⟨f, -, -, h2, h3, -⟩ := rowDecResult_ok.1 h1
    exact .inr (.inr (.inr (.inl ⟨by simp, out, p, by rw [decodeRow_length h3]; exact h2, rfl⟩)))
  | imgEnc =>
    obtain ⟨out, p, h1, rfl⟩ := deliverBody_ok.1 h
    obtain ⟨f, -, -, -, -, -, h2, -⟩ := imgEncResult_ok.1 h1
    exact .inr (.inr (.inr (.inl ⟨by simp, out, p, h2, rfl⟩)))
  | imgDec =>
    obtain ⟨out, p, h1, rfl⟩ := deliverBody_ok.1 h
    obtain ⟨f, -, -, -, h2, h3⟩ := imgDecResult_ok.1 h1
    refine .inr (.inr (.inr (.inl ⟨by simp, out, p, ?_, rfl⟩)))
    rw [(decodeImage_length h3).1]
    calc s.regs.height.toNat * (s.regs.width.toNat * f.bpp)
        = s.regs.width.toNat * s.regs.height.toNat * f.bpp := by ring
      _ ≤ _ := h2
  | cvt df =>
    obtain ⟨out, p, h1, rfl⟩ := cvt_body_ok.1 h
    obtain ⟨f, -, -, -, -, h2, rfl, -⟩ := cvtResult_ok.1 h1
    refine .inr (.inr (.inr (.inr (.inl ⟨df, _, p, rfl, ?_, rfl⟩))))
    rw [convert_length (n := s.regs.width.toNat * s.regs.height.toNat) (by simp [State.srcSeq])]
    exact h2
  | fileCompress | fileDecompress | fileConvert =>
    simp only [commandBody] at h
    obtain ⟨pix, consumed, body, -, -, -, -, h5⟩ := fileBody_ok.1 h
    obtain ⟨h6, h7⟩ := fileBack_ok.1 h5
    exact .inr (.inr (.inr (.inr (.inr ⟨rfl, _, _, body, consumed, h6, h7⟩))))
  | nop | reserved43 | literalBlock | repeatBlock => simp [usesWindow, usesSrc, usesDst] at hw

theorem commandBody_frame {i : Instr} {s u : State} (hw : usesWindow i = true) (h : commandBody i s = .ok u) :
    BodyFrame s u := by
  rcases commandBody_ok hw h with ⟨-, -, rfl⟩ | ⟨-, rfl⟩ | ⟨-, -, rfl⟩ | ⟨-, out, p, -, rfl⟩ |
    ⟨df, out, p, -, -, rfl⟩ | ⟨-, f2, c2, body, consumed, -, rfl⟩ <;>
    constructor <;> simp

/-- The registers each successful body leaves alone (10_state.md R36). -/
theorem commandBody_regs {i : Instr} {s u : State} (hw : usesWindow i = true) (h : commandBody i s = .ok u) :
    (isFile i = false → i ≠ .hdrParse → u.regs.width = s.regs.width ∧ u.regs.height = s.regs.height ∧
      u.regs.hdrValid = s.regs.hdrValid ∧ u.regs.hdrCksum = s.regs.hdrCksum ∧
      u.regs.hdrPixoff = s.regs.hdrPixoff ∧ ((∀ df, i ≠ .cvt df) → u.regs.fmt = s.regs.fmt) ∧
      (i ≠ .cksum → u.regs.calcCksum = s.regs.calcCksum)) ∧
    (isFile i = false → i ≠ .cksumStamp → u.regs.outCksum = s.regs.outCksum) := by
  rcases commandBody_ok hw h with ⟨rfl, -, rfl⟩ | ⟨rfl, rfl⟩ | ⟨rfl, -, rfl⟩ | ⟨hi, out, p, -, rfl⟩ |
    ⟨df, out, p, rfl, -, rfl⟩ | ⟨hi, f2, c2, body, consumed, -, rfl⟩
  · exact ⟨fun _ h => absurd rfl h, fun _ _ => rfl⟩
  · exact ⟨fun _ _ => ⟨rfl, rfl, rfl, rfl, rfl, fun _ => rfl, fun h => absurd rfl h⟩, fun _ _ => rfl⟩
  · exact ⟨fun _ _ => ⟨rfl, rfl, rfl, rfl, rfl, fun _ => rfl, fun _ => rfl⟩, fun _ h => absurd rfl h⟩
  · exact ⟨fun _ _ => ⟨rfl, rfl, rfl, rfl, rfl, fun _ => rfl, fun _ => rfl⟩, fun _ _ => rfl⟩
  · exact ⟨fun _ _ => ⟨rfl, rfl, rfl, rfl, rfl, fun h => absurd rfl (h df), fun _ => rfl⟩, fun _ _ => rfl⟩
  · rw [hi]
    exact ⟨fun h => by simp at h, fun h => by simp at h⟩

/-- What a successful body does to memory: nothing, the two bytes of a stamp, or one stretch from the
start of the destination window, as long as OUT_LEN says. -/
theorem commandBody_mem {i : Instr} {s u : State} (hm : s.mem.wf = true) (hw : usesWindow i = true)
    (h : commandBody i s = .ok u) :
    (usesDst i = false ∧ u.mem = s.mem) ∨
    (i = .cksumStamp ∧ offCksum s.cfg.layout + 2 ≤ s.regs.dstCap.toNat ∧ u.regs.outLen = s.regs.dstCap ∧
      ∃ c, u.mem = s.mem.writeSeq (s.regs.dstBase.toNat + offCksum s.cfg.layout) (le16 c)) ∨
    (usesDst i = true ∧ ∃ out, out.length ≤ s.regs.dstCap.toNat ∧ u.mem = s.mem.writeSeq s.regs.dstBase.toNat out ∧
      u.regs.outLen.toNat = out.length) := by
  have hcap := s.regs.dstCap.isLt
  rcases commandBody_ok hw h with ⟨rfl, -, rfl⟩ | ⟨rfl, rfl⟩ | ⟨rfl, h1, rfl⟩ | ⟨hi, out, p, h1, rfl⟩ |
    ⟨df, out, p, rfl, h1, rfl⟩ | ⟨hi, f2, c2, body, consumed, h1, rfl⟩
  · exact .inl ⟨rfl, rfl⟩
  · exact .inl ⟨rfl, rfl⟩
  · exact .inr (.inl ⟨rfl, h1, by simp [State.setLengths], _, rfl⟩)
  · refine .inr (.inr ⟨?_, out, h1, rfl, ?_⟩)
    · rcases hi with rfl | rfl | rfl | rfl <;> rfl
    · simp only [State.deliver, State.setLengths, BitVec.toNat_ofNat]
      exact Nat.mod_eq_of_lt (by omega)
  · refine .inr (.inr ⟨rfl, out, h1, rfl, ?_⟩)
    simp only [State.deliver, State.setLengths, State.setTarget, BitVec.toNat_ofNat]
    exact Nat.mod_eq_of_lt (by omega)
  · refine .inr (.inr ⟨?_, ?_⟩)
    · cases i <;> first | rfl | simp [isFile] at hi
    · have hl : offCksum s.cfg.layout + 2 ≤
          (makeHeader s.cfg.layout f2 c2 s.fileInfo.w s.fileInfo.h ++ body).length := by
        have := offCksum_lt s.cfg.layout
        rw [List.length_append, makeHeader_length]
        omega
      refine ⟨_, ?_, Memory.writeSeq_writeSeq hm hl, ?_⟩
      · rw [patched_length hl]
        exact h1
      · rw [patched_length hl]
        simp only [State.setLengths, BitVec.toNat_ofNat]
        exact Nat.mod_eq_of_lt (by omega)

/-- A successful body keeps memory's form and changes nothing outside the destination window. -/
theorem commandBody_keeps {i : Instr} {s u : State} (hm : s.mem.wf = true) (hw : usesWindow i = true)
    (h : commandBody i s = .ok u) :
    u.mem.wf = true ∧ (∀ a, inRange s.regs.dstWindow a = false → u.mem.read a = s.mem.read a) ∧
      (s.mem.inSpace = true → (usesDst i = true → rangeEnd s.regs.dstWindow ≤ 4294967296) →
        u.mem.inSpace = true) := by
  simp only [rangeEnd, Regs.dstWindow]
  rcases commandBody_mem hm hw h with ⟨-, h1⟩ | ⟨hi, hl, -, c, h1⟩ | ⟨hd, out, hl, h1, -⟩ <;> rw [h1]
  · exact ⟨hm, fun _ _ => rfl, fun h _ => h⟩
  · subst hi
    refine ⟨Memory.writeSeq_wf _ _ hm, fun a ha => Memory.read_writeSeq_outside ?_, fun hs hd =>
      Memory.writeSeq_inSpace hs ?_⟩
    · rw [inRange_eq_false] at ha
      simp only [rangeEnd] at ha
      simp only [le16_length]
      omega
    · have := hd rfl
      simp only [le16_length]
      omega
  · refine ⟨Memory.writeSeq_wf _ _ hm, fun a ha => Memory.read_writeSeq_outside ?_, fun hs hd' =>
      Memory.writeSeq_inSpace hs ?_⟩
    · rw [inRange_eq_false] at ha
      simp only [rangeEnd] at ha
      omega
    · have := hd' hd
      omega

/-- How a command ends, for all commands with a window alike. -/
theorem exec_window_cases {i : Instr} {s t : State} (hw : usesWindow i = true) (h : exec i s = .next t) :
    windowRefusal i s = none ∧
      ((∃ e, checkWindows i s.regs = some e ∧ t = s.completeErr e) ∨
        checkWindows i s.regs = none ∧
          ((∃ u, commandBody i s = .ok u ∧ t = u.complete) ∨
            ∃ u e, commandBody i s = .error (u, e) ∧ listedErr e = true ∧
              (u = s ∨ isFile i = true ∧ u = s.parsePoint) ∧ t = u.raise i e)) := by
  rw [exec_eq_runCommand hw] at h
  obtain ⟨h1, h2⟩ := runCommand_cases h
  refine ⟨h1, h2.imp id fun ⟨h3, h4⟩ => ⟨h3, h4.imp id ?_⟩⟩
  rintro ⟨u, e, hb, rfl⟩
  obtain ⟨h5, h6⟩ := commandBody_error hb
  exact ⟨u, e, hb, h5, h6, rfl⟩

end Sys2Proof.Machine
end

