-- ==== Sys2Proof/Laws/Encoding.lean ====
section
/-! SUPPORT. The three fields of a command word, and the words of the plain commands. -/

namespace Sys2Proof

/-- A command word is its three fields (30_encoding.md R72). -/
theorem word_fields (w : Word) : w = rsvdField w ++ argField w ++ opcField w := by
  refine BitVec.eq_of_getLsbD_eq fun i hi => ?_
  simp only [rsvdField, argField, opcField, BitVec.getLsbD_append, BitVec.getLsbD_extractLsb']
  by_cases h1 : i < 8
  · simp [h1]
  · by_cases h2 : i - 8 < 4
    · simp [h1, h2, show 8 + (i - 8) = i by omega]
    · simp [h1, h2, show i - 8 - 4 < 20 by omega, show 12 + (i - 8 - 4) = i by omega]

/-- A word of the reserved slot is its upper bits and OPC 0x43 (log 13). -/
theorem word_rest (w : Word) : w = w.extractLsb' 8 24 ++ opcField w := by
  refine BitVec.eq_of_getLsbD_eq fun i hi => ?_
  simp only [opcField, BitVec.getLsbD_append, BitVec.getLsbD_extractLsb']
  by_cases h1 : i < 8
  · simp [h1]
  · simp [h1, show i - 8 < 24 by omega, show 8 + (i - 8) = i by omega]

theorem opcField_append (x : BitVec 24) (b : Byte) : opcField (x ++ b) = b := by
  refine BitVec.eq_of_getLsbD_eq fun i hi => ?_
  have h : (x ++ b).getLsbD i = b.getLsbD i := by rw [BitVec.getLsbD_append, if_pos hi]
  simp only [opcField, BitVec.getLsbD_extractLsb', hi, decide_true, Bool.true_and, Nat.zero_add]
  exact h

theorem rest_append (x : BitVec 24) (b : Byte) : (x ++ b).extractLsb' 8 24 = x := by
  refine BitVec.eq_of_getLsbD_eq fun i hi => ?_
  have h : (x ++ b).getLsbD (8 + i) = x.getLsbD i := by
    rw [BitVec.getLsbD_append, if_neg (by omega), Nat.add_sub_cancel_left]
  simp only [BitVec.getLsbD_extractLsb', hi, decide_true, Bool.true_and]
  exact h

/-- A plain command's word is its OPC with ARG 0. -/
theorem plainCommand_encode {opc : Byte} {i : Instr} (h : plainCommand opc = some i) :
    encode i = .command (commandWord opc 0) := by
  unfold plainCommand at h
  split_ifs at h with h1 h2 h3 h4 h5 h6 h7 h8 h9 h10 <;> simp only [Option.some.injEq] at h <;> subst h
  · rw [h1]; rfl
  · rw [h2]; rfl
  · rw [h3]; rfl
  · rw [h4]; rfl
  · rw [h5]; rfl
  · rw [h6]; rfl
  · rw [h7]; rfl
  · rw [h8]; rfl
  · rw [h9]; rfl
  · rw [h10]; rfl

/-- A format command's word is its OPC with the target in ARG. -/
theorem formatCommand_encode {opc : Byte} {df : PixFmt} {i : Instr} (h : formatCommand opc df = some i) :
    encode i = .command (commandWord opc df.arg) := by
  unfold formatCommand at h
  split_ifs at h with h1 h2 <;> simp only [Option.some.injEq] at h <;> subst h
  · rw [h1]; rfl
  · rw [h2]; rfl

/-- An ARG that names a format is that format's. -/
theorem argField_of_ofCode {w : Word} {df : PixFmt} (h : PixFmt.ofCode ((argField w).setWidth 8) = some df) :
    argField w = df.arg := by
  have hlt := (argField w).isLt
  simp only [PixFmt.ofCode] at h
  split_ifs at h with h1 h2 <;> simp only [Option.some.injEq] at h <;> subst h
  · have := congrArg BitVec.toNat h1
    simp only [BitVec.toNat_setWidth] at this
    rw [Nat.mod_eq_of_lt (by omega)] at this
    exact BitVec.eq_of_toNat_eq this
  · have := congrArg BitVec.toNat h2
    simp only [BitVec.toNat_setWidth] at this
    rw [Nat.mod_eq_of_lt (by omega)] at this
    exact BitVec.eq_of_toNat_eq this

/-- A command word decodes to an instruction that a command word encodes, not to a tag block. -/
theorem decodeCommand_encode {w : Word} {i : Instr} (h : decodeCommand w = .ok i) : ∃ v, encode i = .command v := by
  simp only [decodeCommand] at h
  split at h
  · simp only [Except.ok.injEq] at h
    subst h
    exact ⟨_, rfl⟩
  · split at h
    · split at h
      · simp at h
      · split at h
        · rename_i j hj
          simp only [Except.ok.injEq] at h
          subst h
          obtain ⟨df, -, hf⟩ := Option.bind_eq_some_iff.1 hj
          exact ⟨_, formatCommand_encode hf⟩
        · simp at h
    · split at h
      · simp at h
      · rename_i j hj
        split at h
        · simp at h
        · split at h
          · simp at h
          · simp only [Except.ok.injEq] at h
            subst h
            exact ⟨_, plainCommand_encode hj⟩

end Sys2Proof
end

