-- ==== Sys2Proof/Laws/Header.lean ====
section
/-! SUPPORT. Little-endian integers, the fields of an output header, and checksums of stamped bytes. -/

namespace Sys2Proof.Machine

/-! ## Little-endian integers -/

theorem low_append {n : Nat} (x : BitVec n) (y : Byte) : (x ++ y).extractLsb' 0 8 = y := by
  refine BitVec.eq_of_getLsbD_eq fun i hi => ?_
  simp only [BitVec.getLsbD_extractLsb', hi, decide_true, Bool.true_and, Nat.zero_add]
  rw [BitVec.getLsbD_append, if_pos hi]

theorem high_append {n : Nat} (x : BitVec n) (y : Byte) : (x ++ y).extractLsb' 8 n = x := by
  refine BitVec.eq_of_getLsbD_eq fun i hi => ?_
  simp only [BitVec.getLsbD_extractLsb', hi, decide_true, Bool.true_and]
  rw [BitVec.getLsbD_append, if_neg (by omega), Nat.add_sub_cancel_left]

/-- The two bytes of a 16-bit number are the number. -/
theorem le16_word (v : BitVec 16) : v.extractLsb' 8 8 ++ v.extractLsb' 0 8 = v := by
  refine BitVec.eq_of_getLsbD_eq fun i hi => ?_
  simp only [BitVec.getLsbD_append, BitVec.getLsbD_extractLsb']
  by_cases h1 : i < 8
  · simp [h1]
  · simp [h1, show i - 8 < 8 by omega, show 8 + (i - 8) = i by omega]

/-- The four bytes of a word are the word. -/
theorem le32_word (v : Word) :
    v.extractLsb' 24 8 ++ v.extractLsb' 16 8 ++ v.extractLsb' 8 8 ++ v.extractLsb' 0 8 = v := by
  refine BitVec.eq_of_getLsbD_eq fun i hi => ?_
  simp only [BitVec.getLsbD_append, BitVec.getLsbD_extractLsb']
  by_cases h1 : i < 8
  · simp [h1]
  · by_cases h2 : i - 8 < 8
    · simp [h1, h2, show 8 + (i - 8) = i by omega]
    · by_cases h3 : i - 8 - 8 < 8
      · simp [h1, h2, h3, show 16 + (i - 8 - 8) = i by omega]
      · simp [h1, h2, h3, show i - 8 - 8 - 8 < 8 by omega, show 24 + (i - 8 - 8 - 8) = i by omega]

/-! ## Bytes of a sequence -/

theorem byteAt_append_left {a b : List Byte} {k : Nat} (h : k < a.length) : byteAt (a ++ b) k = byteAt a k := by
  simp only [byteAt, List.getD_eq_getElem?_getD]
  rw [List.getElem?_append_left h]

theorem byteAt_patched {out bs : List Byte} {off : Nat} (h : off + bs.length ≤ out.length) (k : Nat) :
    byteAt (patched out off bs) k =
      if off ≤ k ∧ k < off + bs.length then byteAt bs (k - off) else byteAt out k :=
  patched_getD h k

theorem byteAt_take {s : List Byte} {n k : Nat} (h : k < n) : byteAt (s.take n) k = byteAt s k := by
  simp only [byteAt, List.getD_eq_getElem?_getD]
  rw [List.getElem?_take_of_lt h]

/-- Two sequences with the same first bytes read the same integers there. -/
theorem readLe32_congr {a b : List Byte} {o : Nat} (h : ∀ k, o ≤ k → k < o + 4 → byteAt a k = byteAt b k) :
    readLe32 a o = readLe32 b o := by
  simp only [readLe32, h o (by omega) (by omega), h (o + 1) (by omega) (by omega), h (o + 2) (by omega) (by omega),
    h (o + 3) (by omega) (by omega)]

theorem readLe16_congr {a b : List Byte} {o : Nat} (h : ∀ k, o ≤ k → k < o + 2 → byteAt a k = byteAt b k) :
    readLe16 a o = readLe16 b o := by
  simp only [readLe16, h o (by omega) (by omega), h (o + 1) (by omega) (by omega)]

theorem readLe16_le16 (v : BitVec 16) : readLe16 (le16 v) 0 = v := le16_word v

/-! ## The output header -/

/-- The fields of an output header, byte by byte (41_header.md R106). -/
theorem makeHeader_bytes (l : HdrLayout) (f : PixFmt) (c : Byte) (w hh : Word) :
    (makeHeader l f c w hh).take (magicLen l) = magic l ∧
    byteAt (makeHeader l f c w hh) (offPixfmt l) = f.code ∧
    byteAt (makeHeader l f c w hh) (offComp l) = c := by
  cases l <;> exact ⟨rfl, rfl, rfl⟩

theorem makeHeader_width (l : HdrLayout) (f : PixFmt) (c : Byte) (w hh : Word) :
    readLe32 (makeHeader l f c w hh) (offWidth l) = w := by
  cases l <;> simp only [readLe32, byteAt, makeHeader, magic, offWidth, le32, List.cons_append, List.nil_append,
    Nat.reduceAdd, List.getD_cons_succ, List.getD_cons_zero] <;> exact le32_word w

theorem makeHeader_height (l : HdrLayout) (f : PixFmt) (c : Byte) (w hh : Word) :
    readLe32 (makeHeader l f c w hh) (offHeight l) = hh := by
  cases l <;> simp only [readLe32, byteAt, makeHeader, magic, offHeight, le32, List.cons_append, List.nil_append,
    Nat.reduceAdd, List.getD_cons_succ, List.getD_cons_zero] <;> exact le32_word hh

theorem makeHeader_pixoff (l : HdrLayout) (f : PixFmt) (c : Byte) (w hh : Word) :
    readLe32 (makeHeader l f c w hh) (offPixoff l) = BitVec.ofNat 32 (hdrSize l) := by
  cases l <;> simp only [readLe32, byteAt, makeHeader, magic, offPixoff, le32, List.cons_append, List.nil_append,
    Nat.reduceAdd, List.getD_cons_succ, List.getD_cons_zero] <;> exact le32_word _

theorem makeHeader_cksum (l : HdrLayout) (f : PixFmt) (c : Byte) (w hh : Word) :
    readLe16 (makeHeader l f c w hh) (offCksum l) = 0 := by
  cases l <;> simp only [readLe16, byteAt, makeHeader, magic, offCksum, List.cons_append, List.nil_append,
    Nat.reduceAdd, List.getD_cons_succ, List.getD_cons_zero] <;> rfl

/-- The six flags of HDR_VALID. -/
theorem hdrValidWord_all : hdrValidWord true true true true true true = 0x3F := by decide

/-- No check but the checksum's counts as a failed one (41_header.md R103). -/
theorem failedChecks_eq_zero {a b c d e f : Bool} :
    failedChecks (hdrValidWord a b c d e f) = 0 ↔ a = true ∧ b = true ∧ c = true ∧ d = true ∧ e = true := by
  revert a b c d e f
  decide

/-- The header checks a file-level command goes on with. -/
theorem fileHeaderPasses_iff {s : State} : fileHeaderPasses s ↔
    hdrSize s.cfg.layout ≤ s.regs.srcLen.toNat ∧
      failedChecks (validate s.cfg.layout s.srcHeader s.srcCksum) = 0 := by
  simp only [validate, failedChecks_eq_zero, fileHeaderPasses, magicOk, beq_iff_eq, Bool.or_eq_true, bne_iff_ne]
  rfl

/-! ## Checksums -/

/-- The loop over one more byte. -/
theorem cksumLoop_append (off : Nat) (s t : List Byte) (p : Nat) (s1 s2 : Byte) :
    cksumLoop off p s1 s2 (s ++ t) =
      cksumLoop off (p + s.length) (cksumLoop off p s1 s2 s).1 (cksumLoop off p s1 s2 s).2 t := by
  induction s generalizing p s1 s2 with
  | nil => rfl
  | cons c s ih =>
    simp only [List.cons_append, cksumLoop, ih, List.length_cons]
    rw [show p + 1 + s.length = p + (s.length + 1) by omega]

/-- The loop does not see the two bytes of the checksum field. -/
theorem cksumLoop_masked {off : Nat} {s t : List Byte} (hl : s.length = t.length) (p : Nat)
    (h : ∀ k, p + k ≠ off → p + k ≠ off + 1 → byteAt s k = byteAt t k) (s1 s2 : Byte) :
    cksumLoop off p s1 s2 s = cksumLoop off p s1 s2 t := by
  induction s generalizing t p s1 s2 with
  | nil =>
    obtain rfl : t = [] := List.eq_nil_of_length_eq_zero hl.symm
    rfl
  | cons b s ih =>
    cases t with
    | nil => simp at hl
    | cons c t =>
      have hb : (if p = off ∨ p = off + 1 then (0 : Byte) else b) = if p = off ∨ p = off + 1 then 0 else c := by
        split_ifs with hp
        · rfl
        · exact h 0 (by omega) (by omega)
      simp only [cksumLoop, hb]
      exact ih (by simpa using hl) _ (fun k h1 h2 => h (k + 1) (by omega) (by omega)) _ _

/-- Sequences that differ in the checksum field only have one checksum (42_checksum.md R123). -/
theorem cksum_masked {off : Nat} {s t : List Byte} (hl : s.length = t.length)
    (h : ∀ k, k ≠ off → k ≠ off + 1 → byteAt s k = byteAt t k) : cksum s off = cksum t off := by
  have := cksumLoop_masked (off := off) hl 0 (fun k h1 h2 => h k (by omega) (by omega)) 0 0
  simp only [cksum, this]

theorem cksum_patched {off : Nat} {s : List Byte} (h : off + 2 ≤ s.length) (v : BitVec 16) :
    cksum (patched s off (le16 v)) off = cksum s off := by
  refine cksum_masked (patched_length h) fun k h1 h2 => ?_
  rw [byteAt_patched h, if_neg (by simp only [le16_length]; omega)]

theorem readLe16_patched {off : Nat} {s : List Byte} (h : off + 2 ≤ s.length) (v : BitVec 16) :
    readLe16 (patched s off (le16 v)) off = v := by
  have h0 := byteAt_patched (bs := le16 v) h off
  have h1 := byteAt_patched (bs := le16 v) h (off + 1)
  rw [if_pos (by simp only [le16_length]; omega), Nat.sub_self] at h0
  rw [if_pos (by simp only [le16_length]; omega), Nat.add_sub_cancel_left] at h1
  simp only [readLe16, h0, h1]
  exact le16_word v

end Sys2Proof.Machine
end

