-- ==== Sys2Proof/Laws/Status.lean ====
section
/-! SUPPORT. The fields of STATUS, and its value after completion. -/

namespace Sys2Proof.Machine

/-- The flags of a STATUS word (10_state.md R24). -/
theorem statusWord_flags (b d e : Bool) (k : BitVec 4) (x : Byte) :
    (statusWord b d e k x).getLsbD 0 = b ∧ (statusWord b d e k x).getLsbD 1 = d ∧
      (statusWord b d e k x).getLsbD 2 = e := by
  refine ⟨?_, ?_, ?_⟩ <;> simp only [statusWord] <;> repeat rw [BitVec.getLsbD_append]
  all_goals simp

/-- ERRDETAIL of a STATUS word. -/
theorem statusWord_detail (b d e : Bool) (k : BitVec 4) (x : Byte) :
    (statusWord b d e k x).extractLsb' 8 8 = x := by
  refine BitVec.eq_of_getLsbD_eq fun i hi => ?_
  simp only [statusWord, BitVec.getLsbD_extractLsb', hi, decide_true, Bool.true_and]
  repeat rw [BitVec.getLsbD_append]
  rw [if_neg (by omega), if_neg (by omega), if_neg (by omega), if_neg (by omega), if_neg (by omega)]
  rw [if_pos (by omega)]
  congr 1
  omega

/-- BUSY, DONE and ERR after completion (60_exceptions.md R244). -/
theorem doneStatus_flags {r : Regs} {e : Option Err} (h : r.status = doneStatus e) :
    r.busy = false ∧ r.done = true ∧ r.err = e.isSome := by
  simp only [Regs.busy, Regs.done, Regs.err, h]
  cases e with
  | none => exact statusWord_flags _ _ _ _ _
  | some e => exact statusWord_flags _ _ _ _ _

/-- STATUS after an error is `6 + 16*kind + 256*detail` (60_exceptions.md R244). -/
theorem doneStatus_toNat (e : Err) :
    (doneStatus (some e)).toNat = 6 + 16 * e.kind.code.toNat + 256 * e.detail.toNat := by
  have h1 := e.kind.code.isLt
  have h2 := e.detail.isLt
  simp only [doneStatus, statusWord, BitVec.toNat_append, BitVec.toNat_ofBool, BitVec.toNat_ofNat]
  rw [← Nat.shiftLeft_add_eq_or_of_lt (by simp), ← Nat.shiftLeft_add_eq_or_of_lt (by simp),
    ← Nat.shiftLeft_add_eq_or_of_lt (by simp), ← Nat.shiftLeft_add_eq_or_of_lt (by simp),
    ← Nat.shiftLeft_add_eq_or_of_lt (by omega), ← Nat.shiftLeft_add_eq_or_of_lt (by omega)]
  simp only [Nat.shiftLeft_eq, Bool.toNat_true, Bool.toNat_false]
  omega

theorem acceptedStatus_busy {r : Regs} (h : r.status = acceptedStatus) : r.busy = true := by
  simp only [Regs.busy, h]
  decide

end Sys2Proof.Machine
end

