-- ==== Sys2Proof/Laws/Files.lean ====
section
/-! SUPPORT. What a file-level command leaves in memory, and the header a reader of that file finds. -/

namespace Sys2Proof.Machine

/-! ## A header is its fields -/

/-- The bytes of a stored word are the bytes it was read from. -/
theorem le32_readLe32 (s : List Byte) (o : Nat) :
    le32 (readLe32 s o) = [byteAt s o, byteAt s (o + 1), byteAt s (o + 2), byteAt s (o + 3)] := by
  have h8 : ∀ {n : Nat} (x : BitVec n) (y : Byte) (k m : Nat), k + m ≤ n →
      (x ++ y).extractLsb' (8 + k) m = x.extractLsb' k m := by
    intro n x y k m _
    refine BitVec.eq_of_getLsbD_eq fun i hi => ?_
    simp only [BitVec.getLsbD_extractLsb', hi, decide_true, Bool.true_and]
    rw [BitVec.getLsbD_append, if_neg (by omega)]
    congr 1
    omega
  have h1 : (readLe32 s o).extractLsb' 0 8 = byteAt s o := low_append _ _
  have h2 : (readLe32 s o).extractLsb' 8 8 = byteAt s (o + 1) := (h8 _ _ 0 8 (by omega)).trans (low_append _ _)
  have h3 : (readLe32 s o).extractLsb' 16 8 = byteAt s (o + 2) :=
    (h8 _ _ 8 8 (by omega)).trans ((h8 _ _ 0 8 (by omega)).trans (low_append _ _))
  have h4 : (readLe32 s o).extractLsb' 24 8 = byteAt s (o + 3) :=
    (h8 _ _ 16 8 (by omega)).trans ((h8 _ _ 8 8 (by omega)).trans (high_append _ _))
  simp only [le32, h1, h2, h3, h4]

theorem le16_readLe16 (s : List Byte) (o : Nat) : le16 (readLe16 s o) = [byteAt s o, byteAt s (o + 1)] := by
  have h1 : (readLe16 s o).extractLsb' 0 8 = byteAt s o := low_append _ _
  have h2 : (readLe16 s o).extractLsb' 8 8 = byteAt s (o + 1) := high_append _ _
  simp only [le16, h1, h2]

/-- A header with the right magic is its fields, one after another (30_encoding.md R84). -/
theorem header_eq {l : HdrLayout} {h : List Byte} (hl : h.length = hdrSize l) (hm : h.take (magicLen l) =
    magic l) :
   h = magic l ++ le16 (readLe16 h (offCksum l)) ++ [byteAt h (offPixfmt l), byteAt h (offComp l)] ++ le32
       (readLe32 h (offWidth l)) ++ le32 (readLe32 h (offHeight l)) ++ le32 (readLe32 h (offPixoff l)) := by
  rw [← hm, le16_readLe16, le32_readLe32, le32_readLe32, le32_readLe32]
  cases l
  · match h, hl with
    | [b0,b1,b2,b3,b4,b5,b6,b7,b8,b9,b10,b11,b12,b13,b14,b15,b16,b17,b18], _ => rfl
  · match h, hl with
    | [b0,b1,b2,b3,b4,b5,b6,b7,b8,b9,b10,b11,b12,b13,b14,b15,b16,b17,b18,b19], _ => rfl

/-- Past the patch, the bytes are the old ones. -/
theorem patched_drop {out bs : List Byte} {off n : Nat} (h : off + bs.length ≤ n) (ho : off ≤ out.length) :
    (patched out off bs).drop n = out.drop n := by
  have hl : (out.take off ++ bs).length = off + bs.length := by simp; omega
  simp only [patched]
  rw [List.drop_append, List.drop_of_length_le (by omega), List.nil_append, List.drop_drop, hl]
  congr 1; omega

/-- An output header with its checksum stamped is its fields, one after another. -/
theorem stamped_header (l : HdrLayout) (f : PixFmt) (c : Byte) (w hh : Word) (body : List Byte) (k :
    BitVec 16) :
  patched (makeHeader l f c w hh ++ body) (offCksum l) (le16 k) = magic l ++ le16 k ++
      [f.code, c] ++ le32 w ++ le32 hh ++ le32 (BitVec.ofNat 32 (hdrSize l)) ++ body := by
  cases l <;> rfl

/-- HDR_PARSE can run on the output of a command: the output lies in the destination window. -/
theorem windowsReady_hdrParse_of_output {s u : State} {i : Instr} (hc : u.cfg = s.cfg) (hb : u.regs.srcBase =
    s.regs.dstBase) (hl : u.regs.srcLen.toNat ≤ s.regs.dstCap.toNat)
  (hi : usesDst i = true) (h1 : windowRefusal i s = none) (h2 : checkWindows i s.regs = none) :
      windowsReady .hdrParse u = true := by
  rw [windowsReady_iff]
  have hd := (checkWindows_eq_none.1 h2).2.1 hi
  simp only [rangeEnd, Regs.dstWindow] at hd
  constructor
  · have hm : s.regs.dstWindow ∈ windowsOf i s.regs := by simp [windowsOf, hi]
    simp only [windowRefusal] at h1
    split_ifs at h1 with g1 g2
    simp at g1 g2
    have b1 := g1 _ hm
    have b2 := g2 _ hm
    have w : windowsOf .hdrParse u.regs = [u.regs.srcWindow] := rfl
    simp only [windowRefusal, w, List.any_cons, List.any_nil, Bool.or_false, hc]
    rw [if_neg, if_neg]
    · simp only [ordinary, Bool.not_not, List.any_eq_true, not_exists, not_and]
      intro d hd' ho
      have ho2 : ordinary s.cfg s.regs.dstWindow = false := by
        simp only [ordinary, Bool.not_eq_false', List.any_eq_true]
        refine ⟨d, hd', ?_⟩
        rw [overlap_eq_true] at ho ⊢
        simp only [clipped, rangeEnd, Regs.srcWindow, Regs.dstWindow, hb] at ho ⊢
        omega
      rw [b2] at ho2; simp at ho2
    · simp only [backs, Bool.not_eq_true', Bool.not_eq_false, coversFrom_iff] at b1 ⊢
      intro a ha1 ha2
      simp only [rangeEnd, Regs.srcWindow, Regs.dstWindow, hb] at ha1 ha2 b1
      exact b1 a ha1 (by omega)
  · rw [checkWindows_eq_none]
    refine ⟨fun _ => ?_, fun h => by simp [usesDst] at h, fun _ h => by simp [usesDst] at h⟩
    simp only [rangeEnd, Regs.srcWindow, hb]
    omega

/-- What a file-level command that succeeds leaves in memory. -/
theorem file_command_leaves {i : Instr} {s t : State} (hf : isFile i = true) (hm : s.mem.wf = true) (h :
    exec i s = .next t) (he : t.regs.err = false) :
  ∃ f2 c2 pix consumed body, windowRefusal i s = none ∧ checkWindows i s.regs = none ∧ fileHeaderPasses s ∧
      readBody s s.fileInfo = .ok (pix, consumed) ∧ (c2 = 0 ∨ c2 = 1) ∧
    t.cfg = s.cfg ∧ t.regs.dstBase = s.regs.dstBase ∧ t.regs.outLen.toNat =
        hdrSize s.cfg.layout + body.length ∧ hdrSize s.cfg.layout + body.length ≤ s.regs.dstCap.toNat ∧
    t.mem = s.mem.writeSeq s.regs.dstBase.toNat (patched
        (makeHeader s.cfg.layout f2 c2 s.fileInfo.w s.fileInfo.h ++ body) (offCksum s.cfg.layout)
       (le16 (cksum (makeHeader s.cfg.layout f2 c2 s.fileInfo.w s.fileInfo.h ++ body)
           (offCksum s.cfg.layout)))) ∧
    (i = .fileCompress → f2 = s.fileInfo.f ∧ c2 = 1 ∧
        encodeImage s.fileInfo.w.toNat s.fileInfo.f.bpp s.fileInfo.h.toNat pix = .ok body) ∧
    (i = .fileDecompress → f2 = s.fileInfo.f ∧ c2 = 0 ∧ body = pix) := by
  have hu : usesWindow i = true := by cases i <;> first | rfl | simp [isFile] at hf
  obtain ⟨hr, ⟨e, hc, rfl⟩ | ⟨hc, ⟨u, hb, rfl⟩ | ⟨u, e, -, -, -, rfl⟩⟩⟩ := exec_window_cases hu h
  · rw [(doneStatus_flags (e := some e) rfl).2.2] at he; simp at he
  · have main : ∃ (f2 : FileInfo → PixFmt) (c2 : FileInfo → Byte) (chg : FileInfo → List Byte → List Byte), commandBody i s = fileBody s f2 c2 chg ∧ (c2 s.fileInfo = 0 ∨ c2 s.fileInfo = 1 ∨ c2 s.fileInfo = s.fileInfo.c) ∧
       (i = .fileCompress → f2 s.fileInfo = s.fileInfo.f ∧ c2 s.fileInfo = 1 ∧ ∀ p, chg s.fileInfo p = p) ∧
       (i = .fileDecompress → f2 s.fileInfo = s.fileInfo.f ∧ c2 s.fileInfo = 0 ∧ ∀ p, chg s.fileInfo p = p) := by
      cases i with
      | fileCompress => exact ⟨fun i => i.f, fun _ => 1, fun _ p => p, rfl, (.inr (.inl rfl)), (fun _ => ⟨rfl, rfl, fun _ => rfl⟩), (by simp)⟩
      | fileDecompress => exact ⟨(fun i => i.f), (fun _ => 0), (fun _ p => p), rfl, (.inl rfl), (by simp), (fun _ => ⟨rfl, rfl, fun _ => rfl⟩)⟩
      | fileConvert df => exact ⟨(fun _ => df), (fun i => i.c), (fun i p => convert p i.f df), rfl, (.inr (.inr rfl)), (by simp), (by simp)⟩
      | _ => simp [isFile] at hf
    · obtain ⟨f2, c2, chg, hbd, hc2, hi1, hi2⟩ := main
      rw [hbd] at hb
      obtain ⟨pix, consumed, body, h1, h2, h3, h4, h5⟩ := fileBody_ok.1 hb
      obtain ⟨h6, rfl⟩ := fileBack_ok.1 h5
      have hp := fileHeaderPasses_iff.2 ⟨h1, h2⟩
      simp only [parsePoint_cfg, parsePoint_regs] at h6
      have hlen : (makeHeader s.cfg.layout (f2 s.fileInfo) (c2 s.fileInfo) s.fileInfo.w s.fileInfo.h ++ body).length = hdrSize s.cfg.layout + body.length := by
        rw [List.length_append, makeHeader_length]
      have hcap := s.regs.dstCap.isLt
      have hl : offCksum s.cfg.layout + 2 ≤ (makeHeader s.cfg.layout (f2 s.fileInfo) (c2 s.fileInfo) s.fileInfo.w s.fileInfo.h ++ body).length := by
        rw [hlen]; have := offCksum_lt s.cfg.layout; omega
      refine ⟨f2 s.fileInfo, c2 s.fileInfo, pix, consumed, body, hr, hc, hp, h3, ?_, by simp, by simp, ?_, ?_, ?_, ?_, ?_⟩
      · rcases hc2 with h | h | h
        · exact .inl h
        · exact .inr h
        · rw [h]; exact hp.2.2.2.1
      · simp only [complete_regs, setLengths_regs, parsePoint_cfg, hlen, BitVec.toNat_ofNat]; exact Nat.mod_eq_of_lt (by omega)
      · omega
      · simp only [complete_mem, setLengths_mem, stamp_mem, dstWrite_mem, dstWrite_regs, dstWrite_cfg, parsePoint_cfg, parsePoint_mem, parsePoint_regs, State.dstSeq, Nat.add_zero]
        rw [Memory.readSeq_writeSeq _ _ _, Memory.writeSeq_writeSeq hm hl]
      · intro hi; obtain ⟨e1, e2, e3⟩ := hi1 hi; refine ⟨e1, e2, ?_⟩
        rw [e2, e1, e3] at h4; simpa [writeBody] using h4
      · intro hi; obtain ⟨e1, e2, e3⟩ := hi2 hi; refine ⟨e1, e2, ?_⟩
        rw [e2, e1, e3] at h4; simp [writeBody] at h4; exact h4.symm
  · rw [(doneStatus_flags (e := some e) (by rw [raise_regs])).2.2] at he; simp at he

/-- The fields a reader of an output file finds in its header. -/
theorem stamped_header_fields {l : HdrLayout} {f : PixFmt} {c : Byte} {w hh : Word} {body : List Byte} {ck :
    BitVec 16} (F h : List Byte)
  (hF : F = patched (makeHeader l f c w hh ++ body) (offCksum l) (le16 ck)) (hh' : h = F.take (hdrSize l)) :
  h.take (magicLen l) = magic l ∧ byteAt h (offPixfmt l) = f.code ∧ byteAt h (offComp l) = c ∧ readLe32 h
      (offWidth l) = w ∧ readLe32 h (offHeight l) = hh ∧ readLe16 h (offCksum l) = ck := by
  have hm := makeHeader_length l f c w hh
  have hl : offCksum l + (le16 ck).length ≤ (makeHeader l f c w hh ++ body).length := by
    rw [List.length_append, hm]; have := offCksum_lt l; simp; omega
  have key : ∀ k, k < hdrSize l → (k < offCksum l ∨ offCksum l + 2 ≤ k) → byteAt h k = byteAt (makeHeader l f c w hh) k := by
    intro k hk hk2
    rw [hh', byteAt_take hk, hF, byteAt_patched hl, if_neg (by simp; omega), byteAt_append_left (by omega)]
  obtain ⟨m1, m2, m3⟩ := makeHeader_bytes l f c w hh
  have hlen : h.length = hdrSize l := by rw [hh', hF, List.length_take, patched_length hl, List.length_append, hm]; omega
  refine ⟨?_, ?_, ?_, ?_, ?_, ?_⟩
  · rw [← m1]
    apply List.ext_getElem
    · simp [hlen, hm]
    · intro k hk1 hk2
      simp at hk1 hk2
      have := key k (by omega) (.inl (by cases l <;> simp [magicLen, offCksum] at * <;> omega))
      simp only [byteAt, List.getD_eq_getElem?_getD] at this
      rw [List.getElem?_eq_getElem (by omega), List.getElem?_eq_getElem (by omega)] at this
      simpa using this
  · rw [← m2]; exact key _ (by cases l <;> decide) (.inr (by cases l <;> decide))
  · conv_rhs => rw [← m3]
    exact key _ (by cases l <;> decide) (.inr (by cases l <;> decide))
  · conv_rhs => rw [← makeHeader_width l f c w hh]
    exact readLe32_congr fun k h1 h2 => key k (by cases l <;> simp [offWidth, hdrSize] at * <;> omega) (.inr (by cases l <;> simp [offWidth, offCksum] at * <;> omega))
  · conv_rhs => rw [← makeHeader_height l f c w hh]
    exact readLe32_congr fun k h1 h2 => key k (by cases l <;> simp [offHeight, hdrSize] at * <;> omega) (.inr (by cases l <;> simp [offHeight, offCksum] at * <;> omega))
  · rw [← readLe16_patched (s := makeHeader l f c w hh ++ body) (off := offCksum l) (by simpa using hl) ck]
    refine readLe16_congr fun k h1 h2 => ?_
    rw [hh', byteAt_take (by have := offCksum_lt l; omega), hF]

/-- The source window of a reader placed on bytes just written holds those bytes. -/
theorem srcSeq_written {m : Memory} {a : Nat} {F : List Byte} {u : State} (hu : u.mem =
    m.writeSeq a F) (hb : u.regs.srcBase.toNat = a) : u.srcSeq 0 F.length = F := by
  simp only [State.srcSeq, hu, hb, Nat.add_zero]; exact Memory.readSeq_writeSeq _ _ _

end Sys2Proof.Machine
end

