-- ==== Sys2Proof/Laws/Step.lean ====
section
/-! SUPPORT. What a step can do: one lemma per way a step goes, and what no step changes. -/

namespace Sys2Proof.Machine

/-- Outside a row, a step takes the next input. -/
theorem step_input {s : State} {i : Input} {rest : List Input} (hr : s.row = none) (hi : s.env.inputs = i :: rest) :
    step s = inputStep i rest s := by
  simp only [step, hr, hi]

/-- Outside a row, with no input to come, a step is the engine's. -/
theorem step_engine {s : State} (hr : s.row = none) (hi : s.env.inputs = []) : step s = engineStep s := by
  simp only [step, hr, hi]

/-- Inside a row, a step is the row decoder's. -/
theorem step_row {s : State} {r : RowCtx} (hr : s.row = some r) : step s = rowStep r s := by
  simp only [step, hr]

/-- The register at an offset is the one with that offset. -/
theorem RegName.ofOffset_eq_some {off : Nat} {n : RegName} : RegName.ofOffset off = some n ↔ n.offset = off := by
  constructor
  · intro h
    have := List.find?_some h
    simpa using this
  · rintro rfl
    cases n <;> rfl

/-- An error inside a row: the registers it leaves. -/
theorem raiseInRow_regs (s : State) (e : Err) :
    (s.raiseInRow e).regs = { s.regs with outLen := 0, inPos := 0, status := doneStatus (some e) } := by
  simp only [State.raiseInRow]
  split
  · rfl
  · rfl

theorem raiseInRow_rest (s : State) (e : Err) :
    (s.raiseInRow e).env = s.env ∧ (s.raiseInRow e).cfg = s.cfg ∧ (s.raiseInRow e).pending = none ∧
      (s.raiseInRow e).row = none := by
  simp only [State.raiseInRow]
  split
  · exact ⟨rfl, rfl, rfl, rfl⟩
  · exact ⟨rfl, rfl, rfl, rfl⟩

/-- An error inside a row keeps memory's form; past CheckWindows it leaves the destination window unspecified, and
in any case every byte outside it alone. -/
theorem raiseInRow_mem {s : State} (e : Err) (hm : s.mem.wf = true) :
    (s.raiseInRow e).mem.wf = true ∧
      (∀ a, inRange s.regs.dstWindow a = false → (s.raiseInRow e).mem.read a = s.mem.read a) ∧
      (s.mem.inSpace = true → (s.raiseInRow e).mem.inSpace = true) ∧
      (checkWindows .rowDec s.regs = none → dstUnspecified .rowDec s (s.raiseInRow e)) := by
  simp only [State.raiseInRow]
  split
  · exact ⟨raise_wf hm, (raise_dst s _ e).2.1, raise_inSpace, fun _ => raise_dst s _ e⟩
  · rename_i hc
    exact ⟨hm, fun _ _ => rfl, fun hs => hs, fun h => absurd h (by simpa using hc)⟩

/-- No instruction touches the outside world or the parameters. -/
theorem exec_env {i : Instr} {s t : State} (h : exec i s = .next t) : t.env = s.env ∧ t.cfg = s.cfg := by
  by_cases hw : usesWindow i = true
  · obtain ⟨-, ⟨e, -, rfl⟩ | ⟨-, ⟨u, hu, rfl⟩ | ⟨u, e, -, -, hu, rfl⟩⟩⟩ := exec_window_cases hw h
    · exact ⟨rfl, rfl⟩
    · have := commandBody_frame hw hu
      exact ⟨this.env, this.cfg⟩
    · rcases hu with rfl | ⟨-, rfl⟩ <;> exact ⟨rfl, rfl⟩
  · cases i <;> simp only [usesWindow, usesSrc, usesDst, Bool.or_self, Bool.or_true, Bool.or_false, not_true_eq_false,
      not_false_eq_true, Bool.false_eq_true] at hw
    · simp only [exec, execNop, Host.Outcome.next.injEq] at h
      subst h
      exact ⟨rfl, rfl⟩
    · simp only [exec, execReserved43, Host.Outcome.next.injEq] at h
      subst h
      exact ⟨rfl, rfl⟩
    all_goals
      simp only [exec, execLiteralBlock, execRepeatBlock, Host.Outcome.next.injEq] at h
      subst h
      simp only [State.stepRow]
      split
      · exact ⟨rfl, rfl⟩
      · exact ⟨(raiseInRow_rest _ _).1, (raiseInRow_rest _ _).2.1⟩

/-- The engine's step does not touch the outside world or the parameters. -/
theorem engineStep_env {s t : State} (h : engineStep s = .next t) : t.env = s.env ∧ t.cfg = s.cfg := by
  simp only [engineStep] at h
  split at h
  · simp only [Host.Outcome.next.injEq] at h
    subst h
    exact ⟨rfl, rfl⟩
  · split at h
    · exact exec_env h
    · simp only [Host.Outcome.next.injEq] at h
      subst h
      exact ⟨rfl, rfl⟩

/-- Nor does the row decoder's. -/
theorem rowStep_env {r : RowCtx} {s t : State} (h : rowStep r s = .next t) : t.env = s.env ∧ t.cfg = s.cfg := by
  simp only [rowStep] at h
  split at h
  · split at h
    · exact exec_env h
    · simp only [Host.Outcome.next.injEq] at h
      subst h
      exact ⟨(raiseInRow_rest _ _).1, (raiseInRow_rest _ _).2.1⟩
  · simp only [Host.Outcome.next.injEq] at h
    subst h
    simp only [State.finishRow]
    split
    · exact ⟨rfl, rfl⟩
    · exact ⟨(raiseInRow_rest _ _).1, (raiseInRow_rest _ _).2.1⟩

/-- A command's step that answers a next state has changed memory only in the destination window, and nowhere in a
source window that it uses. -/
theorem exec_window_mem {i : Instr} {s t : State} (hm : s.mem.wf = true) (hw : usesWindow i = true)
    (h : exec i s = .next t) :
    (∀ a, inRange s.regs.dstWindow a = false → t.mem.read a = s.mem.read a) ∧
      (usesSrc i = true → ∀ a, inRange s.regs.srcWindow a = true → t.mem.read a = s.mem.read a) := by
  obtain ⟨-, ⟨e, -, rfl⟩ | ⟨hc, ⟨u, hu, rfl⟩ | ⟨u, e, -, -, rfl | ⟨-, rfl⟩, rfl⟩⟩⟩ := exec_window_cases hw h
  · exact ⟨fun _ _ => rfl, fun _ _ _ => rfl⟩
  · have hk := (commandBody_keeps hm hw hu).2.1
    refine ⟨hk, fun hs a ha => ?_⟩
    rcases commandBody_mem hm hw hu with ⟨-, h1⟩ | ⟨rfl, -⟩ | ⟨hd, -⟩
    · exact congrArg (Memory.read · a) h1
    · simp [usesSrc] at hs
    · exact hk a (overlap_eq_false ((checkWindows_eq_none.1 hc).2.2 hs hd) ha)
  · exact (raise_dst _ i e).2
  · exact (raise_dst s.parsePoint i e).2

/-- What the engine's step on a pending word leaves: nothing pending, no row, every byte outside the destination
window as it was, and the bytes of a source window it uses as they were (20_memory.md R51). -/
theorem engineStep_facts {s t : State} {w : Word} (hm : s.mem.wf = true) (hp : s.pending = some w)
    (h : engineStep s = .next t) :
    t.pending = none ∧ t.row = none ∧
      (∀ a, inRange s.regs.dstWindow a = false → t.mem.read a = s.mem.read a) ∧
      (∀ i, decodeCommand w = .ok i → usesSrc i = true →
        ∀ a, inRange s.regs.srcWindow a = true → t.mem.read a = s.mem.read a) := by
  simp only [engineStep, hp] at h
  split at h
  · rename_i i hi
    have hsame : t.mem = s.mem → (∀ a, inRange s.regs.dstWindow a = false → t.mem.read a = s.mem.read a) ∧
        (∀ i, decodeCommand w = .ok i → usesSrc i = true →
          ∀ a, inRange s.regs.srcWindow a = true → t.mem.read a = s.mem.read a) := fun e =>
      ⟨fun _ _ => by rw [e], fun _ _ _ _ _ => by rw [e]⟩
    by_cases hw : usesWindow i = true
    · have hend : t.pending = none ∧ t.row = none := by
        obtain ⟨-, ⟨e, -, rfl⟩ | ⟨-, ⟨u, -, rfl⟩ | ⟨u, e, -, -, -, rfl⟩⟩⟩ := exec_window_cases hw h
        · exact ⟨rfl, rfl⟩
        · exact ⟨rfl, rfl⟩
        · exact ⟨rfl, rfl⟩
      obtain ⟨h1, h2⟩ := exec_window_mem hm hw h
      refine ⟨hend.1, hend.2, h1, fun j hj => ?_⟩
      rw [hi, Except.ok.injEq] at hj
      exact hj ▸ h2
    · obtain ⟨v, hv⟩ := decodeCommand_encode hi
      cases i <;> simp only [usesWindow, usesSrc, usesDst, Bool.or_self, Bool.or_true, Bool.or_false, not_true_eq_false,
        not_false_eq_true, Bool.false_eq_true] at hw
      · simp only [exec, execNop, Host.Outcome.next.injEq] at h
        subst h
        exact ⟨rfl, rfl, hsame rfl⟩
      · simp only [exec, execReserved43, Host.Outcome.next.injEq] at h
        subst h
        exact ⟨rfl, rfl, hsame rfl⟩
      all_goals simp [encode] at hv
  · simp only [Host.Outcome.next.injEq] at h
    subst h
    exact ⟨rfl, rfl, fun _ _ => rfl, fun _ _ _ _ _ => rfl⟩

/-- The windows a word's command uses start inside the address space. -/
theorem wordWindows_base {w : Word} {r : Regs} {x : AddrRange} (h : x ∈ wordWindows w r) : x.base < 4294967296 := by
  have hs := r.srcBase.isLt
  have hd := r.dstBase.isLt
  simp only [wordWindows] at h
  split at h
  · simp only [windowsOf, List.mem_append] at h
    rcases h with h | h
    · split at h <;> simp only [List.mem_singleton, List.not_mem_nil] at h
      subst h
      exact hs
    · split at h <;> simp only [List.mem_singleton, List.not_mem_nil] at h
      subst h
      exact hd
  · simp at h

/-- What a reset does to the memory of an interrupted command (log 8): it changes only bytes of the
windows that command uses, and with no command pending nothing. -/
theorem interrupt_facts (s : State) :
    s.interrupt.cfg = s.cfg ∧ s.interrupt.env = s.env ∧ (s.pending = none → s.interrupt = s) ∧
      (∀ w, s.pending = some w → ∀ a, (∀ r ∈ wordWindows w s.regs, inRange r a = false) →
        s.interrupt.mem.read a = s.mem.read a) ∧
      (s.mem.wf = true → s.interrupt.mem.wf = true) ∧
      (s.mem.inSpace = true → s.interrupt.mem.inSpace = true) := by
  simp only [State.interrupt]
  split
  · rename_i hp
    simp [hp]
  · rename_i w hp
    obtain ⟨h1, h2, h3, h4, h5⟩ := drawRanges_facts ((wordWindows w s.regs).map clipped) s
    refine ⟨h1, h2, by simp [hp], fun w' hw a ha => h3 a fun r hr => ?_, h4, fun hs => h5 hs fun r hr => ?_⟩
    · obtain ⟨x, hx, rfl⟩ := List.mem_map.1 hr
      rw [hp, Option.some.injEq] at hw
      exact (clipped_facts x (wordWindows_base hx)).2.1 a (ha x (hw ▸ hx))
    · obtain ⟨x, hx, rfl⟩ := List.mem_map.1 hr
      exact (clipped_facts x (wordWindows_base hx)).1

/-- Inside a window of the interrupted command, every byte of the address space is a free value. -/
theorem interrupt_read_free {s : State} {w : Word} (hp : s.pending = some w) {a : Nat} (hlt : a < 4294967296)
    (ha : ∃ r ∈ wordWindows w s.regs, inRange r a = true) :
    ∃ k, s.draws ≤ k ∧ k < s.interrupt.draws ∧ s.interrupt.mem.read a = Config.freeByte k := by
  obtain ⟨r, hr, hin⟩ := ha
  simp only [State.interrupt, hp]
  exact drawRanges_read_free ⟨clipped r, List.mem_map_of_mem hr, (clipped_facts r (wordWindows_base hr)).2.2 a hlt hin⟩

end Sys2Proof.Machine
end

