-- ==== Sys2Proof/Laws/Invariant.lean ====
section
/-! SUPPORT. The invariant of Safety.lean, part by part: the state a command ends in, the zero fields, the
row decoder, the host's register writes. -/

namespace Sys2Proof.Machine

theorem State.inv_iff (s : State) : s.inv = true ↔
    s.mem.wf = true ∧ s.mem.inSpace = true ∧ (∀ c ∈ s.env.hostBuf, c.1 < 4294967296) ∧
      statusLegal s.regs.status = true ∧ s.pending.isSome = s.regs.busy ∧ zeroFields s.regs = true ∧
      pendingLegal s = true ∧ rowLegal s = true := by
  simp only [State.inv, Bool.and_eq_true, List.all_eq_true, decide_eq_true_eq, beq_iff_eq, and_assoc]

/-- STATUS after a listed error is legal. -/
theorem statusLegal_error {e : Err} (h : listedErr e = true) : statusLegal (doneStatus (some e)) = true := by
  simp only [statusLegal, Bool.or_eq_true, List.any_eq_true, Bool.and_eq_true, beq_iff_eq]
  have hd : (doneStatus (some e)).extractLsb' 8 8 = e.detail := statusWord_detail _ _ _ _ _
  refine .inr ⟨e.kind, ?_, ?_, ?_⟩
  · cases e.kind <;> decide
  · rw [hd]
  · rw [hd]
    exact h

/-- A state in which a command has ended meets the invariant. -/
theorem inv_of_done {t : State} {e : Option Err} (hm : t.mem.wf = true) (hs : t.mem.inSpace = true)
    (hb : ∀ c ∈ t.env.hostBuf, c.1 < 4294967296) (hst : t.regs.status = doneStatus e)
    (he : ∀ x, e = some x → listedErr x = true) (hp : t.pending = none) (hr : t.row = none)
    (hz : zeroFields t.regs = true) : t.inv = true := by
  rw [State.inv_iff]
  refine ⟨hm, hs, hb, ?_, ?_, hz, ?_, ?_⟩
  · rw [hst]
    cases e with
    | none => decide
    | some x => exact statusLegal_error (he x rfl)
  · rw [hp, (doneStatus_flags hst).1]
    rfl
  · simp only [pendingLegal, hp]
  · simp only [rowLegal, hr]

/-! ## The zero fields -/

theorem zeroFields_iff (r : Regs) : zeroFields r = true ↔
    r.fmt.extractLsb' 16 16 = 0 ∧ r.hdrValid.extractLsb' 6 26 = 0 ∧ r.hdrCksum.extractLsb' 16 16 = 0 ∧
      r.calcCksum.extractLsb' 16 16 = 0 ∧ r.outCksum.extractLsb' 16 16 = 0 := by
  simp only [zeroFields, Bool.and_eq_true, beq_iff_eq, and_assoc]

theorem upper_setWidth (v : BitVec 16) : (v.setWidth 32).extractLsb' 16 16 = 0 := by
  refine BitVec.eq_of_getLsbD_eq fun i hi => ?_
  simp only [BitVec.getLsbD_extractLsb', BitVec.getLsbD_setWidth]
  rw [BitVec.getLsbD_of_ge v _ (by omega)]
  simp

theorem upper_fmtWord (a b : Byte) : (fmtWord a b).extractLsb' 16 16 = 0 := by
  refine BitVec.eq_of_getLsbD_eq fun i hi => ?_
  simp only [fmtWord, BitVec.getLsbD_extractLsb']
  rw [BitVec.getLsbD_append, if_neg (by omega), BitVec.getLsbD_append, if_neg (by omega)]
  simp

theorem upper_hdrValidWord (a b c d e f : Bool) : (hdrValidWord a b c d e f).extractLsb' 6 26 = 0 := by
  revert a b c d e f
  decide

theorem upper_setPixfmt {w : Word} (df : PixFmt) (h : w.extractLsb' 16 16 = 0) :
    (setPixfmt w df).extractLsb' 16 16 = 0 := by
  rw [← h]
  refine BitVec.eq_of_getLsbD_eq fun i hi => ?_
  simp only [setPixfmt, BitVec.getLsbD_extractLsb']
  rw [BitVec.getLsbD_append, if_neg (by omega), BitVec.getLsbD_extractLsb', show 8 + (16 + i - 8) = 16 + i by omega]
  simp [hi, show 16 + i - 8 < 24 by omega]

theorem zeroFields_parsePoint {s : State} (h : zeroFields s.regs = true) : zeroFields s.parsePoint.regs =
    true := by
  rw [zeroFields_iff] at h ⊢
  simp only [parsePoint_regs]
  exact ⟨upper_fmtWord _ _, upper_hdrValidWord _ _ _ _ _ _, upper_setWidth _, upper_setWidth _, h.2.2.2.2⟩

/-- A successful body keeps the zero fields zero. -/
theorem zeroFields_body {i : Instr} {s u : State} (hw : usesWindow i = true) (hu : commandBody i s = .ok u)
    (h : zeroFields s.regs = true) : zeroFields u.regs = true := by
  have hp := (zeroFields_iff _).1 (zeroFields_parsePoint h)
  have h' := (zeroFields_iff _).1 h
  rcases commandBody_ok hw hu with ⟨rfl, -, rfl⟩ | ⟨rfl, rfl⟩ | ⟨rfl, h1, rfl⟩ | ⟨hi, out, p, h1, rfl⟩ |
    ⟨df, out, p, rfl, h1, rfl⟩ | ⟨hi, f2, c2, body, consumed, h1, rfl⟩ <;> rw [zeroFields_iff]
  · exact hp
  · exact ⟨h'.1, h'.2.1, h'.2.2.1, upper_setWidth _, h'.2.2.2.2⟩
  · exact ⟨h'.1, h'.2.1, h'.2.2.1, h'.2.2.2.1, upper_setWidth _⟩
  · exact h'
  · exact ⟨upper_setPixfmt _ h'.1, h'.2⟩
  · exact ⟨hp.1, hp.2.1, hp.2.2.1, hp.2.2.2.1, upper_setWidth _⟩

/-- An error inside a row keeps the invariant. -/
theorem inv_raiseInRow {s : State} {e : Err} (h : s.inv = true) (he : listedErr e = true) :
    (s.raiseInRow e).inv = true := by
  obtain ⟨h1, h2, h3, h4, h5, h6, h7, h8⟩ := (State.inv_iff s).1 h
  obtain ⟨g1, g2, g3, g4⟩ := raiseInRow_rest s e
  obtain ⟨k1, -, k3, -⟩ := raiseInRow_mem e h1
  exact inv_of_done (e := some e) k1 (k3 h2) (by rw [g1]; exact h3) (by rw [raiseInRow_regs]) (by rintro x ⟨⟩; exact he) g3 g4 (by rw [raiseInRow_regs]; exact h6)

/-- One block in a row keeps the invariant. -/
theorem inv_stepRow {b : Block} {s : State} (h : s.inv = true) (hr : s.row.isSome = true) : (s.stepRow
    (applyBlock b)).inv = true := by
  obtain ⟨h1, h2, h3, h4, h5, h6, h7, h8⟩ := (State.inv_iff s).1 h
  simp only [State.stepRow]
  split
  · rename_i r' hr'
    rw [State.inv_iff]
    refine ⟨h1, h2, h3, h4, h5, h6, h7, ?_⟩
    cases hrow : s.row with
    | none => rw [hrow] at hr; simp at hr
    | some r =>
      simp only [rowLegal, hrow, Bool.and_eq_true, decide_eq_true_eq, beq_iff_eq] at h8 ⊢
      rw [hrow] at hr'
      obtain ⟨e1, e2⟩ := applyBlock_ok hr'
      simp only [Option.getD_some] at e1
      refine ⟨⟨⟨⟨h8.1.1.1.1, h8.1.1.1.2⟩, ?_⟩, ?_⟩, e2⟩
      · rw [e1]; exact h8.1.1.2
      · rw [e1]; simp only [List.length_append]; rw [h8.1.2]
  · rename_i e he
    exact inv_raiseInRow h (by rcases applyBlock_error he with rfl | rfl <;> rfl)

/-- An instruction keeps the invariant: a command, or a block inside a row. -/
theorem inv_exec {i : Instr} {s t : State} (h : s.inv = true) (he : exec i s = .next t) (hb : (∃ v, encode i =
    .command v) ∨ s.row.isSome = true) : t.inv = true := by
  obtain ⟨h1, h2, h3, h4, h5, h6, h7, h8⟩ := (State.inv_iff s).1 h
  by_cases hw : usesWindow i = true
  · obtain ⟨-, ⟨e, hc, rfl⟩ | ⟨hc, ⟨u, hu, rfl⟩ | ⟨u, e, -, hl, hu, rfl⟩⟩⟩ := exec_window_cases hw he
    · exact inv_of_done (e := some e) h1 h2 h3 rfl (by rintro x ⟨⟩; rcases checkWindows_eq_some hc with rfl | rfl | rfl <;> rfl) rfl rfl h6
    · obtain ⟨k1, k2, k3⟩ := commandBody_keeps h1 hw hu
      have f := commandBody_frame hw hu
      exact inv_of_done (e := none) k1 (k3 h2 (checkWindows_eq_none.1 hc).2.1) (by rw [complete_env, f.env]; exact h3) rfl (by simp) rfl rfl (by have := zeroFields_body hw hu h6; exact this)
    · have : u.mem = s.mem ∧ u.regs.dstWindow = s.regs.dstWindow ∧ u.env = s.env ∧ zeroFields u.regs = true := by
        rcases hu with rfl | ⟨-, rfl⟩
        · exact ⟨rfl, rfl, rfl, h6⟩
        · exact ⟨rfl, rfl, rfl, zeroFields_parsePoint h6⟩
      obtain ⟨g1, g2, g3, g4⟩ := this
      refine inv_of_done (e := some e) (raise_wf (g1 ▸ h1)) ?_ (by rw [raise_env, g3]; exact h3) (by rw [raise_regs]) (by rintro x ⟨⟩; exact hl) rfl rfl (by rw [raise_regs]; exact g4)
      exact raise_inSpace (g1 ▸ h2)
  · cases i with
    | nop => simp [exec, execNop] at he; subst he
             exact inv_of_done (e := none) h1 h2 h3 rfl (by simp) rfl rfl h6
    | reserved43 r => 
      simp [exec, execReserved43] at he; subst he
      exact inv_of_done (e := some (.illegal 1)) h1 h2 h3 rfl (by rintro x ⟨⟩; rfl) rfl rfl h6
    | literalBlock m px => 
      have hr : s.row.isSome = true := by rcases hb with ⟨v, hv⟩ | hb; simp [encode] at hv; exact hb
      simp [exec, execLiteralBlock] at he; subst he
      exact inv_stepRow (b := .lit m px) h hr
    | repeatBlock m px => 
      have hr : s.row.isSome = true := by rcases hb with ⟨v, hv⟩ | hb; simp [encode] at hv; exact hb
      simp [exec, execRepeatBlock] at he; subst he
      exact inv_stepRow (b := .rep m px) h hr
    | _ => simp [usesWindow, usesSrc, usesDst] at hw

/-- The engine's step keeps the invariant. -/
theorem inv_engine {s t : State} (h : s.inv = true) (he : engineStep s = .next t) : t.inv = true := by
  obtain ⟨h1, h2, h3, h4, h5, h6, h7, h8⟩ := (State.inv_iff s).1 h
  simp only [engineStep] at he
  split at he
  · simp at he; subst he; exact h
  · split at he
    · rename_i i hd
      exact inv_exec h he (.inl (decodeCommand_encode hd))
    · rename_i e hd
      simp at he; subst he
      exact inv_of_done (e := some (decodeErr e)) h1 h2 h3 rfl (by rintro x ⟨⟩; cases e <;> rfl) rfl rfl h6

/-- A word's windows depend on the window registers only. -/
theorem wordWindows_congr (w : Word) {r r' : Regs} (h1 : r'.srcWindow = r.srcWindow) (h2 : r'.dstWindow =
    r.dstWindow) : wordWindows w r' = wordWindows w r := by
  simp only [wordWindows, windowsOf, h1, h2]

/-- BUSY is a bit of STATUS. -/
theorem busy_congr {r r' : Regs} (h : r'.status = r.status) : r'.busy = r.busy := by
  simp only [Regs.busy, h]

/-- A host's register write while BUSY = 0 keeps the invariant. -/
theorem inv_hostWrite {s : State} (h : s.inv = true) (hb : s.regs.busy = false) (n : RegName) (v : Word) :
    ({ s with regs := s.regs.hostWrite n v } : State).inv = true := by
  obtain ⟨h1, h2, h3, h4, h5, h6, h7, h8⟩ := (State.inv_iff s).1 h
  have hst : (s.regs.hostWrite n v).status = s.regs.status := by cases n <;> rfl
  have hp : s.pending = none := by rw [hb] at h5; simpa using h5
  rw [State.inv_iff]
  refine ⟨h1, h2, h3, by rw [hst]; exact h4, by rw [busy_congr hst]; exact h5, ?_, ?_, ?_⟩
  · rw [zeroFields_iff] at h6 ⊢
    cases n <;> first | exact h6 | exact ⟨upper_fmtWord _ _, h6.2⟩
  · simp only [pendingLegal, hp]
  · cases hr : s.row with
    | none => simp [rowLegal]
    | some r => simp [rowLegal, hr, hb] at h8

end Sys2Proof.Machine
end

