-- ==== Sys2Proof/Laws/PerInstr.lean ====
section
/-! SUPPORT. One lemma per instruction: the encoding each instruction has. -/

namespace Sys2Proof.Laws.LegalEncoding

/-- The opcodes of 30_encoding.md R74 and the reserved 0x43 of R79. -/
def opcodes : List Byte :=
  [0x00, 0x01, 0x02, 0x03, 0x10, 0x11, 0x20, 0x21, 0x30, 0x40, 0x41, 0x42, 0x43]

/-- A command's word has an OPC of the map, and RSVD 0 but in the reserved slot; a block's first byte
is 0 exactly when it is a literal block with a well-formed count (30_encoding.md R72, R74, R79, R80). -/
def Statement (i : Instr) : Prop :=
  (∀ w, encode i = .command w →
    opcField w ∈ opcodes ∧ (rsvdField w = 0 ∨ opcField w = 0x43)) ∧
  ∀ bs, encode i = .block bs → i.wellFormed = true → (bs.head? = some 0 ↔ ∃ m px, i = .literalBlock m px)

/-- A command word with RSVD 0 and an OPC of the map is legally encoded. -/
theorem of_word {i : Instr} {w : Word} (h : encode i = .command w) (ho : opcField w ∈ opcodes)
    (hr : rsvdField w = 0 ∨ opcField w = 0x43) : Statement i := by
  refine ⟨fun v hv => ?_, fun bs hb => ?_⟩
  · rw [h] at hv
    cases hv
    exact ⟨ho, hr⟩
  · rw [h] at hb
    cases hb

theorem nop : Statement .nop := of_word rfl (by decide) (by decide)

theorem hdrParse : Statement .hdrParse := of_word rfl (by decide) (by decide)

theorem cksum : Statement .cksum := of_word rfl (by decide) (by decide)

theorem cksumStamp : Statement .cksumStamp := of_word rfl (by decide) (by decide)

theorem rowEnc : Statement .rowEnc := of_word rfl (by decide) (by decide)

theorem rowDec : Statement .rowDec := of_word rfl (by decide) (by decide)

theorem imgEnc : Statement .imgEnc := of_word rfl (by decide) (by decide)

theorem imgDec : Statement .imgDec := of_word rfl (by decide) (by decide)

theorem cvt (df : PixFmt) : Statement (.cvt df) := by
  cases df <;> exact of_word rfl (by decide) (by decide)

theorem fileCompress : Statement .fileCompress := of_word rfl (by decide) (by decide)

theorem fileDecompress : Statement .fileDecompress := of_word rfl (by decide) (by decide)

theorem fileConvert (df : PixFmt) : Statement (.fileConvert df) := by
  cases df <;> exact of_word rfl (by decide) (by decide)

theorem reserved43 (rest : BitVec 24) : Statement (.reserved43 rest) := by
  have h : opcField (rest ++ 0x43#8) = 0x43 := opcField_append rest 0x43
  exact of_word rfl (by rw [h]; decide) (.inr h)

theorem literalBlock (m : Byte) (px : List Byte) : Statement (.literalBlock m px) := by
  refine ⟨fun w h => (by cases h), fun bs h _ => ?_⟩
  cases h
  exact ⟨fun _ => ⟨m, px, rfl⟩, fun _ => rfl⟩

theorem repeatBlock (n : Byte) (px : List Byte) : Statement (.repeatBlock n px) := by
  refine ⟨fun w h => (by cases h), fun bs h hw => ?_⟩
  cases h
  have hn : n ≠ 0 := by
    rintro rfl
    simp [Instr.wellFormed, Instr.wellFormedAt, Block.wellFormedAt] at hw
  simpa [encodeBlock] using hn

end Sys2Proof.Laws.LegalEncoding
end

