-- ==== Sys2Proof/Tests/Slice0.lean ====
section
/-! SUPPORT. The model's own tests: ill-formed terms that are refused, words written out from the spec's
encoding, single steps against the vectors of spec/95_test_vectors.md, and for every obligation with
hypotheses concrete values that meet them (`witness_<name>`). -/

namespace Sys2Proof.Tests

open Sys2Proof Sys2Proof.Machine

-- One theorem at a time: checked all at once, the threads' stacks alone exceed the memory limit.
set_option Elab.async false

/-! ## States -/

/-- After reset with `bs` at 0x1000 as the source window, a destination window of `cap` bytes at 0x2000,
and WIDTH, HEIGHT and FMT. -/
def ready (bs : List Byte) (w h f cap : Word) : State :=
  { State.reset.preload 0x1000 bs with
    regs := { Regs.zero with
      srcBase := 0x1000, srcLen := BitVec.ofNat 32 bs.length, dstBase := 0x2000, dstCap := cap,
      width := w, height := h, fmt := f } }

/-- The same state with the layout L20. -/
def inL20 (s : State) : State := { s with cfg := { s.cfg with layout := .L20 } }

/-- The state of a `next`; the reset state (STATUS 0) for a stop. -/
def after : Host.Outcome State Fault Refusal → State
  | .next t => t
  | .fault _ => State.reset
  | .refused _ => State.reset

/-- The state after the word is accepted and the engine has taken its step. -/
def ends (w : Word) (s : State) : State := after (step (s.accept w))

/-- Whether the step answers a next state. -/
def goesOn : Host.Outcome State Fault Refusal → Bool
  | .next _ => true
  | .fault _ => false
  | .refused _ => false

/-- STATUS, OUT_LEN, IN_POS and the first `n` destination bytes. -/
def seen (n : Nat) (s : State) : Word × Word × Word × List Byte :=
  (s.regs.status, s.regs.outLen, s.regs.inPos, s.dstSeq 0 n)

/-- F1 of 95_test_vectors.md V7: a Gray8 2x2 uncompressed file. -/
def fileF1 : List Byte :=
  [0x41, 0x49, 0x46, 0x06, 0x16, 0x02, 0x00, 0x02, 0, 0, 0, 0x02, 0, 0, 0, 0x13, 0, 0, 0, 0x07, 0x07, 0x07, 0x08]

/-- F1C of V7: F1 compressed. -/
def fileF1C : List Byte :=
  [0x41, 0x49, 0x46, 0x0A, 0xE5, 0x02, 0x01, 0x02, 0, 0, 0, 0x02, 0, 0, 0, 0x13, 0, 0, 0,
    0x02, 0x00, 0x02, 0x07, 0x04, 0x00, 0x00, 0x02, 0x07, 0x08]

/-- R2 of V7: an RGB8 2x1 compressed file. -/
def fileR2 : List Byte :=
  [0x41, 0x49, 0x46, 0x56, 0x06, 0x01, 0x01, 0x02, 0, 0, 0, 0x01, 0, 0, 0, 0x13, 0, 0, 0,
    0x08, 0x00, 0x00, 0x02, 0xC8, 0x64, 0x32, 0x01, 0x02, 0x03]

/-! ## Well-formedness: one ill-formed term for each check -/

theorem test_repeat_tag_zero_ill_formed : (Instr.repeatBlock 0 [7]).wellFormed = false := by decide

theorem test_repeat_two_gray_pixels_ill_formed : (Instr.repeatBlock 2 [7, 7]).wellFormed = false := by decide

theorem test_literal_count_zero_ill_formed : (Instr.literalBlock 0 []).wellFormed = false := by decide

theorem test_literal_short_payload_ill_formed : (Instr.literalBlock 3 [1, 2]).wellFormed = false := by decide

theorem test_rgb_repeat_ill_formed_in_gray_row :
    (Instr.repeatBlock 2 [1, 2, 3]).wellFormedAt 1 = false ∧ (Instr.repeatBlock 2 [1, 2, 3]).wellFormedAt 3 = true := by
  decide

/-! ## Decoding: RSVD, ARG and OPC written out (30_encoding.md R72, R74), and tag blocks (R81, R82) -/

/-- Control (46_file.md). -/
theorem test_decode_nop :
    decodeCommand (0b00000000000000000000#20 ++ 0b0000#4 ++ 0b00000000#8) = .ok .nop := by decide

/-- The header codec. -/
theorem test_decode_hdrParse :
    decodeCommand (0b00000000000000000000#20 ++ 0b0000#4 ++ 0b00000001#8) = .ok .hdrParse := by decide

/-- The checksum engine. -/
theorem test_decode_cksum :
    decodeCommand (0b00000000000000000000#20 ++ 0b0000#4 ++ 0b00000010#8) = .ok .cksum ∧
    decodeCommand (0b00000000000000000000#20 ++ 0b0000#4 ++ 0b00000011#8) = .ok .cksumStamp := by decide

/-- The row codec. -/
theorem test_decode_row :
    decodeCommand (0b00000000000000000000#20 ++ 0b0000#4 ++ 0b00010000#8) = .ok .rowEnc ∧
    decodeCommand (0b00000000000000000000#20 ++ 0b0000#4 ++ 0b00010001#8) = .ok .rowDec := by decide

/-- The image codec. -/
theorem test_decode_image :
    decodeCommand (0b00000000000000000000#20 ++ 0b0000#4 ++ 0b00100000#8) = .ok .imgEnc ∧
    decodeCommand (0b00000000000000000000#20 ++ 0b0000#4 ++ 0b00100001#8) = .ok .imgDec := by decide

/-- The format converter, to RGB8 and to Gray8. -/
theorem test_decode_cvt :
    decodeCommand (0b00000000000000000000#20 ++ 0b0001#4 ++ 0b00110000#8) = .ok (.cvt .rgb8) ∧
    decodeCommand (0b00000000000000000000#20 ++ 0b0010#4 ++ 0b00110000#8) = .ok (.cvt .gray8) := by decide

/-- The file-level commands. -/
theorem test_decode_file :
    decodeCommand (0b00000000000000000000#20 ++ 0b0000#4 ++ 0b01000000#8) = .ok .fileCompress ∧
    decodeCommand (0b00000000000000000000#20 ++ 0b0000#4 ++ 0b01000001#8) = .ok .fileDecompress ∧
    decodeCommand (0b00000000000000000000#20 ++ 0b0001#4 ++ 0b01000010#8) = .ok (.fileConvert .rgb8) ∧
    decodeCommand (0b00000000000000000000#20 ++ 0b0010#4 ++ 0b01000010#8) = .ok (.fileConvert .gray8) := by decide

/-- The reserved slot. -/
theorem test_decode_reserved43 :
    decodeCommand (0b00000000000000000001#20 ++ 0b0000#4 ++ 0b01000011#8) = .ok (.reserved43 0x10#24) := by decide

/-- Words that are refused, by name (R75, V9.2, V9.3, V9.5, V8.2). -/
theorem test_decode_refused :
    decodeCommand 0x00000004 = .error .undefinedOpcode ∧ decodeCommand 0x00001001 = .error .reservedBits ∧
    decodeCommand 0x00000330 = .error .badArgument ∧ decodeCommand 0x00000100 = .error .badArgument := by decide

/-- The tag blocks of R81 and R82: an RGB8 repeat of 2 and a Gray8 literal of 2, each before a byte that is
not its own; and a count byte that is missing. -/
theorem test_decode_blocks :
    decodeBlock 3 [0b00000010, 0x0A, 0x14, 0x1E, 0xEE] = .ok (.rep 2 [0x0A, 0x14, 0x1E], [0xEE]) ∧
    decodeBlock 1 [0b00000000, 0b00000010, 0x07, 0x08, 0xEE] = .ok (.lit 2 [0x07, 0x08], [0xEE]) ∧
    decodeBlock 1 [0] = .error .literalCountMissing := by decide

/-- Table words: bit 0 is the first byte's least significant bit. -/
theorem test_decodeTableWord :
    decodeTableWord 32 0x00000242 = some (.fileConvert .gray8) ∧
    decodeTableWord 8 0x05 = some (.repeatBlock 5 [0]) ∧
    decodeTableWord 16 0x0905 = some (.repeatBlock 5 [9]) ∧
    decodeTableWord 16 0x0200 = some (.literalBlock 2 [0, 0]) := by decide +kernel

/-! ## One step of each instruction against 95_test_vectors.md -/

/-- V8.1. -/
theorem test_nop_keeps_lengths :
    (ends 0x00000000 { ready [1] 0 0 0 4 with regs := { Regs.zero with outLen := 5, inPos := 6 } }).regs =
      { Regs.zero with outLen := 5, inPos := 6, status := 0x2 } := by decide +kernel

/-- V1.7: three checks fail, and HDR_PARSE still succeeds. -/
theorem test_hdrParse_flags :
    (ends 0x00000001 (ready [0x41, 0x49, 0x46, 0, 0, 3, 2, 0, 0, 0, 0, 5, 0, 0, 0, 0x13, 0, 0, 0] 9 9 9 4)).regs =
      { Regs.zero with
        cmd := 0x1, status := 0x2, srcBase := 0x1000, srcLen := 19, dstBase := 0x2000, dstCap := 4, width := 0,
        height := 5, fmt := 0x203, inPos := 19, hdrValid := 0x11, calcCksum := 0x53ED, hdrPixoff := 0x13 } := by
  decide +kernel

/-- TRUNCATED 1 (R100) leaves the destination window unspecified, as R55(b) says of every error past CheckWindows. -/
theorem test_hdrParse_short_source :
    let s := ready (fileF1.take 18) 9 9 9 4
    (ends 0x00000001 s).regs.status = 0x126 ∧ (ends 0x00000001 s).draws = s.draws + 4 ∧
      (ends 0x00000001 s).mem.stored 0x2003 ≠ s.mem.stored 0x2003 := by decide +kernel

/-- A destination window around the source window: the source keeps its bytes (R51, R285), the bytes beside it do not. -/
theorem test_hdrParse_keeps_source :
    let s := ready [1, 2] 0 0 0 4
    let t := ends 0x00000001 { s with regs := { s.regs with dstBase := 0x0FFF } }
    t.regs.status = 0x126 ∧ t.mem.stored 0x1000 = some 1 ∧ t.mem.stored 0x1001 = some 2 ∧
      t.mem.stored 0x0FFF ≠ none ∧ t.mem.stored 0x1002 ≠ none ∧ t.mem.stored 0x1003 = none := by decide +kernel

/-- V1.10: a file of layout L19 read under L20. -/
theorem test_hdrParse_layout20 :
    (ends 0x00000001 (inL20 (ready fileF1 0 0 0 4))).regs =
      { Regs.zero with
        cmd := 0x1, status := 0x2, srcBase := 0x1000, srcLen := 23, dstBase := 0x2000, dstCap := 4,
        width := 0x02000000, height := 0x13000000, fmt := 0x200, inPos := 23, hdrValid := 0x18,
        hdrCksum := 0x0216, calcCksum := 0x6A0A, hdrPixoff := 0x07000000 } := by
  decide +kernel

/-- V2.6 under both layouts: bytes 3 and 4, or 4 and 5, are masked. -/
theorem test_cksum_mask :
    (ends 0x00000002 (ready [0xAA, 0xBB, 0xCC, 0xDD, 0xEE, 0x01] 0 0 0 0)).regs.calcCksum = 0xD432 ∧
    (ends 0x00000002 (inL20 (ready [0xAA, 0xBB, 0xCC, 0xDD, 0xEE, 0x01] 0 0 0 0))).regs.calcCksum = 0x6A0E := by
  decide +kernel

/-- V2.11: `sum1` is stored first. -/
theorem test_cksumStamp_little_endian :
    let s := ends 0x00000003 ((ready [] 0 0 0 6).dstWrite [0xAA, 0xBB, 0xCC, 0xDD, 0xEE, 0x01])
    seen 6 s = (0x2, 6, 0, [0xAA, 0xBB, 0xCC, 0x32, 0xD4, 0x01]) ∧ s.regs.outCksum = 0xD432 := by decide +kernel

/-- V2.14. -/
theorem test_cksumStamp_short_window :
    (ends 0x00000003 ((ready [] 0 0 0 4).dstWrite [0xAA, 0xBB, 0xCC, 0xDD])).regs.status = 0x766 := by decide +kernel

/-- V3.12: a run after a literal span ends the span. -/
theorem test_rowEnc_spans :
    seen 9 (ends 0x00000010 (ready [1, 2, 3, 3, 3, 4] 6 0 2 16)) =
      (0x2, 9, 6, [0x00, 0x02, 0x01, 0x02, 0x03, 0x03, 0x00, 0x01, 0x04]) := by decide +kernel

/-- P5, step 4: the destination window begins where the source window ends. -/
theorem test_rowEnc_touching_windows :
    let s := ready [5, 5, 0, 0, 0, 0, 0, 0, 0, 0, 0, 0, 0, 0, 0, 0] 2 1 2 8
    seen 2 (ends 0x00000010 { s with regs := { s.regs with dstBase := 0x1010 } }) = (0x2, 2, 2, [0x02, 0x05]) ∧
    (ends 0x00000010 { s with regs := { s.regs with dstBase := 0x100C } }).regs.status = 0x366 := by decide +kernel

/-- V3.34: pixels are compared whole. -/
theorem test_rowEnc_whole_pixels :
    seen 8 (ends 0x00000010 (ready [1, 1, 1, 1, 1, 2] 2 0 1 16)) =
      (0x2, 8, 6, [0x00, 0x02, 0x01, 0x01, 0x01, 0x01, 0x01, 0x02]) := by decide +kernel

/-- V4.12. -/
theorem test_rowDec_mixed :
    seen 4 (ends 0x00000011 (ready [0x00, 0x01, 0x05, 0x03, 0x06] 4 0 2 8)) = (0x2, 4, 5, [5, 6, 6, 6]) := by
  decide +kernel

/-- V4.22: a byte after a full row is decoded as a block. -/
theorem test_rowDec_trailing_byte :
    (ends 0x00000011 (ready [0x02, 0x05, 0x00, 0x01, 0x06, 0xAA] 3 0 2 8)).regs.status = 0x136 := by decide +kernel

/-- V5.5. -/
theorem test_imgEnc_rgb :
    seen 16 (ends 0x00000020
        (ready [0x0A, 0x14, 0x1E, 0x0A, 0x14, 0x1E, 0xFF, 0x00, 0x00, 0x00, 0xFF, 0x00] 2 2 1 64)) =
      (0x2, 16, 12,
        [0x04, 0x00, 0x02, 0x0A, 0x14, 0x1E, 0x08, 0x00, 0x00, 0x02, 0xFF, 0x00, 0x00, 0x00, 0xFF, 0x00]) := by
  decide +kernel

/-- V5.14: bytes after the last frame are ignored. -/
theorem test_imgDec_trailing_bytes :
    seen 2 (ends 0x00000021 (ready [0x02, 0x00, 0x02, 0x07, 0xAA, 0xBB] 2 1 2 8)) = (0x2, 2, 4, [7, 7]) := by
  decide +kernel

/-- V5.16: a row frame bounds its blocks. -/
theorem test_imgDec_frame_bounds_blocks :
    (ends 0x00000021 (ready [0x03, 0x00, 0x02, 0x07, 0x07, 0x01] 2 1 2 8)).regs.status = 0x136 := by decide +kernel

/-- V6.13. -/
theorem test_cvt_to_rgb :
    let s := ends 0x00000130 (ready [5, 5, 6] 3 1 2 9)
    seen 9 s = (0x2, 9, 3, [5, 5, 5, 5, 5, 5, 6, 6, 6]) ∧ s.regs.fmt = 0x001 := by decide +kernel

/-- V6.8, V6.11 and V6.3: the division truncates. -/
theorem test_cvt_to_gray :
    seen 3 (ends 0x00000230 (ready [200, 100, 50, 1, 2, 3, 255, 0, 0] 3 1 1 9)) = (0x2, 3, 9, [124, 1, 76]) := by
  decide +kernel

/-- V7.20: a stale checksum does not stop the command. -/
theorem test_fileCompress_stale_checksum :
    let s := ends 0x00000040 (ready (fileF1.set 3 0 |>.set 4 0) 0 0 0 64)
    seen 29 s = (0x2, 29, 23, fileF1C) ∧ s.regs.hdrValid = 0x1F ∧ s.regs.outCksum = 0xE50A := by decide +kernel

/-- V7.13: the mask of failed checks. -/
theorem test_fileCompress_invalid :
    (ends 0x00000040 (ready [0x41, 0x49, 0x46, 0, 0, 3, 2, 0, 0, 0, 0, 5, 0, 0, 0, 0x13, 0, 0, 0] 0 0 0 64)).regs.status =
      0xE16 := by decide +kernel

/-- V7.24: an empty window inside the other is no overlap. -/
theorem test_fileCompress_empty_window_inside :
    let s := ready fileF1 0 0 0 0
    (ends 0x00000040 { s with regs := { s.regs with dstBase := 0x1000 } }).regs.status = 0x146 := by decide +kernel

/-- V7.3. -/
theorem test_fileDecompress :
    let s := ends 0x00000041 (ready fileF1C 0 0 0 64)
    seen 23 s = (0x2, 23, 29, fileF1) ∧ s.regs.fmt = 0x102 ∧ s.regs.outCksum = 0x1606 := by decide +kernel

/-- V7.15: the second row is missing. -/
theorem test_fileDecompress_missing_row :
    (ends 0x00000041 (ready [0x41, 0x49, 0x46, 0xF5, 0xF3, 0x02, 0x01, 0x02, 0, 0, 0, 0x02, 0, 0, 0, 0x13, 0, 0, 0,
      0x02, 0x00, 0x02, 0x07] 0 0 0 64)).regs.status = 0x326 := by decide +kernel

/-- V7.10: FILE_CONVERT keeps the input's compression. -/
theorem test_fileConvert_keeps_compression :
    seen 25 (ends 0x00000242 (ready fileR2 0 0 0 64)) = (0x2, 25, 29,
      [0x41, 0x49, 0x46, 0x6C, 0xBD, 0x02, 0x01, 0x02, 0, 0, 0, 0x01, 0, 0, 0, 0x13, 0, 0, 0,
        0x04, 0x00, 0x00, 0x02, 0x7C, 0x01]) := by decide +kernel

/-- V7.5. -/
theorem test_fileConvert_to_rgb :
    seen 31 (ends 0x00000142 (ready fileF1 0 0 0 64)) = (0x2, 31, 23,
      [0x41, 0x49, 0x46, 0x3F, 0x25, 0x01, 0x00, 0x02, 0, 0, 0, 0x02, 0, 0, 0, 0x13, 0, 0, 0,
        7, 7, 7, 7, 7, 7, 7, 7, 7, 8, 8, 8]) := by decide +kernel

/-- V9.1 and V9.4: the reserved slot, with RSVD 0 and not. -/
theorem test_reserved43_illegal :
    (ends 0x00000043 (ready [1] 1 1 2 4)).regs.status = 0x156 ∧
    (ends 0x00001043 (ready [1] 1 1 2 4)).regs.status = 0x156 := by decide +kernel

/-- The example of 43_rle_row.md R141. -/
theorem test_repeatBlock :
    (after (step { State.reset with row := some (startRow [0x02, 0x0A, 0x0A, 0x0A] 2 3) })).row =
      some ⟨[0x02, 0x0A, 0x0A, 0x0A], 3, 6, 4, 6, [0x0A, 0x0A, 0x0A, 0x0A, 0x0A, 0x0A]⟩ := by decide +kernel

/-- The example of 43_rle_row.md R142. -/
theorem test_literalBlock :
    (after (step { State.reset with row := some (startRow [0x00, 0x02, 0x07, 0x08] 2 1) })).row =
      some ⟨[0x00, 0x02, 0x07, 0x08], 1, 2, 4, 2, [0x07, 0x08]⟩ := by decide +kernel

/-- `withFetchWord` is what the next step runs: V10.5, and a block with room for it (log 19). -/
theorem test_withFetchWord :
    (after (step (State.reset.withFetchWord 32 0x00000003))).regs.status = 0x766 ∧
    ((after (step (State.reset.withFetchWord 8 0x05))).row.map fun r => (r.cp, r.out)) =
      some (2, [0, 0, 0, 0, 0]) := by decide +kernel

/-! ## Witnesses: encoding -/

/-- Both pixel sizes, at the largest counts. -/
theorem witness_DecodeOfEncodeIsTheInstruction :
    (Instr.repeatBlock 255 [1, 2, 3]).wellFormedAt 3 = true ∧
    (Instr.literalBlock 255 (List.replicate 255 7)).wellFormedAt 1 = true ∧
    (Instr.reserved43 0xFFFFFF#24).wellFormedAt 1 = true := by decide +kernel

theorem witness_DecodedWordIsOneOfTheFourteen :
    (∃ i, decodeCommand 0x00000242 = .ok i ∧ ∀ rest, i ≠ .reserved43 rest) ∧
    decodeCommand 0xFFFFFF43 = .ok (.reserved43 0xFFFFFF#24) :=
  ⟨⟨.fileConvert .gray8, by decide, fun _ => by simp⟩, by decide⟩

theorem witness_BlocksStandBackToBack :
    (Block.rep 255 [1, 2, 3]).wellFormedAt 3 = true ∧ (Block.lit 1 [1]).wellFormedAt 1 = true ∧
    decodeBlock 1 [0xFF, 0x07, 0x00] = .ok (.rep 0xFF [0x07], [0x00]) ∧
    decodeBlock 1 [0x00, 0x01, 0x07] = .ok (.lit 0x01 [0x07], []) := by decide

/-- A state with the word pending. -/
def pend (w : Word) : State := { State.reset with pending := some w }

/-- A word for each clause: an OPC beside the map's, RSVD's lowest and highest bit, the ARG beside the legal
ones, and any ARG where none is taken. -/
theorem witness_IllegalWordsEndWithIllegal :
    let defined : List Byte := [0x00, 0x01, 0x02, 0x03, 0x10, 0x11, 0x20, 0x21, 0x30, 0x40, 0x41, 0x42]
    let opc (w : Nat) : Byte := (BitVec.ofNat 32 w).extractLsb' 0 8
    let arg (w : Nat) : BitVec 4 := (BitVec.ofNat 32 w).extractLsb' 8 4
    let rsvd (w : Nat) : BitVec 20 := (BitVec.ofNat 32 w).extractLsb' 12 20
    (pend 0x00000004).pending = some 0x00000004 ∧
    (∀ w ∈ [0x00000004, 0x00000043, 0x000000FF], opc w ∉ defined) ∧
    (∀ w ∈ [0x00001001, 0x80000042], opc w ∈ defined ∧ rsvd w ≠ 0) ∧
    (∀ w ∈ [0x00000030, 0x00000330, 0x00000F42],
      (opc w = 0x30 ∨ opc w = 0x42) ∧ rsvd w = 0 ∧ arg w ≠ 1 ∧ arg w ≠ 2) ∧
    (∀ w ∈ [0x00000100, 0x00000141],
      opc w ∈ defined ∧ opc w ≠ 0x30 ∧ opc w ≠ 0x42 ∧ rsvd w = 0 ∧ arg w ≠ 0) := by decide +kernel

/-! ## Witnesses: steps and the host -/

/-- A next state is the one `after` finds. -/
theorem next_after {o : Host.Outcome State Fault Refusal} (h : goesOn o = true) : o = .next (after o) := by
  cases o <;> first | rfl | cases h

/-- After reset, with these inputs to come. -/
def coming (l : List Input) : State := State.reset.withInputs l

/-- With a CKSUM pending whose source window is held. -/
def busyState (l : List Input) : State :=
  ((ready [1, 2] 0 0 0 4).accept 0x00000002).withInputs l

theorem witness_StepRunsTheDecodedInstruction :
    ((pend 0x130).row = none ∧ (pend 0x130).pending = some 0x130 ∧ decodeCommand 0x130 = .ok (.cvt .rgb8) ∧
      (pend 0x130).env.inputs = []) ∧
    ((pend 0x130).withInputs [.engine, .reset]).env.inputs = .engine :: [.reset] ∧
    ((busyState [.wait]).env.inputs = .wait :: [] ∧ (busyState [.wait]).regs.busy = true ∧
      (busyState [.wait]).pending = some 0x2 ∧ decodeCommand 0x2 = .ok .cksum) ∧
    (∃ s r, s = { State.reset with row := some r } ∧ r = startRow [0x01, 0x07, 0x01] 2 1 ∧ r.cp < r.c.length ∧
      decodeBlock r.bpp (r.c.drop r.cp) = .ok (.rep 1 [7], [0x01])) ∧
    ((coming []).row = none ∧ (coming []).pending = none ∧ (coming []).env.inputs = []) ∧
    (coming [.engine]).env.inputs = .engine :: [] := by
  refine ⟨?_, ?_, ?_, ⟨_, _, rfl, rfl, ?_⟩, ?_, ?_⟩ <;> decide +kernel

/-- The registers' base at the top of the address space, and the last aligned offset. -/
theorem witness_CommandAcceptance :
    (let s := coming [.regWrite 0 32 0x43];
      s.row = none ∧ s.env.inputs = .regWrite 0 32 0x43 :: [] ∧ s.regs.busy = false ∧ (0 : Word) = s.cfg.regBase ∧
        peerClash (wordWindows 0x43 s.regs) s.env.peers = false) ∧
    (let s := busyState [.regWrite 0xFC 32 1];
      s.row = none ∧ s.env.inputs = .regWrite 0xFC 32 1 :: [] ∧ s.regs.busy = true ∧
        s.cfg.regBase.toNat ≤ (0xFC : Word).toNat ∧ (0xFC : Word).toNat ≤ s.cfg.regBase.toNat + 0xFF ∧
        ((0xFC : Word).toNat - s.cfg.regBase.toNat) % 4 = 0) := by decide +kernel

/-- The first and the last offset but CMD's, and the configuration registers' last. -/
theorem witness_HostWriteSetsOneRegister :
    ∀ off ∈ [0x04, 0x08, 0x20, 0x24, 0xFC],
      let s := coming [.regWrite (BitVec.ofNat 32 off) 32 0xFFFFFFFF]
      s.row = none ∧ s.regs.busy = false ∧
        s.env.inputs = .regWrite (BitVec.ofNat 32 off) 32 0xFFFFFFFF :: [] ∧
        (BitVec.ofNat 32 off : Word).toNat = s.cfg.regBase.toNat + off ∧ off % 4 = 0 ∧ off ≤ 0xFF ∧ off ≠ 0 := by
  decide +kernel

theorem witness_HostReadReturnsTheRegister :
    (∀ off ∈ [0x00, 0x3C, 0x40, 0xFC],
      let s := coming [.regRead (BitVec.ofNat 32 off) 32]
      s.row = none ∧ s.env.inputs = .regRead (BitVec.ofNat 32 off) 32 :: [] ∧
        (BitVec.ofNat 32 off : Word).toNat = s.cfg.regBase.toNat + off ∧ off % 4 = 0 ∧ off ≤ 0xFF) ∧
    (RegName.HDR_PIXOFF.offset = 0x3C ∧ 0x40 ≤ 0xFC) ∧
    (∀ p ∈ ([(0xFF, 32), (0x08, 16), (0x00, 64)] : List (Word × Nat)),
      let s := coming [.regWrite p.1 p.2 0]
      let u := coming [.regRead p.1 p.2]
      s.row = none ∧ u.row = none ∧ s.cfg.regBase.toNat ≤ p.1.toNat ∧ p.1.toNat ≤ s.cfg.regBase.toNat + 0xFF ∧
        (p.2 ≠ 32 ∨ (p.1.toNat - s.cfg.regBase.toNat) % 4 ≠ 0) ∧
        s.env.inputs = .regWrite p.1 p.2 0 :: [] ∧ u.env.inputs = .regRead p.1 p.2 :: []) := by decide +kernel

/-- The held window is 0x1000, 0x1001: its two ends, and the bytes beside them. -/
theorem witness_AccessToHeldWindowFaults :
    (∀ k ∈ [0x1000, 0x1001],
      let s := busyState [.memRead .other (BitVec.ofNat 32 k)]
      s.row = none ∧ s.env.inputs = .memRead .other (BitVec.ofNat 32 k) :: [] ∧
        ∃ w ∈ s.env.held, inRange w (BitVec.ofNat 32 k : Word).toNat = true) ∧
    (∀ k ∈ [0x0FFF, 0x1002],
      let s := busyState [.memWrite .other (BitVec.ofNat 32 k) 9]
      let u := busyState [.memRead .host (BitVec.ofNat 32 k)]
      s.env.inputs = .memWrite .other (BitVec.ofNat 32 k) 9 :: [] ∧
        u.env.inputs = .memRead .host (BitVec.ofNat 32 k) :: [] ∧ s.row = none ∧ u.row = none ∧
        (∀ w ∈ s.env.held, inRange w (BitVec.ofNat 32 k : Word).toNat = false) ∧
        accessible s.cfg (BitVec.ofNat 32 k : Word).toNat = true ∧ s.cfg.hostCoherent = true) := by decide +kernel

/-- The state with an incoherent host whose buffer is `buf`. -/
def incoherent (s : State) (buf : List Host.Cell) (synced : Bool) : State :=
  { s with cfg := { s.cfg with hostCoherent := false }, env := { s.env with hostBuf := buf, hostSynced := synced } }

/-- The clauses for an incoherent host: a store; a load of its newest store of two, of shared memory, and of
neither. -/
theorem witness_AccessToHeldWindowFaults_incoherent :
    (let s := incoherent (busyState [.memWrite .host 0x1002 9]) [] true;
      s.env.inputs = .memWrite .host 0x1002 9 :: [] ∧ s.row = none ∧ s.cfg.hostCoherent = false ∧
        (∀ w ∈ s.env.held, inRange w (0x1002 : Word).toNat = false) ∧ accessible s.cfg (0x1002 : Word).toNat = true) ∧
    (let s := incoherent (busyState [.memRead .host 0x1002]) [(0x1002, 5), (0x1002, 6), (0x1003, 7)] true;
      s.env.inputs = .memRead .host 0x1002 :: [] ∧
        s.env.hostBuf = [(0x1002, 5)] ++ ((0x1002 : Word).toNat, 6) :: [(0x1003, 7)] ∧
        ∀ c ∈ ([(0x1003, 7)] : List Host.Cell), c.1 ≠ (0x1002 : Word).toNat) ∧
    ∀ synced : Bool,
      let s := incoherent (busyState [.memRead .host 0x1002]) [(0x1003, 7)] synced
      (∀ c ∈ s.env.hostBuf, c.1 ≠ (0x1002 : Word).toNat) ∧ s.env.hostSynced = synced := by decide +kernel

/-- A host synchronisation: a buffered store at the held window's last byte, and stores on both sides of the window. -/
theorem witness_AccessToHeldWindowFaults_hostSync :
    (let s := incoherent (busyState [.hostSync]) [(0x1002, 5), (0x1001, 6)] true;
      s.row = none ∧ s.env.inputs = .hostSync :: [] ∧ ∃ c ∈ s.env.hostBuf, ∃ w ∈ s.env.held, inRange w c.1 = true) ∧
    (let s := incoherent (busyState [.hostSync]) [(0x1002, 5), (0x0FFF, 7), (0x1002, 6)] false;
      s.row = none ∧ s.env.inputs = .hostSync :: [] ∧ s.env.held ≠ [] ∧
        ∀ c ∈ s.env.hostBuf, ∀ w ∈ s.env.held, inRange w c.1 = false) := by decide +kernel

/-- Of two buffered stores to one address the newer stays (log 16). -/
theorem test_hostSync_in_order :
    let t := after (step (incoherent (busyState [.hostSync]) [(0x1002, 5), (0x0FFF, 7), (0x1002, 6)] false))
    t.mem.read 0x1002 = 6 ∧ t.mem.read 0x0FFF = 7 ∧ t.env.hostBuf = [] ∧ t.env.hostSynced = true := by decide +kernel

/-- A release of held windows makes an incoherent host's loads stale, after a reset as after a STATUS read (log 16). -/
theorem test_release_makes_stale :
    (after (step (incoherent (busyState [.reset]) [] true))).env.hostSynced = false ∧
    (after (step (incoherent (coming [.reset]) [] true))).env.hostSynced = true := by decide +kernel

/-- An access below the window is ignored, unless it runs into the window (log 14). -/
theorem test_regAccess_below :
    let c := { Config.standard with regBase := 0x100 }
    regAccess c 0xFC 32 = .ok none ∧ regAccess c 0xFE 32 = .error .registerAccess ∧
      regAccess c 0xFC 64 = .error .registerAccess ∧ regAccess c 0xFF 8 = .ok none := by decide +kernel

/-- The held window stays through the engine's step; a wait and a STATUS read while BUSY = 0, and a reset,
are steps too. -/
theorem witness_HeldWindowsStayHeld :
    (∃ t, step (busyState [.engine]) = .next t) ∧ (busyState []).env.held = [⟨0x1000, 2⟩] ∧
    (∃ t, step (coming [.wait]) = .next t) ∧ (coming [.wait]).regs.busy = false ∧
    (∃ t, step (coming [.regRead 4 32]) = .next t) ∧ (∃ t, step (busyState [.reset]) = .next t) := by
  refine ⟨⟨_, next_after ?_⟩, ?_, ⟨_, next_after ?_⟩, ?_, ⟨_, next_after ?_⟩, ⟨_, next_after ?_⟩⟩ <;> decide +kernel

/-- The windows are held and BUSY is 1, or 0 after the command's step, at each of the three inputs. -/
theorem witness_HeldWindowsStayHeld_release :
    ∀ l ∈ ([[.regRead 4 32], [.wait], [.reset]] : List (List Input)),
      ((busyState l).row = none ∧ (busyState l).env.inputs = l ∧ (4 : Word).toNat = (busyState l).cfg.regBase.toNat + 4 ∧
        (busyState l).regs.busy = true ∧ (busyState l).env.held ≠ [] ∧ goesOn (step (busyState l)) = true) ∧
      (let s := after (step (busyState (.engine :: l)));
        s.row = none ∧ s.env.inputs = l ∧ s.regs.busy = false ∧ s.env.held ≠ [] ∧ goesOn (step s) = true) := by
  decide +kernel

/-- Windows that share their one last byte. -/
theorem witness_OverlappingBusyInstancesFault :
    (let s := busyState [.peers [⟨0x1001, 8⟩]];
      s.row = none ∧ s.pending = some 2 ∧ s.env.inputs = .peers [⟨0x1001, 8⟩] :: [] ∧
        peerClash (wordWindows 2 s.regs) [⟨0x1001, 8⟩] = true) ∧
    (let r := ready [1, 2] 0 0 0 4;
      let s := { r with env := { r.env with peers := [⟨0x1001, 8⟩], inputs := [.regWrite 0 32 2] } }
      s.row = none ∧ s.regs.busy = false ∧ s.env.inputs = .regWrite s.cfg.regBase 32 2 :: [] ∧
        peerClash (wordWindows 2 s.regs) s.env.peers = true) := by decide +kernel

theorem witness_ResetEventClearsTheBlock :
    (busyState [.reset, .wait]).row = none ∧ (busyState [.reset, .wait]).env.inputs = .reset :: [.wait] ∧
    (coming [.reset]).pending = none := by decide +kernel

/-- A command that uses both windows: the last byte of each and the bytes after them, in both orders. -/
theorem witness_ResetBeforeOrAfterTheStep :
    (let s := ((ready [1, 2] 2 1 2 4).accept 0x10).withInputs [.reset];
      s.row = none ∧ s.env.inputs = .reset :: [] ∧ s.mem.wf = true ∧ s.pending = some 0x10 ∧
        (∀ a ∈ [0x1002, 0x2004], ∀ r ∈ wordWindows 0x10 s.regs, inRange r a = false) ∧
        ∀ a ∈ [0x1001, 0x2003], a < 4294967296 ∧ ∃ r ∈ wordWindows 0x10 s.regs, inRange r a = true) ∧
    (let s := ((ready [1, 2] 2 1 2 4).accept 0x10).withInputs [.engine, .reset];
      s.row = none ∧ s.env.inputs = .engine :: .reset :: [] ∧ s.mem.wf = true ∧ s.pending = some 0x10 ∧
        goesOn (step s) = true ∧ decodeCommand 0x10 = .ok .rowEnc ∧ usesSrc .rowEnc = true ∧
        inRange s.regs.srcWindow 0x1001 = true ∧ inRange s.regs.dstWindow 0x2004 = false) := by decide +kernel

/-- HDR_PARSE's TRUNCATED 1 with a destination window that begins at its source window's last byte: that byte. -/
theorem witness_ResetBeforeOrAfterTheStep_hdrParse :
    let r := ready [1, 2] 0 0 0 4
    let s := ({ r with regs := { r.regs with dstBase := 0x1001 } }.accept 0x1).withInputs [.engine, .reset]
    s.row = none ∧ s.env.inputs = .engine :: .reset :: [] ∧ s.mem.wf = true ∧ s.pending = some 0x1 ∧
      goesOn (step s) = true ∧ decodeCommand 0x1 = .ok .hdrParse ∧ usesSrc .hdrParse = true ∧
      inRange s.regs.srcWindow 0x1001 = true ∧ inRange s.regs.dstWindow 0x1001 = true := by decide +kernel

/-- A word of each kind. -/
theorem witness_FirstCommandAfterReset :
    State.reset.regs = Regs.zero ∧ (0x00000002 : Word) ∈ ([0x00000000, 0x00000002] : List Word) ∧
    (0x00000242 : Word) ∈ ([0x00000001, 0x00000040, 0x00000041, 0x00000142, 0x00000242] : List Word) ∧
    (0x00000230 : Word) ∈
      ([0x00000010, 0x00000011, 0x00000020, 0x00000021, 0x00000130, 0x00000230] : List Word) := by decide

/-- R273 through acceptance: V10.5. -/
theorem test_first_command :
    (after (engineStep (State.reset.accept 0x00000003))).regs =
      { Regs.zero with cmd := 0x00000003, status := 0x00000766 } := by decide +kernel

/-- NOP with RSVD's lowest bit, and with ARG 1. -/
theorem witness_NopCompletes :
    ((pend 0x00001000).pending = some 0x00001000 ∧ (0x00001000 : Word).extractLsb' 0 8 = 0#8 ∧
      (0x00001000 : Word).extractLsb' 12 20 ≠ 0#20) ∧
    ((pend 0x00000100).pending = some 0x00000100 ∧ (0x00000100 : Word).extractLsb' 0 8 = 0#8 ∧
      (0x00000100 : Word).extractLsb' 12 20 = 0#20 ∧ (0x00000100 : Word).extractLsb' 8 4 ≠ 0#4) := by decide

theorem witness_WaitEndsAfterTheCommand :
    let s := busyState [.wait, .reset]
    s.row = none ∧ s.pending = some 2 ∧ s.regs.busy = true ∧ s.env.inputs = .wait :: [.reset] ∧
      ∃ t, step s = .next t := by
  refine ⟨?_, ?_, ?_, ?_, ⟨_, next_after ?_⟩⟩ <;> decide +kernel

/-! ## Witnesses: completion -/

/-- A source of exactly the header, and one byte less. -/
theorem witness_HdrParseCompletes :
    (let s := ready (fileF1.take 19) 0 0 0 0;
      windowsReady .hdrParse s = true ∧ hdrSize s.cfg.layout ≤ s.regs.srcLen.toNat) ∧
    (let s := inL20 (ready (fileF1.take 19) 0 0 0 0);
      windowsReady .hdrParse s = true ∧ s.regs.srcLen.toNat < hdrSize s.cfg.layout) := by decide +kernel

/-- An empty window, and one that ends exactly at 2^32 (V9.9). -/
theorem witness_CksumCompletes :
    windowsReady .cksum (ready [] 0 0 0 0) = true ∧
    windowsReady .cksum { State.reset with regs := { Regs.zero with srcBase := 0xFFFFFFF8, srcLen := 8 } } = true := by
  decide +kernel

/-- A window of exactly the checksum field's end, and one byte less (V2.14). -/
theorem witness_CksumStampCompletes :
    (let s := ready [] 0 0 0 5;
      windowsReady .cksumStamp s = true ∧ s.mem.wf = true ∧ offCksum s.cfg.layout + 2 ≤ s.regs.dstCap.toNat) ∧
    (let s := ready [] 0 0 0 4;
      windowsReady .cksumStamp s = true ∧ s.regs.dstCap.toNat < offCksum s.cfg.layout + 2) := by decide +kernel

/-- The exact fit of V3.42. -/
theorem witness_RowEncCompletes :
    let s := ready [5, 5, 6] 3 0 2 5
    windowsReady .rowEnc s = true ∧ s.regs.width ≠ 0 ∧ PixFmt.ofCode s.regs.pixfmt = some .gray8 ∧
      3 * PixFmt.gray8.bpp ≤ s.regs.srcLen.toNat ∧
      (encodeRow (s.mem.readSeq s.regs.srcBase.toNat 3) 3 1).length ≤ s.regs.dstCap.toNat := by decide +kernel

/-- V4.14 with an exact destination. -/
theorem witness_RowDecCompletes :
    let s := ready [2, 9] 2 0 2 2
    windowsReady .rowDec s = true ∧ s.regs.width ≠ 0 ∧ PixFmt.ofCode s.regs.pixfmt = some .gray8 ∧
      s.regs.width.toNat * PixFmt.gray8.bpp ≤ s.regs.dstCap.toNat ∧
      decodeRow (s.mem.readSeq s.regs.srcBase.toNat s.regs.srcLen.toNat) s.regs.width.toNat 1 = .ok [9, 9] := by
  decide +kernel

/-- V5.2 with an exact destination. -/
theorem witness_ImgEncCompletes :
    let s := ready [7, 7, 7, 8] 2 2 2 10
    windowsReady .imgEnc s = true ∧ s.regs.width ≠ 0 ∧ s.regs.height ≠ 0 ∧
      PixFmt.ofCode s.regs.pixfmt = some .gray8 ∧
      s.regs.width.toNat * s.regs.height.toNat * PixFmt.gray8.bpp ≤ s.regs.srcLen.toNat ∧
      encodeImage 2 1 2 (s.mem.readSeq s.regs.srcBase.toNat 4) = .ok [2, 0, 2, 7, 4, 0, 0, 2, 7, 8] ∧
      10 ≤ s.regs.dstCap.toNat := by decide +kernel

/-- V5.14 with an exact destination. -/
theorem witness_ImgDecCompletes :
    let s := ready [0x02, 0x00, 0x02, 0x07, 0xAA, 0xBB] 2 1 2 2
    windowsReady .imgDec s = true ∧ s.regs.width ≠ 0 ∧ s.regs.height ≠ 0 ∧
      PixFmt.ofCode s.regs.pixfmt = some .gray8 ∧
      s.regs.width.toNat * s.regs.height.toNat * PixFmt.gray8.bpp ≤ s.regs.dstCap.toNat ∧
      decodeImage 2 1 1 (s.mem.readSeq s.regs.srcBase.toNat s.regs.srcLen.toNat) = .ok ([7, 7], 4) := by decide +kernel

/-- V6.13 (an exact fit) and the other direction. -/
theorem witness_CvtCompletes :
    (let s := ready [5, 5, 6] 3 1 2 9;
      windowsReady (.cvt .rgb8) s = true ∧ s.regs.width ≠ 0 ∧ s.regs.height ≠ 0 ∧
        PixFmt.ofCode s.regs.pixfmt = some .gray8 ∧ 3 * PixFmt.gray8.bpp ≤ s.regs.srcLen.toNat ∧
        3 * PixFmt.rgb8.bpp ≤ s.regs.dstCap.toNat) ∧
    (let s := ready [1, 2, 3] 1 1 1 1;
      windowsReady (.cvt .gray8) s = true ∧ s.regs.width ≠ 0 ∧ s.regs.height ≠ 0 ∧
        PixFmt.ofCode s.regs.pixfmt = some .rgb8 ∧ 1 * PixFmt.rgb8.bpp ≤ s.regs.srcLen.toNat ∧
        1 * PixFmt.gray8.bpp ≤ s.regs.dstCap.toNat) := by decide +kernel

theorem headerPasses_F1 : fileHeaderPasses (ready fileF1 0 0 0 29) := by
  simp only [fileHeaderPasses]
  decide +kernel

theorem headerPasses_F1C : fileHeaderPasses (ready fileF1C 0 0 0 23) := by
  simp only [fileHeaderPasses]
  decide +kernel

/-- V7.1 with an exact destination. -/
theorem witness_FileCompressCompletes :
    let s := ready fileF1 0 0 0 29
    windowsReady .fileCompress s = true ∧ s.mem.wf = true ∧ fileHeaderPasses s ∧
      readBody s s.fileInfo = .ok ([7, 7, 7, 8], 23) ∧
      encodeImage s.fileInfo.w.toNat s.fileInfo.f.bpp s.fileInfo.h.toNat [7, 7, 7, 8] =
        .ok [2, 0, 2, 7, 4, 0, 0, 2, 7, 8] ∧ hdrSize s.cfg.layout + 10 ≤ s.regs.dstCap.toNat := by
  refine ⟨?_, ?_, headerPasses_F1, ?_, ?_, ?_⟩ <;> decide +kernel

/-- V7.3 with an exact destination. -/
theorem witness_FileDecompressCompletes :
    let s := ready fileF1C 0 0 0 23
    windowsReady .fileDecompress s = true ∧ s.mem.wf = true ∧ fileHeaderPasses s ∧
      readBody s s.fileInfo = .ok ([7, 7, 7, 8], 29) ∧ hdrSize s.cfg.layout + 4 ≤ s.regs.dstCap.toNat := by
  refine ⟨?_, ?_, headerPasses_F1C, ?_, ?_⟩ <;> decide +kernel

/-- An uncompressed input (V7.6) and a compressed one, each to Gray8. -/
theorem witness_FileConvertCompletes :
    (let s := ready fileF1 0 0 0 29;
      windowsReady (.fileConvert .gray8) s = true ∧ s.mem.wf = true ∧ fileHeaderPasses s ∧
        readBody s s.fileInfo = .ok ([7, 7, 7, 8], 23) ∧ s.fileInfo.c = 0 ∧
        [7, 7, 7, 8] = convert [7, 7, 7, 8] s.fileInfo.f .gray8 ∧ hdrSize s.cfg.layout + 4 ≤ s.regs.dstCap.toNat) ∧
    (let s := ready fileF1C 0 0 0 29;
      windowsReady (.fileConvert .gray8) s = true ∧ s.mem.wf = true ∧ fileHeaderPasses s ∧
        readBody s s.fileInfo = .ok ([7, 7, 7, 8], 29) ∧ s.fileInfo.c = 1 ∧
        encodeImage s.fileInfo.w.toNat 1 s.fileInfo.h.toNat (convert [7, 7, 7, 8] s.fileInfo.f .gray8) =
          .ok [2, 0, 2, 7, 4, 0, 0, 2, 7, 8] ∧ hdrSize s.cfg.layout + 10 ≤ s.regs.dstCap.toNat) := by
  refine ⟨⟨?_, ?_, headerPasses_F1, ?_, ?_, ?_, ?_⟩, ?_, ?_, headerPasses_F1C, ?_, ?_, ?_, ?_⟩ <;> decide +kernel

/-! ## Witnesses: rows and blocks -/

/-- A row with the given compressed bytes and output room, its output empty. -/
def inRow (c : List Byte) (bpp need op : Nat) : State :=
  { ready [] 0 0 0 16 with row := some ⟨c, bpp, need, 0, op, List.replicate op 0⟩ }

/-- A block that fills its row exactly. -/
theorem witness_RepeatBlockCompletes :
    let r := (inRow [0xFF, 0x07] 1 255 0).row.getD idleRow
    r.op + (0xFF : Byte).toNat * [(7 : Byte)].length ≤ r.need := by decide +kernel

theorem witness_LiteralBlockCompletes :
    let r := (inRow [0x00, 0x02, 0x07, 0x08] 1 2 0).row.getD idleRow
    (2 : Byte) ≠ 0 ∧ r.op + [(7 : Byte), 8].length ≤ r.need := by decide +kernel

/-- One row for each clause; each check fails by one byte. -/
theorem witness_RowEndsWithCorrupt :
    let ok (c : List Byte) (bpp need op : Nat) :=
      checkWindows .rowDec (inRow c bpp need op).regs = none ∧ (inRow c bpp need op).mem.wf = true
    (ok [2, 5, 5] 3 6 0 ∧ ([2, 5, 5] : List Byte) = 2 :: [5, 5] ∧ (2 : Byte) ≠ 0 ∧ [(5 : Byte), 5].length < 3) ∧
    (ok [3, 9] 1 2 0 ∧ (3 : Byte) ≠ 0 ∧ 1 ≤ [(9 : Byte)].length ∧ 2 < 0 + (3 : Byte).toNat * 1) ∧
    ok [0] 1 2 0 ∧ ok [0, 0] 1 2 2 ∧
    (ok [0, 2, 9] 1 2 0 ∧ (2 : Byte) ≠ 0 ∧ [(9 : Byte)].length < (2 : Byte).toNat * 1) ∧
    (ok [0, 3, 1, 2, 3] 1 2 0 ∧ (3 : Byte) ≠ 0 ∧ (3 : Byte).toNat * 1 ≤ [(1 : Byte), 2, 3].length ∧
      2 < 0 + (3 : Byte).toNat * 1) ∧
    (ok [] 1 2 1 ∧ 1 ≠ 2) := by decide +kernel

theorem witness_RowDecIsItsBlocks :
    let s := ready [0x02, 0x05, 0x00, 0x01, 0x06] 3 0 2 3
    windowsReady .rowDec s = true ∧ s.regs.width ≠ 0 ∧ PixFmt.ofCode s.regs.pixfmt = some .gray8 ∧
      s.regs.width.toNat * PixFmt.gray8.bpp ≤ s.regs.dstCap.toNat := by decide +kernel

/-- V4.12, and V4.8. -/
theorem witness_DecodeRowFillsTheRow :
    decodeRow [0x00, 0x01, 0x05, 0x03, 0x06] 4 1 = .ok [5, 6, 6, 6] ∧
    decodeRow [] 2 1 = .error ⟨.corrupt, 6⟩ := by decide +kernel

/-- Runs of 1 and 2, and both sides of the limit of 255. -/
theorem witness_EncodeRowBlockByBlock :
    (0 < 2 ∧ (pixels 3 2 [1, 2, 3, 4, 5, 6])[1]? = some [4, 5, 6]) ∧ 0 < runLen [[7], [8]] ∧
    (([[7], [7]] : List (List Byte)) ≠ [] ∧ [[(7 : Byte)], [7]].length ≤ 2 ∧ 2 ≤ runLen [[7], [7]]) ∧
    ([[(7 : Byte)], [8]].length ≤ 2 ∧ runLen [[7], [8]] < 2) ∧ runLen ([7] :: [[8]]) < 2 ∧
    (0 < 255 ∧ 255 ≤ 255) ∧ 255 < 256 ∧ (List.replicate 255 [(7 : Byte)]).length ≤ 255 ∧
    255 < (List.replicate 256 [(7 : Byte)]).length := by decide +kernel

theorem witness_RowRoundTrip : 1 ≤ 1 ∧ (1 = 1 ∨ 1 = 3) ∧ [(7 : Byte)].length = 1 * 1 ∧
    (3 = 1 ∨ 3 = 3) ∧ [(1 : Byte), 2, 3].length = 1 * 3 := by decide

theorem witness_ImageRoundTrip :
    1 ≤ 2 ∧ (1 = 1 ∨ 1 = 3) ∧ [(7 : Byte), 7, 7, 8].length = 2 * 2 * 1 ∧
    encodeImage 2 1 2 [7, 7, 7, 8] = .ok [2, 0, 2, 7, 4, 0, 0, 2, 7, 8] := by decide +kernel

/-! ### A row too long to be framed: 8388480 equal pixels take more than 65535 bytes -/

theorem pixels_zeros (n : Nat) : pixels 1 n (List.replicate n 0) = List.replicate n [0] := by
  induction n with
  | zero => rfl
  | succ n ih => exact congrArg ([0] :: ·) ih

theorem repeatChunks_covers {px : List Byte} (hp : px.length = 1) {n r : Nat} (h : r ≤ n) :
    2 * r ≤ 255 * (repeatChunks px n r).length := by
  induction n generalizing r with
  | zero => omega
  | succ n ih =>
    rw [repeatChunks]
    split
    · omega
    · have := ih (r := r - min 255 r) (by omega)
      simp only [List.length_append, List.length_cons, hp]
      omega

theorem longRow_length {n : Nat} (h : 2 ≤ n) : 2 * n ≤ 255 * (encodeRow (List.replicate n 0) n 1).length := by
  obtain ⟨k, rfl⟩ : ∃ k, n = k + 1 := ⟨n - 1, by omega⟩
  have hr : runLen (List.replicate (k + 1) [(0 : Byte)]) = k + 1 := by
    simp [List.replicate_succ, runLen, Nat.add_comm]
  have hd : (List.replicate (k + 1) [(0 : Byte)]).drop (k + 1) = [] := by simp
  have he : encodeRow (List.replicate (k + 1) 0) (k + 1) 1 =
      repeatChunks [0] (k + 1) (k + 1) ++ encodePixels k [] := by
    rw [encodeRow, pixels_zeros]
    conv_lhs => rw [List.replicate_succ, encodePixels, ← List.replicate_succ]
    rw [hr, hd, if_pos h]
  rw [he, List.length_append]
  have := repeatChunks_covers (px := [0]) rfl (Nat.le_refl (k + 1))
  omega

/-- A row of this many equal pixels cannot be framed. -/
def longRow : Nat := 8388480

theorem longRow_not_framed (b : List Byte) : encodeImage longRow 1 1 (List.replicate longRow 0) ≠ .ok b := by
  obtain ⟨n, hn, h2⟩ : ∃ n, n = longRow ∧ 65535 * 255 < 2 * n := ⟨_, rfl, by decide⟩
  have hl := longRow_length (n := n) (by omega)
  rw [← hn]
  intro h
  rw [encodeImage, List.take_of_length_le (by simp)] at h
  simp only [Nat.mul_one] at h
  rw [if_neg (by omega)] at h
  cases h

/-- Such a row, with its length as a hypothesis so that nothing evaluates it. -/
theorem longBytes : ∃ z : List Byte, z.length = longRow ∧ ∀ b, encodeImage longRow 1 1 z ≠ .ok b :=
  ⟨_, List.length_replicate, longRow_not_framed⟩

theorem witness_RangeExactlyWhenARowIsTooLong :
    (¬∃ b, encodeImage longRow 1 1 (List.replicate longRow 0) = .ok b) ∧
    (∃ b, encodeImage 2 1 2 [7, 7, 7, 8] = .ok b) ∧
    ((encodeRow ([7, 7, 7, 8].take (2 * 1)) 2 1).length ≤ 65535 ∧
      encodeImage 2 1 1 ([7, 7, 7, 8].drop (2 * 1)) = .ok [4, 0, 0, 2, 7, 8]) :=
  ⟨fun ⟨b, h⟩ => longRow_not_framed b h, ⟨[2, 0, 2, 7, 4, 0, 0, 2, 7, 8], by decide +kernel⟩, by decide +kernel⟩

theorem witness_StampedChecksumIsStable : 3 + 2 ≤ [(0xAA : Byte), 0xBB, 0xCC, 0xDD, 0xEE].length := by decide

/-! ## Witnesses: errors -/

/-- A state whose windows are these. -/
def windows (sb sl db dc : Word) : State :=
  { State.reset with regs := { Regs.zero with srcBase := sb, srcLen := sl, dstBase := db, dstCap := dc } }

/-- V9.8, V7.23, a wrapping CKSUM_STAMP, and windows that share their one last byte; each is one byte past
what CheckWindows passes. -/
theorem witness_CheckWindowsErrors :
    (let s := windows 0xFFFFFFF8 9 0 0;
      windowRefusal .cksum s = none ∧ 4294967296 < s.regs.srcBase.toNat + s.regs.srcLen.toNat) ∧
    (let s := windows 0x1000 0 0xFFFFFFF0 0x11;
      windowRefusal .fileCompress s = none ∧ s.regs.srcBase.toNat + s.regs.srcLen.toNat ≤ 4294967296 ∧
        4294967296 < s.regs.dstBase.toNat + s.regs.dstCap.toNat ∧ windowRefusal .cksumStamp s = none) ∧
    (let s := windows 0x1000 16 0x100F 8;
      windowRefusal .rowEnc s = none ∧ s.regs.srcBase.toNat + s.regs.srcLen.toNat ≤ 4294967296 ∧
        s.regs.dstBase.toNat + s.regs.dstCap.toNat ≤ 4294967296 ∧ 0 < s.regs.srcLen.toNat ∧ 0 < s.regs.dstCap.toNat ∧
        s.regs.srcBase.toNat < s.regs.dstBase.toNat + s.regs.dstCap.toNat ∧
        s.regs.dstBase.toNat < s.regs.srcBase.toNat + s.regs.srcLen.toNat) := by decide +kernel

/-- What passes, at its boundary: windows that end at 2^32 (V9.9); P5's touching windows, on either side; V7.24's empty
window inside the other, and an empty source window. -/
theorem witness_CheckWindowsErrors_pass :
    (let s := windows 0xFFFFFFF8 8 0xFFFFFFF8 8;
      windowRefusal .hdrParse s = none ∧ windowRefusal .cksum s = none ∧ windowRefusal .cksumStamp s = none ∧
        s.regs.srcBase.toNat + s.regs.srcLen.toNat ≤ 4294967296 ∧
        s.regs.dstBase.toNat + s.regs.dstCap.toNat ≤ 4294967296) ∧
    (let s := windows 0x1000 16 0x1010 8;
      windowRefusal .rowEnc s = none ∧ s.regs.srcBase.toNat + s.regs.srcLen.toNat ≤ s.regs.dstBase.toNat) ∧
    (let s := windows 0x1010 16 0x1000 16;
      windowRefusal .rowEnc s = none ∧ s.regs.dstBase.toNat + s.regs.dstCap.toNat ≤ s.regs.srcBase.toNat) ∧
    (let s := windows 0x1000 23 0x1000 0; windowRefusal .fileCompress s = none ∧ s.regs.dstCap.toNat = 0) ∧
    (let s := windows 0x1001 0 0x1000 8; windowRefusal .imgDec s = none ∧ s.regs.srcLen.toNat = 0) := by
  decide +kernel

/-- V3.46, V5.6 and V3.45, and PIXFMT 0. -/
theorem witness_GeometryErrors :
    (let s := ready [5, 5, 6] 0 1 2 16;
      windowsReady .rowEnc s = true ∧ s.mem.wf = true ∧ s.regs.width = 0) ∧
    (let s := ready [5, 5, 6] 2 0 2 16;
      windowsReady .imgEnc s = true ∧ s.mem.wf = true ∧ s.regs.width ≠ 0 ∧ s.regs.height = 0) ∧
    (let s := ready [5, 5, 6] 3 0 3 16;
      windowsReady .rowEnc s = true ∧ s.mem.wf = true ∧ s.regs.width ≠ 0 ∧ s.regs.pixfmt ≠ 1 ∧ s.regs.pixfmt ≠ 2) ∧
    (let s := ready [5, 5, 6] 3 1 0 16;
      windowsReady .imgEnc s = true ∧ s.mem.wf = true ∧ s.regs.width ≠ 0 ∧ s.regs.height ≠ 0 ∧ s.regs.pixfmt ≠ 1 ∧
        s.regs.pixfmt ≠ 2) := by decide +kernel

/-- The bytes `z` as the one row of an image of `longRow` pixels. -/
def longImage (z : List Byte) : State :=
  { State.reset.preload 0x1000 z with regs := { Regs.zero with
      srcBase := 0x1000, srcLen := BitVec.ofNat 32 longRow, dstBase := 0xF0000000, dstCap := 4,
      width := BitVec.ofNat 32 longRow, height := 1, fmt := 2 } }

/-- ROW_ENC: V3.44, V3.43. ROW_DEC: V4.23, V4.7. IMG_ENC: a short source, the long row, an output one byte
too long. IMG_DEC: V5.18, V5.17. CVT: a short source, V6.14. -/
theorem witness_CodecErrorsInOrder :
    (let s := ready [5, 5, 6] 4 0 2 16;
      s.regs.width ≠ 0 ∧ PixFmt.ofCode s.regs.pixfmt = some .gray8 ∧ s.mem.wf = true ∧
        windowsReady .rowEnc s = true ∧ s.regs.srcLen.toNat < 4 * PixFmt.gray8.bpp) ∧
    (let s := ready [5, 5, 6] 3 0 2 4;
      windowsReady .rowEnc s = true ∧ 3 * PixFmt.gray8.bpp ≤ s.regs.srcLen.toNat ∧
        s.regs.dstCap.toNat < (encodeRow (s.mem.readSeq s.regs.srcBase.toNat 3) 3 1).length) ∧
    (let s := ready [2, 5, 0, 1, 6] 3 0 2 2;
      windowsReady .rowDec s = true ∧ s.regs.dstCap.toNat < 3 * PixFmt.gray8.bpp) ∧
    (let s := ready [1, 9] 2 0 2 2;
      windowsReady .rowDec s = true ∧ 2 * PixFmt.gray8.bpp ≤ s.regs.dstCap.toNat ∧
        decodeRow (s.mem.readSeq s.regs.srcBase.toNat 2) 2 1 = .error ⟨.corrupt, 6⟩) ∧
    (let s := ready [7, 7, 7] 2 2 2 16;
      s.regs.height ≠ 0 ∧ windowsReady .imgEnc s = true ∧ s.regs.srcLen.toNat < 2 * 2 * PixFmt.gray8.bpp) ∧
    (let s := ready [7, 7, 7, 8] 2 2 2 9;
      windowsReady .imgEnc s = true ∧ 2 * 2 * PixFmt.gray8.bpp ≤ s.regs.srcLen.toNat ∧
        encodeImage 2 1 2 (s.mem.readSeq s.regs.srcBase.toNat 4) = .ok [2, 0, 2, 7, 4, 0, 0, 2, 7, 8] ∧
        s.regs.dstCap.toNat < 10) ∧
    (let s := ready [2, 0, 2, 7] 2 1 2 1;
      windowsReady .imgDec s = true ∧ s.regs.dstCap.toNat < 2 * 1 * PixFmt.gray8.bpp) ∧
    (let s := ready [1] 2 1 2 2;
      windowsReady .imgDec s = true ∧ 2 * 1 * PixFmt.gray8.bpp ≤ s.regs.dstCap.toNat ∧
        decodeImage 2 1 1 (s.mem.readSeq s.regs.srcBase.toNat 1) = .error ⟨.truncated, 3⟩) ∧
    (let s := ready [5, 5] 3 1 2 9;
      windowsReady (.cvt .rgb8) s = true ∧ s.regs.srcLen.toNat < 3 * 1 * PixFmt.gray8.bpp) ∧
    (let s := ready [5, 5, 6] 3 1 2 8;
      windowsReady (.cvt .rgb8) s = true ∧ 3 * 1 * PixFmt.gray8.bpp ≤ s.regs.srcLen.toNat ∧
        s.regs.dstCap.toNat < 3 * 1 * PixFmt.rgb8.bpp) := by decide +kernel

theorem longImage_ready (z : List Byte) :
    let s := longImage z
    s.regs.width ≠ 0 ∧ s.regs.height ≠ 0 ∧ PixFmt.ofCode s.regs.pixfmt = some .gray8 ∧ s.mem.wf = true ∧
      windowsReady .imgEnc s = true ∧ longRow * 1 * PixFmt.gray8.bpp ≤ s.regs.srcLen.toNat ∧
      s.mem.readSeq s.regs.srcBase.toNat z.length = z :=
  have h : (longImage []).regs.width ≠ 0 ∧ (longImage []).regs.height ≠ 0 ∧
      PixFmt.ofCode (longImage []).regs.pixfmt = some .gray8 ∧ windowsReady .imgEnc (longImage []) = true ∧
      longRow * 1 * PixFmt.gray8.bpp ≤ (longImage []).regs.srcLen.toNat := by decide +kernel
  ⟨h.1, h.2.1, h.2.2.1, Memory.writeSeq_wf _ z rfl, h.2.2.2.1, h.2.2.2.2, Memory.readSeq_writeSeq [] 0x1000 z⟩

/-- The RANGE clause of the same statement. -/
theorem witness_CodecErrorsInOrder_range : ∃ z : List Byte,
    let s := longImage z
    s.regs.width ≠ 0 ∧ s.regs.height ≠ 0 ∧ PixFmt.ofCode s.regs.pixfmt = some .gray8 ∧ s.mem.wf = true ∧
      windowsReady .imgEnc s = true ∧ longRow * 1 * PixFmt.gray8.bpp ≤ s.regs.srcLen.toNat ∧
      ∀ b, encodeImage longRow PixFmt.gray8.bpp 1 (s.mem.readSeq s.regs.srcBase.toNat longRow) ≠ .ok b := by
  obtain ⟨z, hl, hz⟩ := longBytes
  obtain ⟨h1, h2, h3, h4, h5, h6, h7⟩ := longImage_ready z
  rw [hl] at h7
  exact ⟨z, h1, h2, h3, h4, h5, h6, fun b => by rw [h7]; exact hz b⟩

/-- The prefix's second byte missing, a body one byte short (V5.10), V5.15, a bad second row, and V5.9's
first row followed by its second. -/
theorem witness_DecodeImageRowByRow :
    [(1 : Byte)].length < 2 ∧
    (([0x02, 0x00, 0x02] : List Byte) = 0x02 :: 0x00 :: [0x02] ∧
      [(0x02 : Byte)].length < (0x02 : Byte).toNat + 256 * (0x00 : Byte).toNat) ∧
    ((0x00 : Byte).toNat + 256 * (0x00 : Byte).toNat ≤ ([] : List Byte).length ∧
      decodeRow [] 2 1 = .error ⟨.corrupt, 6⟩) ∧
    (decodeRow ([0x02, 0x07, 0x02].take 2) 2 1 = .ok [7, 7] ∧
      decodeImage 2 1 1 ([0x02, 0x07, 0x02].drop 2) = .error ⟨.truncated, 3⟩) ∧
    decodeImage 2 1 1 [4, 0, 0, 2, 7, 8] = .ok ([7, 8], 6) := by decide +kernel

/-- The mask of failed checks of a state's header. -/
def failedMask (s : State) : Byte :=
  (~~~(validate s.cfg.layout (s.mem.readSeq s.regs.srcBase.toNat (hdrSize s.cfg.layout))
    (cksum (s.mem.readSeq s.regs.srcBase.toNat s.regs.srcLen.toNat) (offCksum s.cfg.layout)))).setWidth 8 &&& 0x1F

/-- V7.16, V7.13, V7.14 and V7.15. -/
theorem witness_FileFrontThenReadBody :
    (let s := ready (fileF1.take 18) 0 0 0 64;
      windowsReady .fileCompress s = true ∧ s.mem.wf = true ∧ s.regs.srcLen.toNat < hdrSize s.cfg.layout) ∧
    (let s := ready [0x41, 0x49, 0x46, 0, 0, 3, 2, 0, 0, 0, 0, 5, 0, 0, 0, 0x13, 0, 0, 0] 0 0 0 64;
      windowsReady .fileCompress s = true ∧ s.mem.wf = true ∧ hdrSize s.cfg.layout ≤ s.regs.srcLen.toNat ∧
        failedMask s ≠ 0) ∧
    (let s := ready (fileF1.take 22) 0 0 0 64;
      windowsReady .fileCompress s = true ∧ s.mem.wf = true ∧ hdrSize s.cfg.layout ≤ s.regs.srcLen.toNat ∧
        failedMask s = 0 ∧ s.fileInfo.c = 0 ∧ s.regs.srcLen.toNat - hdrSize s.cfg.layout <
          s.fileInfo.w.toNat * s.fileInfo.h.toNat * s.fileInfo.f.bpp) ∧
    (let s := ready (fileF1C.take 23) 0 0 0 64;
      windowsReady .fileDecompress s = true ∧ s.mem.wf = true ∧ hdrSize s.cfg.layout ≤ s.regs.srcLen.toNat ∧
        failedMask s = 0 ∧ s.fileInfo.c ≠ 0 ∧
        decodeImage s.fileInfo.w.toNat s.fileInfo.f.bpp s.fileInfo.h.toNat
          (s.mem.readSeq (s.regs.srcBase.toNat + hdrSize s.cfg.layout)
            (s.regs.srcLen.toNat - hdrSize s.cfg.layout)) = .error ⟨.truncated, 3⟩) := by decide +kernel

/-- The bodies that can be read: V7.1's, which ends with the file, and V7.3's. -/
theorem witness_FileFrontThenReadBody_body :
    (let s := ready fileF1 0 0 0 64;
      windowsReady .fileCompress s = true ∧ s.mem.wf = true ∧ hdrSize s.cfg.layout ≤ s.regs.srcLen.toNat ∧
        failedMask s = 0 ∧ s.fileInfo.c = 0 ∧ s.fileInfo.w.toNat * s.fileInfo.h.toNat * s.fileInfo.f.bpp ≤
          s.regs.srcLen.toNat - hdrSize s.cfg.layout) ∧
    (let s := ready fileF1C 0 0 0 64;
      windowsReady .fileDecompress s = true ∧ s.mem.wf = true ∧ hdrSize s.cfg.layout ≤ s.regs.srcLen.toNat ∧
        failedMask s = 0 ∧ s.fileInfo.c ≠ 0 ∧
        decodeImage s.fileInfo.w.toNat s.fileInfo.f.bpp s.fileInfo.h.toNat
          (s.mem.readSeq (s.regs.srcBase.toNat + hdrSize s.cfg.layout)
            (s.regs.srcLen.toNat - hdrSize s.cfg.layout)) = .ok ([7, 7, 7, 8], 10)) := by decide +kernel

/-- The header of a Gray8 file of one row of `longRow` pixels. -/
def longHeader : List Byte := hdrDirective .L19 2 0 (BitVec.ofNat 32 longRow) 1 0 19

/-- That header and the bytes `z` after it. -/
def longFile (z : List Byte) : State :=
  { (State.reset.preload 0x1000 longHeader).preload 0x1013 z with
    regs := { Regs.zero with
      srcBase := 0x1000, srcLen := BitVec.ofNat 32 (19 + longRow), dstBase := 0xF0000000, dstCap := 4 } }

theorem longFile_header (z : List Byte) : (longFile z).mem.readSeq 0x1000 19 = longHeader := by
  have h : (longFile z).mem.readSeq 0x1000 19 = (State.reset.preload 0x1000 longHeader).mem.readSeq 0x1000 19 :=
    Memory.readSeq_congr fun i hi => Memory.read_writeSeq_outside (.inl (by omega))
  rw [h]
  decide +kernel

theorem longFile_passes (z : List Byte) : fileHeaderPasses (longFile z) := by
  have h : (longFile z).mem.readSeq (longFile []).regs.srcBase.toNat (hdrSize (longFile []).cfg.layout) = longHeader :=
    longFile_header z
  have hr : (longFile z).regs = (longFile []).regs := rfl
  have hc : (longFile z).cfg = (longFile []).cfg := rfl
  simp only [fileHeaderPasses, hr, hc, h]
  decide +kernel

theorem longFile_info (z : List Byte) : (longFile z).fileInfo = ⟨BitVec.ofNat 32 longRow, 1, .gray8, 0⟩ := by
  have h : (longFile z).srcHeader = longHeader := longFile_header z
  have hc : (longFile z).cfg = (longFile []).cfg := rfl
  simp only [State.fileInfo, h, hc]
  decide +kernel

/-- An uncompressed body that is all there. -/
theorem readBody_plain {s : State} {i : FileInfo} {n : Nat} (hc : i.c = 0)
    (hn : i.w.toNat * i.h.toNat * i.f.bpp = n) (hl : n ≤ s.regs.srcLen.toNat - hdrSize s.cfg.layout) :
    readBody s i = .ok (s.srcSeq (hdrSize s.cfg.layout) n, hdrSize s.cfg.layout + n) := by
  simp only [readBody, hc, hn, if_true, if_pos hl]

theorem longFile_body {z : List Byte} (hl : z.length = longRow) :
    readBody (longFile z) (longFile z).fileInfo = .ok (z, 19 + longRow) := by
  have hz := Memory.readSeq_writeSeq (State.reset.preload 0x1000 longHeader).mem 0x1013 z
  rw [hl] at hz
  have hs : (longFile z).srcSeq 19 longRow = z := hz
  have hn : longRow ≤ (longFile []).regs.srcLen.toNat - hdrSize (longFile []).cfg.layout := by decide +kernel
  rw [longFile_info, readBody_plain (s := longFile z) (n := longRow) rfl (by decide +kernel) hn,
    show hdrSize (longFile z).cfg.layout = 19 from rfl, hs]

theorem longFile_ready (z : List Byte) : windowsReady .fileCompress (longFile z) = true ∧ (longFile z).mem.wf = true := by
  have hr : (longFile z).regs = (longFile []).regs := rfl
  have hc : (longFile z).cfg = (longFile []).cfg := rfl
  have hm : (longFile z).mem = Memory.writeSeq (Memory.writeSeq [] 0x1000 longHeader) 0x1013 z := rfl
  refine ⟨?_, by rw [hm]; exact Memory.writeSeq_wf _ _ (Memory.writeSeq_wf _ _ (by decide))⟩
  simp only [windowsReady, windowRefusal, hr, hc]
  decide +kernel

/-- A file whose row cannot be framed. -/
theorem witness_FileOutputErrors_range : ∃ z,
    windowsReady .fileCompress (longFile z) = true ∧ (longFile z).mem.wf = true ∧ fileHeaderPasses (longFile z) ∧
      readBody (longFile z) (longFile z).fileInfo = .ok (z, 19 + longRow) ∧
      ∀ b, encodeImage (longFile z).fileInfo.w.toNat (longFile z).fileInfo.f.bpp (longFile z).fileInfo.h.toNat z ≠
        .ok b := by
  obtain ⟨z, hl, hz⟩ := longBytes
  have hw : (BitVec.ofNat 32 longRow).toNat = longRow := by decide +kernel
  have hn : ∀ b, encodeImage (longFile z).fileInfo.w.toNat (longFile z).fileInfo.f.bpp
      (longFile z).fileInfo.h.toNat z ≠ .ok b := by
    rw [longFile_info]
    rw [hw]
    exact hz
  exact ⟨z, (longFile_ready z).1, (longFile_ready z).2, longFile_passes z, longFile_body hl, hn⟩

/-- V7.22, one byte short. -/
theorem witness_FileOutputErrors :
    let s := ready fileF1 0 0 0 28
    windowsReady .fileCompress s = true ∧ s.mem.wf = true ∧ fileHeaderPasses s ∧
      readBody s s.fileInfo = .ok ([7, 7, 7, 8], 23) ∧
      encodeImage s.fileInfo.w.toNat s.fileInfo.f.bpp s.fileInfo.h.toNat [7, 7, 7, 8] =
        .ok [2, 0, 2, 7, 4, 0, 0, 2, 7, 8] ∧ s.regs.dstCap.toNat < hdrSize s.cfg.layout + 10 := by
  refine ⟨by decide +kernel, by decide +kernel, ?_, by decide +kernel, by decide +kernel, by decide +kernel⟩
  simp only [fileHeaderPasses]
  decide +kernel

theorem witness_OnlyListedErrorsOccur :
    ∃ t, (pend 0x00000043).pending = some 0x00000043 ∧ engineStep (pend 0x00000043) = .next t :=
  ⟨_, by decide, next_after (by decide +kernel)⟩

/-- One unbacked byte and one device byte, each the window's last. -/
theorem witness_RefusedExactlyWhenNotOrdinary :
    (let s := { windows 0x1000 16 0 0 with cfg := { Config.standard with backed := [⟨0, 0x100F⟩] } };
      windowRefusal .cksum s = some .windowNotBacked) ∧
    (let s := { windows 0x1000 16 0 0 with cfg := { Config.standard with devices := [⟨0x100F, 4⟩] } };
      windowRefusal .cksum s = some .windowNotOrdinary) ∧
    windowRefusal .cksum (windows 0x1000 16 0 0) = none := by decide +kernel

/-! ## Witnesses: frames and files -/

theorem witness_NothingOutsideTheDestinationChanges :
    ∃ t, exec .rowEnc (ready [5, 5, 6] 3 0 2 5) = .next t ∧ (ready [5, 5, 6] 3 0 2 5).mem.wf = true ∧
      inRange (ready [5, 5, 6] 3 0 2 5).regs.dstWindow 0x2005 = false ∧ usesSrc .rowEnc = true ∧
      inRange (ready [5, 5, 6] 3 0 2 5).regs.srcWindow 0x1002 = true :=
  ⟨_, next_after (by decide +kernel), by decide +kernel, by decide +kernel, rfl, by decide +kernel⟩

/-- An HDR_PARSE that fails, with a destination window that shares the source window's last byte. -/
theorem witness_NothingOutsideTheDestinationChanges_hdrParse :
    let r := ready [1, 2] 0 0 0 4
    let s := { r with regs := { r.regs with dstBase := 0x1001 } }
    ∃ t, exec .hdrParse s = .next t ∧ t.regs.err = true ∧ s.mem.wf = true ∧ usesSrc .hdrParse = true ∧
      inRange s.regs.srcWindow 0x1001 = true ∧ inRange s.regs.dstWindow 0x1001 = true :=
  ⟨_, next_after (by decide +kernel), by decide +kernel, by decide +kernel, rfl, by decide +kernel, by decide +kernel⟩

/-- Two commands, and a block that fits its row. -/
theorem witness_NonStoringInstructionsKeepMemory :
    (∃ t, exec .cksum (ready [5] 0 0 0 0) = .next t) ∧
    (∃ t, exec .hdrParse (ready fileF1 0 0 0 4) = .next t ∧ t.regs.status ≠ 0x00000126) ∧
    ∃ t, exec (.repeatBlock 2 [7]) (inRow [2, 7] 1 2 0) = .next t ∧ t.row ≠ none :=
  ⟨⟨_, next_after (by decide +kernel)⟩, ⟨_, next_after (by decide +kernel), by decide +kernel⟩,
    _, next_after (by decide +kernel), by decide +kernel⟩

/-- The last byte written is followed by one that is not; for CKSUM_STAMP, the byte before the checksum. -/
theorem witness_SuccessWritesOnlyTheOutput :
    (∃ t, exec .rowEnc (ready [5, 5, 6] 3 0 2 16) = .next t ∧ t.regs.err = false ∧
      (ready [5, 5, 6] 3 0 2 16).mem.wf = true ∧
      (ready [5, 5, 6] 3 0 2 16).regs.dstBase.toNat + t.regs.outLen.toNat ≤ 0x2005) ∧
    ∃ t, exec .cksumStamp (ready [] 0 0 0 8) = .next t ∧ t.regs.err = false ∧
      0x2002 < (ready [] 0 0 0 8).regs.dstBase.toNat + offCksum (ready [] 0 0 0 8).cfg.layout :=
  ⟨⟨_, next_after (by decide +kernel), by decide +kernel, by decide +kernel, by decide +kernel⟩,
    _, next_after (by decide +kernel), by decide +kernel, by decide +kernel⟩

/-- A success and an error. -/
theorem witness_CommandRegisterFrame :
    (∃ t, exec (.cvt .rgb8) (ready [5, 5, 6] 3 1 2 9) = .next t ∧ t.regs.err = false) ∧
    ∃ t, exec .nop (ready [] 0 0 0 0) = .next t :=
  ⟨⟨_, next_after (by decide +kernel), by decide +kernel⟩, _, next_after (by decide +kernel)⟩

theorem witness_CommandRegisterFrame_error :
    ∃ t, exec .fileCompress (ready (fileF1.take 18) 0 0 0 0) = .next t ∧ t.regs.err = true :=
  ⟨_, next_after (by decide +kernel), by decide +kernel⟩

theorem witness_BlockFrame :
    ∃ t r, exec (Block.lit 2 [7, 8]).toInstr (inRow [0, 2, 7, 8] 1 2 0) = .next t ∧ t.row = some r :=
  ⟨_, _, next_after (by decide +kernel), rfl⟩

/-- Two states that differ in CMD, in OUT_LEN and in a byte outside the source window. -/
theorem witness_ResultDependsOnlyOnTheConfiguration :
    let s := ready [5, 5, 6] 3 0 2 16
    let u := { s.preload 0x1003 [9] with regs := { s.regs with cmd := 5, outLen := 7 } }
    u.cfg = s.cfg ∧ u.regs.srcBase = s.regs.srcBase ∧ u.regs.srcLen = s.regs.srcLen ∧
      u.regs.dstBase = s.regs.dstBase ∧ u.regs.dstCap = s.regs.dstCap ∧ u.regs.width = s.regs.width ∧
      u.regs.height = s.regs.height ∧ u.regs.pixfmt = s.regs.pixfmt ∧ s.mem.wf = true ∧ u.mem.wf = true ∧ u ≠ s ∧
      (∀ a, inRange s.regs.srcWindow a = true → u.mem.read a = s.mem.read a) ∧
      ∃ t, exec .rowEnc s = .next t ∧ t.regs.err = false ∧ 4 < t.regs.outLen.toNat := by
  refine ⟨rfl, rfl, rfl, rfl, rfl, rfl, rfl, rfl, by decide +kernel, by decide +kernel, by decide +kernel, fun a h => ?_,
    _, next_after (by decide +kernel), by decide +kernel, by decide +kernel⟩
  have ha : a = 0x1000 ∨ a = 0x1001 ∨ a = 0x1002 := by
    simp only [inRange, Bool.and_eq_true, decide_eq_true_eq] at h
    have h1 : 0x1000 ≤ a := h.1
    have h2 : a < 0x1003 := h.2
    omega
  obtain rfl | rfl | rfl := ha <;> decide +kernel

/-- The result registers' clauses: CKSUM, HDR_PARSE, and a file-level command that succeeds, and that fails past the
parse point (V7.22). -/
theorem witness_ResultDependsOnlyOnTheConfiguration_registers :
    let early : List Word := [0x00000126, 0x00000166, 0x00000266, 0x00000366]
    (∃ t, exec .cksum (ready fileF1 0 0 0 0) = .next t ∧ t.regs.err = false) ∧
    (∃ t, exec .hdrParse (ready fileF1 0 0 0 0) = .next t ∧ t.regs.err = false) ∧
    (∃ t, exec .fileCompress (ready fileF1 0 0 0 64) = .next t ∧ t.regs.err = false ∧ t.regs.status ∉ early) ∧
    ∃ t, exec .fileCompress (ready fileF1 0 0 0 28) = .next t ∧ t.regs.status ∉ early :=
  ⟨⟨_, next_after (by decide +kernel), by decide +kernel⟩, ⟨_, next_after (by decide +kernel), by decide +kernel⟩,
    ⟨_, next_after (by decide +kernel), by decide +kernel, by decide +kernel⟩,
    _, next_after (by decide +kernel), by decide +kernel⟩

/-- With a command pending, and inside a row. -/
theorem witness_StepKeepsTheInvariant :
    ((busyState []).inv = true ∧ ∃ t, step (busyState []) = .next t) ∧
    ∃ s t, s.inv = true ∧ s.row ≠ none ∧ step s = .next t := by
  refine ⟨⟨by decide +kernel, _, next_after (by decide +kernel)⟩,
    { (ready [2, 7] 2 0 2 2).accept 0x11 with row := some (startRow [2, 7] 2 1) }, _, by decide +kernel, by decide +kernel,
    next_after (by decide +kernel)⟩

/-- F1 compressed (V7.1), and the state that parses the output. -/
def compressed : State := after (exec .fileCompress (ready fileF1 0 0 0 64))

theorem witness_FileOutputValidates :
    let s := ready fileF1 0 0 0 64
    let u := { compressed with regs := { compressed.regs with srcBase := 0x2000, srcLen := 29 } }
    s.mem.wf = true ∧ exec .fileCompress s = .next compressed ∧ compressed.regs.err = false ∧
      u.cfg = compressed.cfg ∧ u.mem = compressed.mem ∧ u.regs.srcBase = compressed.regs.dstBase ∧
      u.regs.srcLen = compressed.regs.outLen :=
  ⟨by decide +kernel, next_after (by decide +kernel), by decide +kernel, rfl, rfl, by decide +kernel, by decide +kernel⟩

/-- P2: F1 compressed, then decompressed to a window of exactly its length. -/
theorem witness_CompressDecompressRoundTrip :
    let s := ready fileF1 0 0 0 64
    let file := s.mem.readSeq s.regs.srcBase.toNat s.regs.srcLen.toNat
    let u := { compressed with regs := { compressed.regs with
      srcBase := 0x2000, srcLen := 29, dstBase := 0x3000, dstCap := 23 } }
    s.mem.wf = true ∧ exec .fileCompress s = .next compressed ∧ compressed.regs.err = false ∧
      byteAt file (offComp s.cfg.layout) = 0 ∧
      readLe32 file (offPixoff s.cfg.layout) = BitVec.ofNat 32 (hdrSize s.cfg.layout) ∧
      s.regs.srcLen.toNat =
        hdrSize s.cfg.layout + s.fileInfo.w.toNat * s.fileInfo.h.toNat * s.fileInfo.f.bpp ∧
      cksum file (offCksum s.cfg.layout) = readLe16 file (offCksum s.cfg.layout) ∧
      u.cfg = compressed.cfg ∧ u.mem = compressed.mem ∧ u.regs.srcBase = compressed.regs.dstBase ∧
      u.regs.srcLen = compressed.regs.outLen ∧ windowsReady .fileDecompress u = true ∧
      s.regs.srcLen.toNat ≤ u.regs.dstCap.toNat :=
  ⟨by decide +kernel, next_after (by decide +kernel), by decide +kernel, by decide +kernel, by decide +kernel,
    by decide +kernel, by decide +kernel, rfl, rfl, by decide +kernel, by decide +kernel, by decide +kernel,
    by decide +kernel⟩

end Sys2Proof.Tests
end

/-! The machine's invariant is kept by every step: one lemma per way a step goes, beside those of
Laws/Invariant.lean for the commands and the configuration registers. -/

namespace Sys2Proof.Machine

/-! ## What the invariant asks of the outside world -/

theorem pendingLegal_of_none {s : State} (hp : s.pending = none) : pendingLegal s = true := by
  simp only [pendingLegal, hp]

/-- `pendingLegal` speaks of a state's registers, pending word, held windows and peers only. -/
theorem pendingLegal_congr {s t : State} (hg : t.regs = s.regs) (hp : t.pending = s.pending)
    (hh : t.env.held = s.env.held) (hq : t.env.peers = s.env.peers) : pendingLegal t = pendingLegal s := by
  simp only [pendingLegal, hg, hp, hh, hq]

/-- While BUSY = 0 nothing is pending. -/
theorem pending_none_of_inv {s : State} (h : s.inv = true) (hb : s.regs.busy = false) : s.pending = none := by
  obtain ⟨-, -, -, -, hp, -⟩ := (State.inv_iff s).1 h
  rwa [hb, Option.isSome_eq_false_iff, Option.isNone_iff_eq_none] at hp

/-- A move that leaves the registers, the pending word and the row alone keeps the invariant if memory, the host's
buffer and the windows stay legal. -/
theorem inv_of_same_block {s t : State} (h : s.inv = true) (hg : t.regs = s.regs) (hp : t.pending = s.pending)
    (hr : t.row = s.row) (hm : t.mem.wf = true) (hs : t.mem.inSpace = true)
    (hb : ∀ c ∈ t.env.hostBuf, c.1 < 4294967296) (hl : pendingLegal t = true) : t.inv = true := by
  obtain ⟨-, -, -, hst, hbusy, hz, -, hrow⟩ := (State.inv_iff s).1 h
  rw [State.inv_iff, hg, hp]
  refine ⟨hm, hs, hb, hst, hbusy, hz, hl, ?_⟩
  rwa [rowLegal, hr, hg]

/-- The inputs that are still to come are no part of the invariant. -/
theorem inv_withInputs {s : State} (h : s.inv = true) (l : List Input) : (s.withInputs l).inv = true := h

/-! ## The row decoder -/

/-- The end of a row keeps the invariant: a row that is filled lies in the destination window. -/
theorem inv_finishRow {s : State} {r : RowCtx} (h : s.inv = true) (hr : s.row = some r) :
    (s.finishRow r).inv = true := by
  obtain ⟨hm, hs, hb, -, -, hz, -, hrow⟩ := (State.inv_iff s).1 h
  simp only [rowLegal, hr, Bool.and_eq_true, Option.isNone_iff_eq_none, decide_eq_true_eq, beq_iff_eq, and_assoc] at hrow
  obtain ⟨-, hw, hneed, hop, hle⟩ := hrow
  simp only [State.finishRow, endRow]
  split_ifs with hend
  · have hspace := (checkWindows_eq_none.1 hw).2.1 rfl
    simp only [rangeEnd, Regs.dstWindow] at hspace
    exact inv_of_done (e := none) (Memory.writeSeq_wf _ _ hm) (Memory.writeSeq_inSpace hs (by omega)) hb rfl
      (by simp) rfl rfl hz
  · exact inv_raiseInRow h rfl

theorem inv_rowStep {s t : State} {r : RowCtx} (h : s.inv = true) (hr : s.row = some r)
    (ht : rowStep r s = .next t) : t.inv = true := by
  simp only [rowStep] at ht
  split_ifs at ht
  · split at ht
    · exact inv_exec h ht (.inr (by rw [hr]; rfl))
    · rename_i e he
      cases ht
      exact inv_raiseInRow h (fetchBlock_rowErr he).listed
  · cases ht
    exact inv_finishRow h hr

/-! ## The register window -/

/-- A register read keeps the invariant: windows are released only while nothing is pending. -/
theorem inv_hostReads {s : State} (h : s.inv = true) (off : Nat) : (hostReads s off).inv = true := by
  obtain ⟨hm, hs, hb, -, -, -, hl, -⟩ := (State.inv_iff s).1 h
  simp only [hostReads]
  split_ifs with hoff
  · have hp : s.pending = none := pending_none_of_inv h hoff.2
    exact inv_of_same_block h rfl rfl rfl hm hs hb (pendingLegal_of_none hp)
  · exact inv_of_same_block h rfl rfl rfl hm hs hb hl

/-- Command acceptance keeps the invariant: the command's windows are held, and no peer shares one. -/
theorem inv_accept {s : State} {w : Word} (h : s.inv = true) (hr : s.row = none)
    (hc : peerClash (wordWindows w s.regs) s.env.peers = false) : (s.accept w).inv = true := by
  obtain ⟨hm, hs, hb, -, -, hz, -, -⟩ := (State.inv_iff s).1 h
  have hww : wordWindows w (s.accept w).regs = wordWindows w s.regs := wordWindows_congr w rfl rfl
  rw [State.inv_iff]
  refine ⟨hm, hs, hb, rfl, (acceptedStatus_busy rfl).symm, hz, ?_, by simp only [rowLegal, accept_row, hr]⟩
  simp only [pendingLegal, accept_pending, hww, accept_env, hc]
  simp +contextual

theorem inv_writeRegister {s t : State} {off : Nat} {v : Word} (h : s.inv = true) (hr : s.row = none)
    (ht : writeRegister s off v = .next t) : t.inv = true := by
  unfold writeRegister at ht
  split at ht
  · cases ht
    exact h
  · rename_i hbusy
    split at ht
    · cases ht
      exact h
    · split at ht
      · cases ht
      · rename_i hc
        cases ht
        exact inv_accept h hr (by simpa using hc)
    · cases ht
      exact inv_hostWrite h (by simpa using hbusy) _ v

/-! ## Shared memory, other instances, reset -/

theorem inv_memoryStore {s t : State} {who : Agent} {a : Word} {v : Byte} (h : s.inv = true)
    (ht : memoryStore s who a v = .next t) : t.inv = true := by
  obtain ⟨hm, hs, hb, -, -, -, hl, -⟩ := (State.inv_iff s).1 h
  simp only [memoryStore] at ht
  split_ifs at ht <;> cases ht
  · refine inv_of_same_block h rfl rfl rfl hm hs (fun c hc => ?_) hl
    rcases List.mem_append.1 hc with hc | hc
    · exact hb c hc
    · rw [List.mem_singleton.1 hc]
      exact a.isLt
  · exact inv_of_same_block h rfl rfl rfl (Memory.write_wf _ _ hm) (Memory.write_inSpace hs a.isLt) hb hl

theorem inv_memoryLoad {s t : State} {who : Agent} {a : Word} (h : s.inv = true)
    (ht : memoryLoad s who a = .next t) : t.inv = true := by
  obtain ⟨hm, hs, hb, -, -, -, hl, -⟩ := (State.inv_iff s).1 h
  unfold memoryLoad at ht
  split at ht
  · cases ht
  · split at ht
    · cases ht
    · cases who <;> cases ht
      · exact inv_of_same_block h rfl rfl rfl hm hs hb hl
      · exact h

/-- Stores inside the address space keep memory canonical and inside it. -/
theorem foldl_write_legal {l : List Host.Cell} {m : Memory} (hm : m.wf = true) (hs : m.inSpace = true)
    (hl : ∀ c ∈ l, c.1 < 4294967296) :
    (l.foldl (fun m c => m.write c.1 c.2) m).wf = true ∧
      (l.foldl (fun m c => m.write c.1 c.2) m).inSpace = true := by
  induction l generalizing m with
  | nil => exact ⟨hm, hs⟩
  | cons c l ih =>
    rw [List.forall_mem_cons] at hl
    exact ih (Memory.write_wf _ _ hm) (Memory.write_inSpace hs hl.1) hl.2

theorem inv_syncHost {s t : State} (h : s.inv = true) (ht : syncHost s = .next t) : t.inv = true := by
  obtain ⟨hm, hs, hb, -, -, -, hl, -⟩ := (State.inv_iff s).1 h
  obtain ⟨hm', hs'⟩ := foldl_write_legal hm hs hb
  simp only [syncHost] at ht
  split_ifs at ht
  cases ht
  exact inv_of_same_block h rfl rfl rfl hm' hs' (by simp) hl

/-- A change of the busy instances keeps the invariant: one that overlaps the pending command is a fault. -/
theorem inv_peersChange {s t : State} {busy : List AddrRange} (h : s.inv = true)
    (ht : peersChange s busy = .next t) : t.inv = true := by
  obtain ⟨hm, hs, hb, -, -, -, hl, -⟩ := (State.inv_iff s).1 h
  simp only [peersChange] at ht
  split at ht
  · rename_i w hp
    split_ifs at ht with hc
    cases ht
    refine inv_of_same_block h rfl rfl rfl hm hs hb ?_
    rw [pendingLegal, hp] at hl ⊢
    simp only [Bool.and_eq_true] at hl ⊢
    exact ⟨hl.1, by simpa using hc⟩
  · rename_i hp
    cases ht
    exact inv_of_same_block h rfl rfl rfl hm hs hb (pendingLegal_of_none hp)

theorem inv_resetEvent {s : State} (h : s.inv = true) : s.resetEvent.inv = true := by
  obtain ⟨hm, hs, hb, -⟩ := (State.inv_iff s).1 h
  obtain ⟨-, henv, -, -, hwf, hspace⟩ := interrupt_facts s
  rw [State.inv_iff, resetEvent_regs, resetEvent_env, release_hostBuf, henv]
  exact ⟨hwf hm, hspace hs, hb, rfl, rfl, rfl, rfl, rfl⟩

/-! ## Every input, every step -/

theorem inv_inputStep {s t : State} {i : Input} {rest : List Input} (h : s.inv = true) (hr : s.row = none)
    (ht : inputStep i rest s = .next t) : t.inv = true := by
  have h' := inv_withInputs h rest
  cases i with
  | engine => exact inv_engine h' ht
  | wait =>
    simp only [inputStep] at ht
    split_ifs at ht
    · exact inv_engine h ht
    · cases ht
      exact inv_hostReads h' _
  | regWrite addr bits v =>
    simp only [inputStep] at ht
    split at ht
    · cases ht
    · cases ht
      exact h'
    · exact inv_writeRegister h' hr ht
  | regRead addr bits =>
    simp only [inputStep] at ht
    split at ht <;> cases ht
    · exact h'
    · exact inv_hostReads h' _
  | memWrite who a v => exact inv_memoryStore h' ht
  | memRead who a => exact inv_memoryLoad h' ht
  | hostSync => exact inv_syncHost h' ht
  | peers busy => exact inv_peersChange h' ht
  | reset =>
    cases ht
    exact inv_resetEvent h'

/-- Settles O56, by the ways a step goes: the row decoder, the engine, or one input of the outside world. -/
theorem stepKeepsTheInvariant : Obligations.StepKeepsTheInvariant := by
  intro s t h ht
  cases hr : s.row with
  | some r => exact inv_rowStep h hr (step_row hr ▸ ht)
  | none =>
    cases hi : s.env.inputs with
    | nil => exact inv_engine h (step_engine hr hi ▸ ht)
    | cons i rest => exact inv_inputStep h hr (step_input hr hi ▸ ht)

/-- Settles O57: nothing is stored, nothing is pending, and every register is 0. -/
theorem resetMeetsTheInvariant : Obligations.ResetMeetsTheInvariant := by
  rw [Obligations.ResetMeetsTheInvariant, State.inv_iff]
  exact ⟨rfl, rfl, by simp [State.reset, Env.quiet], rfl, rfl, rfl, rfl, rfl⟩

end Sys2Proof.Machine

/-! The host's register accesses, and the steps that run the pending command: one equation per case of the
register window's functions. -/

namespace Sys2Proof.Machine

/-! ## The engine -/

/-- The engine's step on a pending word that decodes is that instruction's. -/
theorem engineStep_of_decode {s : State} {w : Word} {i : Instr} (hp : s.pending = some w)
    (hd : decodeCommand w = .ok i) : engineStep s = exec i s := by
  simp only [engineStep, hp, hd]

theorem engineStep_of_idle {s : State} (hp : s.pending = none) : engineStep s = .next s := by
  simp only [engineStep, hp]

theorem rowStep_of_fetch {s : State} {r : RowCtx} {b : Block} {rest : List Byte} (hlt : r.cp < r.c.length)
    (hb : fetchBlock r = .ok (b, rest)) : rowStep r s = exec b.toInstr s := by
  simp only [rowStep, if_pos hlt, hb]

/-- Settles O6: each clause is one of the equations of `step`, then one of the engine's or the row decoder's. -/
theorem stepRunsTheDecodedInstruction : Obligations.StepRunsTheDecodedInstruction := by
  refine ⟨fun s w i hr hp hd => ⟨fun hi => ?_, fun rest hi => ?_, fun rest hi hbusy => ?_⟩,
    fun s r b rest hr hlt hb => ?_, fun s hr hp => ⟨fun hi => ?_, fun rest hi => ?_⟩⟩
  · rw [step_engine hr hi, engineStep_of_decode hp hd]
  · rw [step_input hr hi, inputStep, engineStep_of_decode (s := s.withInputs rest) hp hd]
  · rw [step_input hr hi, inputStep, if_pos hbusy, engineStep_of_decode hp hd]
  · rw [step_row hr, rowStep_of_fetch hlt hb]
  · rw [step_engine hr hi, engineStep_of_idle hp]
  · rw [step_input hr hi, inputStep, engineStep_of_idle (s := s.withInputs rest) hp]

/-! ## How the block takes a register access -/

/-- An aligned 32-bit access inside the window is an access at its offset (10_state.md R22). -/
theorem regAccess_aligned {c : Config} {addr : Word} {off : Nat} (ha : addr.toNat = c.regBase.toNat + off)
    (h4 : off % 4 = 0) (hoff : off ≤ 0xFF) : regAccess c addr 32 = .ok (some off) := by
  have hsub : addr.toNat - c.regBase.toNat = off := by omega
  rw [regAccess, if_pos (by omega), if_pos ⟨rfl, by rw [hsub]; exact h4⟩, hsub]

/-- Any other access that starts inside the window is refused (10_state.md R22). -/
theorem regAccess_other {c : Config} {addr : Word} {bits : Nat} (h1 : c.regBase.toNat ≤ addr.toNat)
    (h2 : addr.toNat ≤ c.regBase.toNat + 0xFF) (hx : bits ≠ 32 ∨ (addr.toNat - c.regBase.toNat) % 4 ≠ 0) :
    regAccess c addr bits = .error .registerAccess := by
  rw [regAccess, if_pos ⟨h1, h2⟩, if_neg (by omega)]

theorem step_regWrite {s : State} {rest : List Input} {addr v : Word} {off : Nat} (hr : s.row = none)
    (hi : s.env.inputs = .regWrite addr 32 v :: rest) (ha : addr.toNat = s.cfg.regBase.toNat + off)
    (h4 : off % 4 = 0) (hoff : off ≤ 0xFF) : step s = writeRegister (s.withInputs rest) off v := by
  simp only [step_input hr hi, inputStep, regAccess_aligned ha h4 hoff]

theorem step_regRead {s : State} {rest : List Input} {addr : Word} {off : Nat} (hr : s.row = none)
    (hi : s.env.inputs = .regRead addr 32 :: rest) (ha : addr.toNat = s.cfg.regBase.toNat + off)
    (h4 : off % 4 = 0) (hoff : off ≤ 0xFF) : step s = .next (hostReads (s.withInputs rest) off) := by
  simp only [step_input hr hi, inputStep, regAccess_aligned ha h4 hoff]

/-! ## Register writes -/

/-- An offset is reserved when it is no register's. -/
theorem RegName.ofOffset_eq_none {off : Nat} : RegName.ofOffset off = none ↔ ∀ n : RegName, n.offset ≠ off := by
  simp only [Option.eq_none_iff_forall_ne_some, ne_eq, RegName.ofOffset_eq_some]

theorem writeRegister_of_busy {s : State} (hb : s.regs.busy = true) (off : Nat) (v : Word) :
    writeRegister s off v = .next s := by
  simp only [writeRegister, hb, if_true]

theorem writeRegister_cmd {s : State} {w : Word} (hb : s.regs.busy = false)
    (hc : peerClash (wordWindows w s.regs) s.env.peers = false) : writeRegister s 0 w = .next (s.accept w) := by
  simp only [writeRegister, hb, RegName.ofOffset_eq_some.2 (show RegName.CMD.offset = 0 from rfl), hc, Bool.false_eq_true,
    if_false]

theorem writeRegister_reserved {s : State} {off : Nat} (hn : ∀ n : RegName, n.offset ≠ off) (v : Word) :
    writeRegister s off v = .next s := by
  simp only [writeRegister, RegName.ofOffset_eq_none.2 hn, ite_self]

theorem writeRegister_config {s : State} {n : RegName} (hb : s.regs.busy = false) (hn : n ≠ .CMD) (v : Word) :
    writeRegister s n.offset v = .next { s with regs := s.regs.hostWrite n v } := by
  simp only [writeRegister, hb, RegName.ofOffset_eq_some.2 rfl, Bool.false_eq_true, if_false]

/-- FMT takes the low 16 bits of what is written (10_state.md R28). -/
theorem fmtWord_of_word (v : Word) : fmtWord (v.extractLsb' 8 8) (v.extractLsb' 0 8) = v &&& 0x0000FFFF := by
  have hmask : ∀ i < 32, (0x0000FFFF : Word).getLsbD i = decide (i < 16) := by decide
  refine BitVec.eq_of_getLsbD_eq fun i hi => ?_
  simp only [fmtWord, BitVec.getLsbD_append, BitVec.getLsbD_extractLsb', BitVec.getLsbD_and, hmask i hi, Nat.zero_add]
  by_cases h8 : i < 8
  · simp [h8, show i < 16 by omega]
  · by_cases h16 : i < 16
    · simp [h8, h16, show i - 8 < 8 by omega, show 8 + (i - 8) = i by omega]
    · simp [h8, h16, show ¬i - 8 < 8 by omega]

/-- Settles O7, by the equations of a write while BUSY and of acceptance. -/
theorem commandAcceptance : Obligations.CommandAcceptance := by
  intro s rest addr w hr hi
  refine ⟨fun hb ha hc => ?_, fun hb h1 h2 h4 => ?_⟩
  · rw [step_regWrite (off := 0) hr hi (by rw [ha]; rfl) rfl (by omega)]
    exact writeRegister_cmd (s := s.withInputs rest) hb hc
  · rw [step_regWrite hr hi (by omega) h4 (by omega)]
    exact writeRegister_of_busy (s := s.withInputs rest) hb _ _

/-- Settles O8: an offset is a register's or reserved, and each register has its own line. -/
theorem hostWriteSetsOneRegister : Obligations.HostWriteSetsOneRegister := by
  intro s rest addr v off hr hb hi ha h4 hoff h0
  rw [step_regWrite hr hi ha h4 hoff]
  by_cases hn : ∃ n : RegName, n.offset = off
  · obtain ⟨n, rfl⟩ := hn
    rw [writeRegister_config (s := s.withInputs rest) hb (by rintro rfl; exact h0 rfl)]
    cases n <;> simp [RegName.offset, Regs.hostWrite, State.withInputs, fmtWord_of_word]
  · have hn : ∀ n : RegName, n.offset ≠ off := not_exists.1 hn
    have hoffs : off ≠ 0x08 ∧ off ≠ 0x0C ∧ off ≠ 0x10 ∧ off ≠ 0x14 ∧ off ≠ 0x18 ∧ off ≠ 0x1C ∧ off ≠ 0x20 :=
      ⟨(hn .SRC_BASE).symm, (hn .SRC_LEN).symm, (hn .DST_BASE).symm, (hn .DST_CAP).symm, (hn .WIDTH).symm,
        (hn .HEIGHT).symm, (hn .FMT).symm⟩
    simp [writeRegister_reserved hn, hoffs, State.withInputs]

/-! ## Register reads -/

theorem readRegister_offset (s : State) (n : RegName) : readRegister s n.offset = s.regs.get n := by
  simp only [readRegister, RegName.ofOffset_eq_some.2 rfl]

/-- Offsets from 0x40 on are reserved and read as 0. -/
theorem readRegister_reserved (s : State) {off : Nat} (h : 0x40 ≤ off) : readRegister s off = 0 := by
  have hn : ∀ n : RegName, n.offset ≠ off := by
    rintro n rfl
    cases n <;> simp [RegName.offset] at h
  simp only [readRegister, RegName.ofOffset_eq_none.2 hn]

/-- A register read changes nothing but what the host sees and the hold on the windows. -/
theorem hostReads_facts (s : State) (off : Nat) :
    (hostReads s off).regs = s.regs ∧ (hostReads s off).mem = s.mem ∧ (hostReads s off).pending = s.pending ∧
      (hostReads s off).env.inputs = s.env.inputs ∧ (hostReads s off).env.readData = readRegister s off := by
  simp only [hostReads]
  split
  · exact ⟨rfl, rfl, rfl, rfl, rfl⟩
  · exact ⟨rfl, rfl, rfl, rfl, rfl⟩

/-- Settles O9, by what a register read changes and how the block takes an access. -/
theorem hostReadReturnsTheRegister : Obligations.HostReadReturnsTheRegister := by
  refine ⟨fun s rest addr off hr hi ha h4 hoff => ?_, fun s rest addr v bits hr h1 h2 hx => ⟨fun hi => ?_, fun hi => ?_⟩⟩
  · obtain ⟨hregs, hmem, hpend, hin, hdata⟩ := hostReads_facts (s.withInputs rest) off
    refine ⟨_, step_regRead hr hi ha h4 hoff, hregs, hmem, hpend, hin, ?_, fun h => ?_⟩
    · rintro n rfl
      exact hdata.trans (readRegister_offset _ n)
    · exact hdata.trans (readRegister_reserved _ h)
  · simp only [step_input hr hi, inputStep, regAccess_other h1 h2 hx]
  · simp only [step_input hr hi, inputStep, regAccess_other h1 h2 hx]

/-! ## Reset -/

/-- Settles O13, by what a reset does to an interrupted command's windows: nothing when nothing is pending. -/
theorem resetEventClearsTheBlock : Obligations.ResetEventClearsTheBlock := by
  refine ⟨fun n => by cases n <;> rfl, rfl, fun s rest hr hi => ?_⟩
  obtain ⟨hcfg, henv, hidle, -⟩ := interrupt_facts (s.withInputs rest)
  refine ⟨(s.withInputs rest).resetEvent, by rw [step_input hr hi, inputStep], rfl, rfl, rfl, hcfg, ?_, fun hp => ?_⟩
  · rw [resetEvent_env, release_inputs, henv, withInputs_env]
  · rw [resetEvent_mem, hidle hp, withInputs_mem]

end Sys2Proof.Machine

/-! The registers a command leaves alone, in success and in error: how any command ends, said once, then the frame. -/

namespace Sys2Proof.Machine

theorem isFile_iff {i : Instr} :
    isFile i = true ↔ i = .fileCompress ∨ i = .fileDecompress ∨ ∃ df, i = .fileConvert df := by
  cases i <;> simp [isFile]

/-- How any command ends: its body succeeds and it completes, or it ends with an error, before its body has changed a
register or (a file-level command) at its parse point. -/
theorem exec_command_cases {i : Instr} {s t : State} (h : exec i s = .next t) (hrep : ∀ n px, i ≠ .repeatBlock n px)
    (hlit : ∀ m px, i ≠ .literalBlock m px) :
    (∃ u, (i = .nop ∧ u = s ∨ usesWindow i = true ∧ commandBody i s = .ok u) ∧ t = u.complete) ∨
    ∃ u e, i ≠ .nop ∧ (u = s ∨ isFile i = true ∧ u = s.parsePoint) ∧ t.cfg = u.cfg ∧ t.env = u.env ∧
      t.pending = none ∧ t.row = none ∧
      t.regs = { u.regs with outLen := 0, inPos := 0, status := doneStatus (some e) } := by
  by_cases hw : usesWindow i = true
  · have hnop : i ≠ .nop := by
      rintro rfl
      cases hw
    obtain ⟨-, ⟨e, -, rfl⟩ | ⟨-, ⟨u, hu, rfl⟩ | ⟨u, e, -, -, hu, rfl⟩⟩⟩ := exec_window_cases hw h
    · exact .inr ⟨s, e, hnop, .inl rfl, rfl, rfl, rfl, rfl, rfl⟩
    · exact .inl ⟨u, .inr ⟨hw, hu⟩, rfl⟩
    · exact .inr ⟨u, e, hnop, hu, rfl, rfl, rfl, rfl, rfl⟩
  · cases i with
    | nop =>
      cases h
      exact .inl ⟨s, .inl ⟨rfl, rfl⟩, rfl⟩
    | reserved43 rest =>
      cases h
      exact .inr ⟨s, .illegal 1, by simp, .inl rfl, rfl, rfl, rfl, rfl, rfl⟩
    | repeatBlock n px => exact absurd rfl (hrep n px)
    | literalBlock m px => exact absurd rfl (hlit m px)
    | hdrParse | cksum | cksumStamp | rowEnc | rowDec | imgEnc | imgDec | cvt | fileCompress | fileDecompress
    | fileConvert => exact absurd rfl hw

/-- The registers a command that succeeds leaves alone, NOP among them (10_state.md R36). -/
theorem completed_regs {i : Instr} {s u : State}
    (hu : i = .nop ∧ u = s ∨ usesWindow i = true ∧ commandBody i s = .ok u) :
    BodyFrame s u ∧ (i = .nop → u = s) ∧
    (isFile i = false → i ≠ .hdrParse → u.regs.width = s.regs.width ∧ u.regs.height = s.regs.height ∧
      u.regs.hdrValid = s.regs.hdrValid ∧ u.regs.hdrCksum = s.regs.hdrCksum ∧
      u.regs.hdrPixoff = s.regs.hdrPixoff ∧ ((∀ df, i ≠ .cvt df) → u.regs.fmt = s.regs.fmt) ∧
      (i ≠ .cksum → u.regs.calcCksum = s.regs.calcCksum)) ∧
    (isFile i = false → i ≠ .cksumStamp → u.regs.outCksum = s.regs.outCksum) := by
  obtain ⟨rfl, rfl⟩ | ⟨hw, hu⟩ := hu
  · exact ⟨.refl _, fun _ => rfl, fun _ _ => ⟨rfl, rfl, rfl, rfl, rfl, fun _ => rfl, fun _ => rfl⟩, fun _ _ => rfl⟩
  · refine ⟨commandBody_frame hw hu, ?_, commandBody_regs hw hu⟩
    rintro rfl
    cases hw

/-- Settles O53, by how a command ends. -/
theorem commandRegisterFrame : Obligations.CommandRegisterFrame := by
  intro i s t h hrep hlit file parses
  have hfile : ¬file → isFile i = false := fun hn => by rwa [← Bool.not_eq_true, isFile_iff]
  obtain ⟨u, hu, rfl⟩ | ⟨u, e, hnop, hu, hcfg, henv, hpend, hrow, hregs⟩ := exec_command_cases h hrep hlit
  · obtain ⟨hframe, hnop, hparse, hout⟩ := completed_regs hu
    obtain ⟨hbusy, hdone, herr⟩ := doneStatus_flags (r := u.complete.regs) (e := none) rfl
    have hkept := fun hp : ¬parses => hparse (hfile fun hf => hp (.inl hf)) fun hi => hp (.inr ⟨hi, herr⟩)
    refine ⟨hframe.cfg, hframe.env, rfl, rfl, hframe.cmd, hframe.srcBase, hframe.srcLen, hframe.dstBase,
      hframe.dstCap, hbusy, hdone, fun he => absurd (herr.symm.trans he) (by decide), ?_, fun hp => ?_, fun hp hcvt => ?_,
      fun hp hck => ?_, fun hp => ?_⟩
    · intro hi
      rw [hnop hi]
      exact ⟨rfl, rfl⟩
    · obtain ⟨hw, hh, hv, hc, hpix, -⟩ := hkept hp
      exact ⟨hw, hh, hv, hc, hpix⟩
    · obtain ⟨-, -, -, -, -, hfmt, -⟩ := hkept hp
      exact hfmt fun df hi => hcvt ⟨⟨df, hi⟩, herr⟩
    · obtain ⟨-, -, -, -, -, -, hcalc⟩ := hkept hp
      exact hcalc fun hi => hck ⟨hi, herr⟩
    · exact hout (hfile fun hf => hp ⟨.inl hf, herr⟩) fun hi => hp ⟨.inr hi, herr⟩
  · obtain ⟨hbusy, hdone, herr⟩ := doneStatus_flags (r := t.regs) (e := some e) (by rw [hregs])
    have hsame : ¬file → u = s := fun hn => hu.resolve_right fun hf => hn (isFile_iff.1 hf.1)
    have hframe : BodyFrame s u := by
      rcases hu with rfl | ⟨-, rfl⟩
      · exact .refl _
      · exact .parsePoint _
    have hout : u.regs.outCksum = s.regs.outCksum := by
      rcases hu with rfl | ⟨-, rfl⟩ <;> rfl
    refine ⟨hcfg.trans hframe.cfg, henv.trans hframe.env, hpend, hrow, ?_, ?_, ?_, ?_, ?_, hbusy, hdone, fun _ => ?_,
      fun hi => absurd hi hnop, fun hp => ?_, fun hp _ => ?_, fun hp _ => ?_, fun _ => ?_⟩
    all_goals rw [hregs]
    · exact hframe.cmd
    · exact hframe.srcBase
    · exact hframe.srcLen
    · exact hframe.dstBase
    · exact hframe.dstCap
    · exact ⟨rfl, rfl⟩
    · rw [hsame fun hf => hp (.inl hf)]
      exact ⟨rfl, rfl, rfl, rfl, rfl⟩
    · rw [hsame fun hf => hp (.inl hf)]
    · rw [hsame fun hf => hp (.inl hf)]
    · exact hout

end Sys2Proof.Machine

/-! A command's result depends on the configuration registers and the source window only: what two states that agree
on these compute, then what the two runs leave. -/

namespace Sys2Proof.Machine

/-- What a command's result may depend on (10_state.md R39): the parameters, the configuration registers, and the
source window's bytes. -/
structure SameConfiguration (s s' : State) : Prop where
  cfg : s'.cfg = s.cfg
  srcBase : s'.regs.srcBase = s.regs.srcBase
  srcLen : s'.regs.srcLen = s.regs.srcLen
  dstBase : s'.regs.dstBase = s.regs.dstBase
  dstCap : s'.regs.dstCap = s.regs.dstCap
  width : s'.regs.width = s.regs.width
  height : s'.regs.height = s.regs.height
  pixfmt : s'.regs.pixfmt = s.regs.pixfmt
  source : ∀ a, inRange s.regs.srcWindow a = true → s'.mem.read a = s.mem.read a

/-- The registers written at the parse point agree (10_state.md R36). -/
def SameParsed (r r' : Regs) : Prop :=
  r'.width = r.width ∧ r'.height = r.height ∧ r'.fmt = r.fmt ∧ r'.hdrValid = r.hdrValid ∧
    r'.hdrCksum = r.hdrCksum ∧ r'.hdrPixoff = r.hdrPixoff ∧ r'.calcCksum = r.calcCksum

/-- Two successful bodies agree on the output: its length, the bytes consumed, its bytes and FMT.PIXFMT. -/
structure SameOutput (u u' : State) : Prop where
  outLen : u'.regs.outLen = u.regs.outLen
  inPos : u'.regs.inPos = u.regs.inPos
  bytes : ∀ k < u.regs.outLen.toNat,
    u'.mem.read (u.regs.dstBase.toNat + k) = u.mem.read (u.regs.dstBase.toNat + k)
  pixfmt : u'.regs.pixfmt = u.regs.pixfmt

/-- Two successful bodies of a command agree on every result register it writes. -/
structure SameResult (i : Instr) (u u' : State) : Prop where
  output : SameOutput u u'
  calcCksum : i = .cksum → u'.regs.calcCksum = u.regs.calcCksum
  parsed : i = .hdrParse ∨ isFile i = true → SameParsed u.regs u'.regs
  outCksum : isFile i = true → u'.regs.outCksum = u.regs.outCksum

/-! ## Computations that agree -/

/-- Past a check, only what follows when it passes matters. -/
theorem check_bind_congr {α : Type} {c : Bool} {e : Err} {f g : Unit → Except Err α} (h : c = true → f () = g ()) :
    (check c e >>= f) = (check c e >>= g) := by
  cases c with
  | false => rfl
  | true => exact h rfl

/-- Bytes just written read alike, whatever memory they were written to. -/
theorem Memory.read_writeSeq_congr {m m' : Memory} {a b : Nat} {bs : List Byte}
    (h : ¬(a ≤ b ∧ b < a + bs.length) → m'.read b = m.read b) :
    (m'.writeSeq a bs).read b = (m.writeSeq a bs).read b := by
  rw [Memory.read_writeSeq, Memory.read_writeSeq]
  split_ifs with hin
  · rfl
  · exact h hin

/-- Two states that agree on the first `n` destination bytes and on FMT.PIXFMT agree on an output of `n` bytes. -/
theorem SameOutput.setLengths {u u' : State} {n p : Nat}
    (hb : ∀ k < n, u'.mem.read (u.regs.dstBase.toNat + k) = u.mem.read (u.regs.dstBase.toNat + k))
    (hf : u'.regs.pixfmt = u.regs.pixfmt) : SameOutput (u.setLengths n p) (u'.setLengths n p) where
  outLen := rfl
  inPos := rfl
  bytes k hk := by
    rw [setLengths_regs, BitVec.toNat_ofNat] at hk
    exact hb k (hk.trans_le (Nat.mod_le _ _))
  pixfmt := hf

/-- PIXFMT is a field of FMT. -/
theorem SameParsed.pixfmt {r r' : Regs} (h : SameParsed r r') : r'.pixfmt = r.pixfmt := by
  obtain ⟨-, -, hfmt, -⟩ := h
  simp only [Regs.pixfmt, hfmt]

/-- FMT.PIXFMT after a conversion is the target's code. -/
theorem pixfmt_setTarget (s : State) (df : PixFmt) : (s.setTarget df).regs.pixfmt = df.code := low_append _ _

namespace SameConfiguration

variable {s s' : State} (hc : SameConfiguration s s')
include hc

/-! ## What the two states compute -/

theorem srcWindow : s'.regs.srcWindow = s.regs.srcWindow := by
  simp only [Regs.srcWindow, hc.srcBase, hc.srcLen]

theorem dstWindow : s'.regs.dstWindow = s.regs.dstWindow := by
  simp only [Regs.dstWindow, hc.dstBase, hc.dstCap]

theorem windowRefusal (i : Instr) : windowRefusal i s' = windowRefusal i s :=
  windowRefusal_congr hc.cfg hc.srcWindow hc.dstWindow

theorem checkWindows (i : Instr) : checkWindows i s'.regs = checkWindows i s.regs :=
  checkWindows_congr hc.srcWindow hc.dstWindow

/-- The source window's bytes agree. -/
theorem srcSeq {k n : Nat} (h : k + n ≤ s.regs.srcLen.toNat) : s'.srcSeq k n = s.srcSeq k n := by
  simp only [State.srcSeq, hc.srcBase]
  refine Memory.readSeq_congr fun j hj => hc.source _ (inRange_eq_true.2 ?_)
  simp only [Regs.srcWindow, rangeEnd]
  omega

theorem srcCksum : s'.srcCksum = s.srcCksum := by
  simp only [State.srcCksum, hc.cfg, hc.srcLen, hc.srcSeq (Nat.zero_add _).le]

theorem srcHeader (h : hdrSize s.cfg.layout ≤ s.regs.srcLen.toNat) : s'.srcHeader = s.srcHeader := by
  simp only [State.srcHeader, hc.cfg, hc.srcSeq ((Nat.zero_add _).trans_le h)]

theorem fileInfo (h : hdrSize s.cfg.layout ≤ s.regs.srcLen.toNat) : s'.fileInfo = s.fileInfo := by
  simp only [State.fileInfo, hc.cfg, hc.srcHeader h]

theorem geometry (needH : Bool) : geometry needH s'.regs = geometry needH s.regs := by
  simp only [Machine.geometry, hc.width, hc.height, hc.pixfmt]

theorem rowEncResult : rowEncResult s' = rowEncResult s := by
  simp only [Machine.rowEncResult, hc.geometry, hc.srcLen, hc.dstCap]
  refine bind_congr fun ⟨w, h, f⟩ => check_bind_congr fun hle => ?_
  rw [hc.srcSeq (by simpa using hle)]

theorem rowDecResult : rowDecResult s' = rowDecResult s := by
  simp only [Machine.rowDecResult, hc.geometry, hc.srcLen, hc.dstCap, hc.srcSeq (Nat.zero_add _).le]

theorem imgEncResult : imgEncResult s' = imgEncResult s := by
  simp only [Machine.imgEncResult, hc.geometry, hc.srcLen, hc.dstCap]
  refine bind_congr fun ⟨w, h, f⟩ => check_bind_congr fun hle => ?_
  rw [hc.srcSeq (by simpa using hle)]

theorem imgDecResult : imgDecResult s' = imgDecResult s := by
  simp only [Machine.imgDecResult, hc.geometry, hc.srcLen, hc.dstCap, hc.srcSeq (Nat.zero_add _).le]

theorem cvtResult (df : PixFmt) : cvtResult df s' = cvtResult df s := by
  simp only [Machine.cvtResult, hc.geometry, hc.srcLen, hc.dstCap]
  refine bind_congr fun ⟨w, h, sf⟩ => check_bind_congr fun hle => ?_
  rw [hc.srcSeq (by simpa using hle)]

theorem readBody (i : FileInfo) (h : hdrSize s.cfg.layout ≤ s.regs.srcLen.toNat) : readBody s' i = readBody s i := by
  simp only [Machine.readBody, hc.cfg, hc.srcLen]
  split_ifs with hcomp hn
  · rw [hc.srcSeq (by omega)]
  · rfl
  · rw [hc.srcSeq (by omega)]

theorem parsePoint (h : hdrSize s.cfg.layout ≤ s.regs.srcLen.toNat) :
    SameParsed s.parsePoint.regs s'.parsePoint.regs := by
  simp only [SameParsed, parsePoint_regs, hc.cfg, hc.srcHeader h, hc.srcCksum, and_self]

/-! ## What the two bodies leave -/

/-- The same bytes delivered are the same output. -/
theorem deliver (out : List Byte) (p : Nat) : SameOutput (s.deliver out p) (s'.deliver out p) := by
  refine .setLengths (u := s.dstWrite out) (u' := s'.dstWrite out) (fun k hk => ?_) hc.pixfmt
  rw [dstWrite_mem, dstWrite_mem, dstWrite_regs, hc.dstBase]
  exact Memory.read_writeSeq_congr (by omega)

/-- A command that only delivers an output. -/
theorem deliverBody_ok {u : State} {x : Except Err (List Byte × Nat)} (h : deliverBody s x = .ok u) :
    ∃ u', deliverBody s' x = .ok u' ∧ SameOutput u u' := by
  obtain ⟨out, p, rfl, rfl⟩ := Machine.deliverBody_ok.1 h
  exact ⟨_, rfl, hc.deliver out p⟩

/-- The same file written and stamped is the same output, and has the same checksum. -/
theorem stamped (h : hdrSize s.cfg.layout ≤ s.regs.srcLen.toNat) (out : List Byte) (p : Nat) :
    SameOutput (((s.parsePoint.dstWrite out).stamp out.length).setLengths out.length p)
      (((s'.parsePoint.dstWrite out).stamp out.length).setLengths out.length p) ∧
    ((s'.parsePoint.dstWrite out).stamp out.length).regs.outCksum =
      ((s.parsePoint.dstWrite out).stamp out.length).regs.outCksum := by
  have hck : ∀ x : State, (x.dstWrite out).dstSeq 0 out.length = out := fun x =>
    Memory.readSeq_writeSeq _ _ _
  constructor
  · refine .setLengths (fun k hk => ?_) ((hc.parsePoint h).pixfmt)
    simp only [stamp_mem, hck, dstWrite_mem, dstWrite_cfg, dstWrite_regs, parsePoint_cfg, parsePoint_regs, stamp_regs,
      hc.cfg, hc.dstBase]
    exact Memory.read_writeSeq_congr fun _ => Memory.read_writeSeq_congr (by omega)
  · simp only [stamp_regs, hck, dstWrite_cfg, parsePoint_cfg, hc.cfg]

theorem fileBody_ok {u : State} {f2 : FileInfo → PixFmt} {c2 : FileInfo → Byte}
    {chg : FileInfo → List Byte → List Byte} (hu : fileBody s f2 c2 chg = .ok u) :
    ∃ u', fileBody s' f2 c2 chg = .ok u' ∧ SameOutput u u' ∧ SameParsed u.regs u'.regs ∧
      u'.regs.outCksum = u.regs.outCksum := by
  obtain ⟨pix, consumed, body, hlen, hok, hread, hwrite, hback⟩ := Machine.fileBody_ok.1 hu
  obtain ⟨hcap, rfl⟩ := fileBack_ok.1 hback
  have hp := hc.parsePoint hlen
  obtain ⟨hout, hck⟩ := hc.stamped hlen
    (makeHeader s.cfg.layout (f2 s.fileInfo) (c2 s.fileInfo) s.fileInfo.w s.fileInfo.h ++ body) consumed
  refine ⟨_, Machine.fileBody_ok.2 ⟨pix, consumed, body, ?_, ?_, ?_, ?_, fileBack_ok.2 ⟨?_, rfl⟩⟩, ?_⟩
  · rwa [hc.cfg, hc.srcLen]
  · rwa [hc.cfg, hc.srcHeader hlen, hc.srcCksum]
  · rwa [hc.fileInfo hlen, hc.readBody _ hlen]
  · rwa [hc.fileInfo hlen]
  · simp only [parsePoint_cfg, parsePoint_regs, hc.cfg, hc.fileInfo hlen, hc.dstCap] at hcap ⊢
    exact hcap
  · simp only [parsePoint_cfg, hc.cfg, hc.fileInfo hlen]
    exact ⟨hout, hp, hck⟩

/-- A file-level body that fails does so in both states, and past the parse point with the same parsed registers. -/
theorem fileBody_error {u : State} {e : Err} {f2 : FileInfo → PixFmt} {c2 : FileInfo → Byte}
    {chg : FileInfo → List Byte → List Byte} (hu : fileBody s f2 c2 chg = .error (u, e)) :
    ∃ u', fileBody s' f2 c2 chg = .error (u', e) ∧ (e ≠ .truncated 1 → SameParsed u.regs u'.regs) := by
  rcases Machine.fileBody_error.1 hu with h | ⟨hlen, hok, rfl, h⟩
  · rcases fileFront_error.1 h with ⟨hlen, rfl, rfl⟩ | ⟨hlen, hbad, rfl, rfl⟩
    · refine ⟨s', Machine.fileBody_error.2 (.inl (fileFront_error.2 (.inl ⟨?_, rfl, rfl⟩))), fun h => absurd rfl h⟩
      rwa [hc.cfg, hc.srcLen]
    · refine ⟨s'.parsePoint, Machine.fileBody_error.2 (.inl (fileFront_error.2 (.inr ?_))), fun _ => hc.parsePoint hlen⟩
      simp only [hc.cfg, hc.srcLen, hc.srcHeader hlen, hc.srcCksum, and_true]
      exact ⟨hlen, hbad⟩
  · refine ⟨s'.parsePoint, Machine.fileBody_error.2 (.inr ?_), fun _ => hc.parsePoint hlen⟩
    simp only [fileBack_error, parsePoint_cfg, parsePoint_regs, hc.cfg, hc.srcLen, hc.srcHeader hlen, hc.srcCksum,
      hc.fileInfo hlen, hc.readBody _ hlen, hc.dstCap, true_and] at h ⊢
    exact ⟨hlen, hok, h⟩

/-- A successful body succeeds in both states with the same result, CKSUM_STAMP apart, which reads its destination. -/
theorem commandBody_ok {i : Instr} {u : State} (hw : usesWindow i = true) (hi : i ≠ .cksumStamp)
    (hu : commandBody i s = .ok u) : ∃ u', commandBody i s' = .ok u' ∧ SameResult i u u' := by
  cases i with
  | hdrParse =>
    simp only [commandBody] at hu ⊢
    split_ifs at hu with hlen
    cases hu
    have hp := hc.parsePoint hlen
    rw [hc.cfg, hc.srcLen, if_pos hlen]
    exact ⟨_, rfl, .setLengths (by simp) hp.pixfmt,
      by simp, fun _ => hp,
      by simp [isFile]⟩
  | cksum =>
    cases hu
    simp only [commandBody, hc.srcCksum, hc.srcLen]
    exact ⟨_, rfl, .setLengths (by simp) hc.pixfmt, fun _ => rfl, by simp [isFile],
      by simp [isFile]⟩
  | cksumStamp => exact absurd rfl hi
  | rowEnc | rowDec | imgEnc | imgDec =>
    obtain ⟨u', hu', hout⟩ := hc.deliverBody_ok hu
    refine ⟨u', ?_, hout, by simp, by simp [isFile], by simp [isFile]⟩
    simpa only [commandBody, hc.rowEncResult, hc.rowDecResult, hc.imgEncResult, hc.imgDecResult] using hu'
  | cvt df =>
    obtain ⟨out, p, hres, rfl⟩ := cvt_body_ok.1 hu
    have hout := hc.deliver out p
    refine ⟨_, cvt_body_ok.2 ⟨out, p, (hc.cvtResult df).trans hres, rfl⟩, ⟨hout.outLen, hout.inPos, hout.bytes, ?_⟩,
      by simp, by simp [isFile], by simp [isFile]⟩
    rw [pixfmt_setTarget, pixfmt_setTarget]
  | fileCompress | fileDecompress | fileConvert =>
    simp only [commandBody] at hu ⊢
    obtain ⟨u', hu', hout, hp, hck⟩ := hc.fileBody_ok hu
    exact ⟨u', hu', hout, by simp, fun _ => hp, fun _ => hck⟩
  | nop | reserved43 | literalBlock | repeatBlock => simp [usesWindow, usesSrc, usesDst] at hw

/-- A failing body fails in both states with the same error. -/
theorem commandBody_error {i : Instr} {u : State} {e : Err} (hi : i ≠ .cksumStamp)
    (hu : commandBody i s = .error (u, e)) :
    ∃ u', commandBody i s' = .error (u', e) ∧
      (isFile i = true → e ≠ .truncated 1 → SameParsed u.regs u'.regs) := by
  cases i with
  | hdrParse =>
    simp only [commandBody] at hu ⊢
    split_ifs at hu with hlen
    cases hu
    rw [hc.cfg, hc.srcLen, if_neg hlen]
    exact ⟨s', rfl, by simp [isFile]⟩
  | cksumStamp => exact absurd rfl hi
  | rowEnc | rowDec | imgEnc | imgDec =>
    have hres := (deliverBody_error.1 hu).2
    refine ⟨s', deliverBody_error.2 ⟨rfl, ?_⟩, by simp [isFile]⟩
    simpa only [hc.rowEncResult, hc.rowDecResult, hc.imgEncResult, hc.imgDecResult] using hres
  | cvt df =>
    exact ⟨s', cvt_body_error.2 ⟨rfl, (hc.cvtResult df).trans (cvt_body_error.1 hu).2⟩, by simp [isFile]⟩
  | fileCompress | fileDecompress | fileConvert =>
    simp only [commandBody] at hu ⊢
    obtain ⟨u', hu', hp⟩ := hc.fileBody_error hu
    exact ⟨u', hu', fun _ => hp⟩
  | nop | cksum | reserved43 | literalBlock | repeatBlock => simp [commandBody] at hu

end SameConfiguration

/-- Settles O55: NOP and CheckWindows' errors compute nothing; otherwise the two bodies agree. -/
theorem resultDependsOnlyOnTheConfiguration : Obligations.ResultDependsOnlyOnTheConfiguration := by
  intro i s s' t hi hcfg hsb hsl hdb hdc hwd hht hpf _ _ hsrc h file early
  have hc : SameConfiguration s s' := ⟨hcfg, hsb, hsl, hdb, hdc, hwd, hht, hpf, hsrc⟩
  have hfile : file → isFile i = true := isFile_iff.2
  have hkind : i = .nop ∨ usesWindow i = true ∧ i ≠ .cksumStamp := by
    cases i <;> simp [usesWindow, usesSrc, usesDst] at hi ⊢
  rcases hkind with rfl | ⟨hw, hst⟩
  · cases h
    exact ⟨s'.complete, rfl, rfl, fun hn => absurd rfl hn, fun _ hn => absurd rfl hn, by simp, by simp [file],
      fun _ => hpf, by simp [file]⟩
  rw [exec_eq_runCommand hw]
  obtain ⟨hr, ⟨e, he, rfl⟩ | ⟨hcw, ⟨u, hu, rfl⟩ | ⟨u, e, hu, -, -, rfl⟩⟩⟩ := exec_window_cases hw h
  · have herr : (s.completeErr e).regs.err ≠ false := by
      rw [(doneStatus_flags (e := some e) rfl).2.2]
      simp
    have hearly : doneStatus (some e) ∈ early := by
      rcases checkWindows_eq_some he with rfl | rfl | rfl <;> decide
    exact ⟨s'.completeErr e, runCommand_windows ((hc.windowRefusal i).trans hr) ((hc.checkWindows i).trans he), rfl,
      fun _ => ⟨rfl, rfl⟩, fun he => absurd he herr, fun hi => absurd hi.2 herr,
      fun hi => hi.elim (fun hi => absurd hi.2 herr) fun hi => absurd hearly hi.2, fun he => absurd he herr,
      fun hi => absurd hi.2 herr⟩
  · have hready := windowsReady_iff.2 ⟨(hc.windowRefusal i).trans hr, (hc.checkWindows i).trans hcw⟩
    obtain ⟨u', hu', hout, hcalc, hparsed, hck⟩ := hc.commandBody_ok hw hst hu
    refine ⟨u'.complete, runCommand_ok hready hu', rfl, fun _ => ⟨hout.outLen, hout.inPos⟩, fun _ _ => ?_,
      fun hi => hcalc hi.1, fun hi => ?_, fun _ => hout.pixfmt, fun hi => hck (hfile hi.1)⟩
    · rw [← (commandBody_frame hw hu).dstBase]
      exact hout.bytes
    · exact hparsed (hi.imp And.left fun hi => hfile hi.1)
  · have herr : (u.raise i e).regs.err ≠ false := by
      rw [(doneStatus_flags (e := some e) rfl).2.2]
      simp
    have hready := windowsReady_iff.2 ⟨(hc.windowRefusal i).trans hr, (hc.checkWindows i).trans hcw⟩
    obtain ⟨u', hu', hparsed⟩ := hc.commandBody_error hst hu
    refine ⟨u'.raise i e, runCommand_error hready hu', rfl, fun _ => ⟨rfl, rfl⟩, fun he => absurd he herr,
      fun hi => absurd hi.2 herr, fun hi => ?_, fun he => absurd he herr, fun hi => absurd hi.2 herr⟩
    have hlate := hi.resolve_left fun hi => herr hi.2
    have htrunc : e ≠ .truncated 1 := by
      rintro rfl
      exact hlate.2 (show doneStatus (some (.truncated 1)) ∈ early by decide)
    exact hparsed (hfile hlate.1) htrunc

end Sys2Proof.Machine

/-! The windows a command uses: when it is refused for them, when CheckWindows raises and when it passes, and what a
command may change outside them. -/

namespace Sys2Proof.Machine

/-! ## The refusal of R54 -/

/-- A window is backed exactly when each of its addresses in the address space is. -/
theorem backs_iff {c : Config} {r : AddrRange} : backs c r = true ↔
    ∀ a, a < 4294967296 → inRange r a = true → ∃ b ∈ c.backed, inRange b a = true := by
  simp only [backs, coversFrom_iff, inRange_eq_true (r := r), Nat.lt_min]
  exact ⟨fun h a hlt hr => h a hr.1 ⟨hr.2, hlt⟩, fun h a hb he => h a he.2 ⟨hb, he.1⟩⟩

/-- Ranges overlap exactly when they share an address. -/
theorem overlap_iff {p q : AddrRange} : overlap p q = true ↔ ∃ a, inRange p a = true ∧ inRange q a = true := by
  simp only [overlap_eq_true, inRange_eq_true, rangeEnd]
  constructor
  · intro h
    exact ⟨max p.base q.base, by omega, by omega⟩
  · rintro ⟨a, hp, hq⟩
    omega

/-- A window's part inside the address space. -/
theorem inRange_clipped {r : AddrRange} {a : Nat} :
    inRange (clipped r) a = true ↔ inRange r a = true ∧ a < 4294967296 := by
  simp only [inRange_eq_true, rangeEnd, clipped]
  omega

/-- A window is ordinary memory exactly when none of its addresses in the address space is a device's. -/
theorem ordinary_iff {c : Config} {r : AddrRange} : ordinary c r = true ↔
    ∀ a, a < 4294967296 → inRange r a = true → ∀ d ∈ c.devices, inRange d a = false := by
  simp only [ordinary, Bool.not_eq_true', List.any_eq_false, overlap_iff, inRange_clipped, not_exists, not_and,
    Bool.not_eq_true]
  exact ⟨fun h a hlt hr d hd => h d hd a ⟨hr, hlt⟩, fun h d hd a ha => h a ha.2 ha.1 d hd⟩

/-- There is no refusal exactly when every window the command uses is backed ordinary memory. -/
theorem windowRefusal_eq_none {i : Instr} {s : State} : windowRefusal i s = none ↔
    ∀ w ∈ windowsOf i s.regs, backs s.cfg w = true ∧ ordinary s.cfg w = true := by
  simp only [windowRefusal, ite_eq_iff, reduceCtorEq, and_false, false_or, and_true, List.any_eq_true, not_exists,
    not_and, Bool.not_eq_true', Bool.not_eq_false]
  exact ⟨fun h w hw => ⟨h.1 w hw, h.2 w hw⟩, fun h => ⟨fun w hw => (h w hw).1, fun w hw => (h w hw).2⟩⟩

/-- An instruction without a window is not refused. -/
theorem windowRefusal_of_no_window {i : Instr} (hw : usesWindow i = false) (s : State) : windowRefusal i s = none := by
  obtain ⟨hs, hd⟩ := Bool.or_eq_false_iff.1 hw
  simp [windowRefusal, windowsOf, hs, hd]

/-- An instruction without a window answers a next state: it completes, ends with an error, or is one block of a row. -/
theorem exec_no_window {i : Instr} (hw : usesWindow i = false) (s : State) :
    exec i s = .next s.complete ∨ exec i s = .next (s.completeErr (.illegal 1)) ∨
      ∃ f, exec i s = .next (s.stepRow f) := by
  cases i with
  | nop => exact .inl rfl
  | reserved43 => exact .inr (.inl rfl)
  | literalBlock | repeatBlock => exact .inr (.inr ⟨_, rfl⟩)
  | hdrParse | cksum | cksumStamp | rowEnc | rowDec | imgEnc | imgDec | cvt | fileCompress | fileDecompress
  | fileConvert => cases hw

/-- Settles O49: a window is asked about address by address, and the refusal is the only way a command stops. -/
theorem refusedExactlyWhenNotOrdinary : Obligations.RefusedExactlyWhenNotOrdinary := by
  intro i s
  refine ⟨?_, fun r hr => ?_, fun hr => ?_⟩
  · simp only [windowRefusal_eq_none, backs_iff, ordinary_iff, ← forall_and]
  · cases hw : usesWindow i with
    | false =>
      rw [windowRefusal_of_no_window hw] at hr
      cases hr
    | true => rw [exec_eq_runCommand hw, runCommand_refused hr]
  · cases hw : usesWindow i with
    | false =>
      obtain h | h | ⟨f, h⟩ := exec_no_window hw s
      · exact ⟨_, h⟩
      · exact ⟨_, h⟩
      · exact ⟨_, h⟩
    | true =>
      rw [exec_eq_runCommand hw]
      exact runCommand_next hr

/-! ## CheckWindows -/

section
variable {i : Instr} {r : Regs}

theorem checkWindows_src_wraps (hs : usesSrc i = true) (hend : 4294967296 < rangeEnd r.srcWindow) :
    checkWindows i r = some (.config 1) := by
  simp [checkWindows, hs, hend]

theorem checkWindows_dst_wraps (hs : usesSrc i = true → rangeEnd r.srcWindow ≤ 4294967296) (hd : usesDst i = true)
    (hend : 4294967296 < rangeEnd r.dstWindow) : checkWindows i r = some (.config 2) := by
  have hsrc : ¬(usesSrc i && decide (4294967296 < rangeEnd r.srcWindow)) = true := by simpa using hs
  simp [checkWindows, hsrc, hd, hend]

theorem checkWindows_overlap (hs : usesSrc i = true) (hd : usesDst i = true)
    (hse : rangeEnd r.srcWindow ≤ 4294967296) (hde : rangeEnd r.dstWindow ≤ 4294967296)
    (ho : overlap r.srcWindow r.dstWindow = true) : checkWindows i r = some (.config 3) := by
  simp [checkWindows, hs, hd, hse.not_gt, hde.not_gt, ho]

end

/-- A command that is not refused and whose CheckWindows raises ends with that error at once. -/
theorem exec_of_checkWindows {i : Instr} {s : State} {e : Err} (hw : usesWindow i = true)
    (hr : windowRefusal i s = none) (hc : checkWindows i s.regs = some e) : exec i s = .next (s.completeErr e) := by
  rw [exec_eq_runCommand hw, runCommand_windows hr hc]

/-- Settles O42, by the cases of CheckWindows: what a command uses decides which of them it can meet. -/
theorem checkWindowsErrors : Obligations.CheckWindowsErrors := by
  intro i s hr both srcEnd dstEnd ends
  have hboth : ∀ j ∈ both, usesSrc j = true ∧ usesDst j = true := by simp [both, usesSrc, usesDst]
  have hsrcOnly : i = .hdrParse ∨ i = .cksum → usesSrc i = true ∧ usesDst i = false := by
    rintro (rfl | rfl) <;> exact ⟨rfl, rfl⟩
  have hends {e : Err} (hw : usesSrc i = true ∨ usesDst i = true) (hc : checkWindows i s.regs = some e) :
      ends (doneStatus (some e)) :=
    exec_of_checkWindows (Bool.or_eq_true _ _ ▸ hw) hr hc
  have hready (hs : usesSrc i = true → srcEnd ≤ 4294967296) (hd : usesDst i = true → dstEnd ≤ 4294967296)
      (ho : usesSrc i = true → usesDst i = true → overlap s.regs.srcWindow s.regs.dstWindow = false) :
      windowsReady i s = true := windowsReady_iff.2 ⟨hr, checkWindows_eq_none.2 ⟨hs, hd, ho⟩⟩
  refine ⟨fun hi hse => ?_, fun hi hse hde => ?_, fun hi hde => ?_, fun hi hse hde h1 h2 h3 h4 => ?_,
    fun hi hse => ?_, fun hi hde => ?_, fun hi hse hde ho => ?_⟩
  · have hs : usesSrc i = true := hi.elim (fun hi => (hboth i hi).1) fun hi => (hsrcOnly hi).1
    exact hends (.inl hs) (checkWindows_src_wraps hs hse)
  · obtain ⟨hs, hd⟩ := hboth i hi
    exact hends (.inl hs) (checkWindows_dst_wraps (fun _ => hse) hd hde)
  · subst hi
    exact hends (.inr rfl) (checkWindows_dst_wraps nofun rfl hde)
  · obtain ⟨hs, hd⟩ := hboth i hi
    exact hends (.inl hs) (checkWindows_overlap hs hd hse hde (overlap_eq_true.2 ⟨h1, h2, h3, h4⟩))
  · obtain ⟨-, hd⟩ := hsrcOnly hi
    exact hready (fun _ => hse) (by simp [hd]) (by simp [hd])
  · subst hi
    exact hready nofun (fun _ => hde) nofun
  · refine hready (fun _ => hse) (fun _ => hde) fun _ _ => ?_
    rw [← Bool.not_eq_true, overlap_eq_true]
    simp only [rangeEnd, Regs.srcWindow, Regs.dstWindow]
    omega

/-! ## What a command changes in memory -/

/-- One block of a row changes no byte outside the destination window. -/
theorem stepRow_read {s : State} {f : RowCtx → Except Err RowCtx} (hm : s.mem.wf = true) {a : Nat}
    (ha : inRange s.regs.dstWindow a = false) : (s.stepRow f).mem.read a = s.mem.read a := by
  simp only [State.stepRow]
  split
  · rfl
  · exact (raiseInRow_mem _ hm).2.1 a ha

/-- Settles O50: the instructions without a window change at most a row's destination, and those with one are bound by
`exec_window_mem`. -/
theorem nothingOutsideTheDestinationChanges : Obligations.NothingOutsideTheDestinationChanges := by
  intro i s t h hm
  cases hw : usesWindow i with
  | true => exact exec_window_mem hm hw h
  | false =>
    obtain ⟨hs, -⟩ := Bool.or_eq_false_iff.1 hw
    refine ⟨fun a ha => ?_, by simp [hs]⟩
    obtain h' | h' | ⟨f, h'⟩ := exec_no_window hw s <;> cases h.symm.trans h'
    · rfl
    · rfl
    · exact stepRow_read hm ha

/-- A command that shows no error has completed its body. -/
theorem exec_ok_of_err {i : Instr} {s t : State} (hw : usesWindow i = true) (h : exec i s = .next t)
    (he : t.regs.err = false) : ∃ u, commandBody i s = .ok u ∧ t = u.complete := by
  have hne {e : Err} (hst : t.regs.status = doneStatus (some e)) : False := by
    rw [(doneStatus_flags hst).2.2] at he
    cases he
  obtain ⟨-, ⟨e, -, rfl⟩ | ⟨-, hu | ⟨u, e, -, -, -, rfl⟩⟩⟩ := exec_window_cases hw h
  · exact (hne rfl).elim
  · exact hu
  · exact (hne rfl).elim

/-- CKSUM_STAMP's body, when it succeeds, is the stamp over the whole destination window (42_checksum.md R122). -/
theorem cksumStamp_body_ok {s u : State} (h : commandBody .cksumStamp s = .ok u) :
    offCksum s.cfg.layout + 2 ≤ s.regs.dstCap.toNat ∧
      u = (s.stamp s.regs.dstCap.toNat).setLengths s.regs.dstCap.toNat 0 := by
  simp only [commandBody] at h
  split_ifs at h with hcap
  cases h
  exact ⟨hcap, rfl⟩

/-- Settles O52: CKSUM_STAMP writes its two bytes, which lie in the window; any other storing command writes one
stretch from DST_BASE on, as long as OUT_LEN says. -/
theorem successWritesOnlyTheOutput : Obligations.SuccessWritesOnlyTheOutput := by
  intro i s t hi h he hm a ha
  have hd : usesDst i = true := (show ∀ j ∈ _, usesDst j = true by simp [usesDst]) i hi
  have hw : usesWindow i = true := by rw [usesWindow, hd, Bool.or_true]
  obtain ⟨u, hu, rfl⟩ := exec_ok_of_err hw h he
  by_cases hst : i = .cksumStamp
  · subst hst
    obtain ⟨hcap, rfl⟩ := cksumStamp_body_ok hu
    refine Memory.read_writeSeq_outside ?_
    simp only [complete_regs, setLengths_regs, BitVec.ofNat_toNat, BitVec.setWidth_eq] at ha
    rw [le16_length]
    omega
  · obtain ⟨hnd, -⟩ | ⟨hst', -⟩ | ⟨-, out, -, hmem, hlen⟩ := commandBody_mem hm hw hu
    · rw [hd] at hnd
      cases hnd
    · exact absurd hst' hst
    · rw [complete_mem, hmem]
      refine Memory.read_writeSeq_outside ?_
      simp only [complete_regs, hlen, hst, false_and, or_false] at ha
      exact ha

end Sys2Proof.Machine

/-! The windows that only the engine may touch: what each access of the outside world does to shared memory, and which
steps release the windows. -/

namespace Sys2Proof.Machine

/-! ## Held addresses -/

theorem isHeld_eq_true {s : State} {a : Nat} : isHeld s a = true ↔ ∃ w ∈ s.env.held, inRange w a = true := by
  simp only [isHeld, List.any_eq_true]

theorem isHeld_eq_false {s : State} {a : Nat} : isHeld s a = false ↔ ∀ w ∈ s.env.held, inRange w a = false := by
  simp only [isHeld, List.any_eq_false, Bool.not_eq_true]

/-! ## Stores, loads and synchronisation -/

/-- With no buffered store of its own at an address, the host loads the shared byte if it may, else a free value. -/
theorem hostLoad_of_unbuffered {s : State} {a : Nat} (hbuf : ∀ c ∈ s.env.hostBuf, c.1 ≠ a) : hostLoad s a =
    if s.cfg.hostCoherent || s.env.hostSynced then s.mem.read a else Config.freeByte s.draws := by
  have hfind : s.env.hostBuf.reverse.find? (fun c => c.1 == a) = none := by simpa using hbuf
  cases hc : s.cfg.hostCoherent <;> simp [hostLoad, hc, hfind]

section
variable {s : State} {who : Agent} {a : Word}

theorem memoryStore_of_held (hh : isHeld s a.toNat = true) (v : Byte) :
    memoryStore s who a v = .fault .windowHazard := by
  simp only [memoryStore, hh, if_true]

theorem memoryLoad_of_held (hh : isHeld s a.toNat = true) : memoryLoad s who a = .fault .windowHazard := by
  simp only [memoryLoad, hh, if_true]

/-- What the host's load of an accessible address outside every held window returns, and how many draws it leaves. -/
def hostLoads (s : State) (a : Word) (b : Byte) (n : Nat) : Prop :=
  memoryLoad s .host a = .next { s with draws := n, env := { s.env with readData := b.setWidth 32 } }

variable (hh : isHeld s a.toNat = false) (ha : accessible s.cfg a.toNat = true)
include hh ha

/-- Another master's store, or a coherent host's, reaches shared memory at once. -/
theorem memoryStore_shared (hw : who = .host → s.cfg.hostCoherent = true) (v : Byte) :
    memoryStore s who a v = .next (storeByte s a.toNat v) := by
  have hc : ¬(who = .host ∧ s.cfg.hostCoherent = false) := by
    rintro ⟨hwho, hcoh⟩
    rw [hw hwho] at hcoh
    cases hcoh
  simp only [memoryStore, hh, ha, hc, Bool.not_true, Bool.false_eq_true, if_false]

/-- An incoherent host's store waits in its buffer (20_memory.md R63; log 16). -/
theorem memoryStore_buffered (hc : s.cfg.hostCoherent = false) (v : Byte) : memoryStore s .host a v =
    .next { s with env := { s.env with hostBuf := s.env.hostBuf ++ [(a.toNat, v)] } } := by
  simp only [memoryStore, hh, ha, hc, and_self, Bool.not_true, Bool.false_eq_true, if_false, if_true]

theorem memoryLoad_other : memoryLoad s .other a = .next s := by
  simp only [memoryLoad, hh, ha, Bool.not_true, Bool.false_eq_true, if_false]

/-- The host's load returns `hostLoad`, and draws only for a stale byte. -/
theorem hostLoads_of {b : Byte} {n : Nat} (hb : hostLoad s a.toNat = b)
    (hn : (if hostLoadDraws s a.toNat then s.draws + 1 else s.draws) = n) : hostLoads s a b n := by
  simp only [hostLoads, memoryLoad, hh, ha, hb, hn, Bool.not_true, Bool.false_eq_true, if_false]

theorem hostLoads_coherent (hc : s.cfg.hostCoherent = true) : hostLoads s a (s.mem.read a.toNat) s.draws :=
  hostLoads_of hh ha (by simp [hostLoad, hc]) (by simp [hostLoadDraws, hc])

/-- An incoherent host loads its own newest buffered store. -/
theorem hostLoads_buffered (hc : s.cfg.hostCoherent = false) {older newer : List Host.Cell} {b : Byte}
    (hbuf : s.env.hostBuf = older ++ (a.toNat, b) :: newer) (hnew : ∀ c ∈ newer, c.1 ≠ a.toNat) :
    hostLoads s a b s.draws := by
  have hfind : s.env.hostBuf.reverse.find? (fun c => c.1 == a.toNat) = some (a.toNat, b) := by
    have hnone : newer.reverse.find? (fun c => c.1 == a.toNat) = none := by simpa using hnew
    rw [hbuf]
    simp [List.find?_append, hnone]
  exact hostLoads_of hh ha (by simp only [hostLoad, hc, hfind, Bool.false_eq_true, if_false])
    (by simp [hostLoadDraws, hbuf])

/-- With no buffered store of its own, a host that has synced loads shared memory. -/
theorem hostLoads_synced (hbuf : ∀ c ∈ s.env.hostBuf, c.1 ≠ a.toNat) (hs : s.env.hostSynced = true) :
    hostLoads s a (s.mem.read a.toNat) s.draws :=
  hostLoads_of hh ha (by simp [hostLoad_of_unbuffered hbuf, hs]) (by simp [hostLoadDraws, hs])

/-- With no buffered store of its own, an incoherent host that has not synced loads a free value. -/
theorem hostLoads_stale (hc : s.cfg.hostCoherent = false) (hbuf : ∀ c ∈ s.env.hostBuf, c.1 ≠ a.toNat)
    (hs : s.env.hostSynced = false) : hostLoads s a (Config.freeByte s.draws) (s.draws + 1) :=
  hostLoads_of hh ha (by simp [hostLoad_of_unbuffered hbuf, hc, hs])
    (if_pos (by simpa [hostLoadDraws, hc, hs] using hbuf))

end

theorem syncHost_of_held {s : State} (hh : ∃ c ∈ s.env.hostBuf, isHeld s c.1 = true) :
    syncHost s = .fault .windowHazard := by
  simp only [syncHost, List.any_eq_true.2 hh, if_true]

theorem syncHost_of_free {s : State} (hh : ∀ c ∈ s.env.hostBuf, isHeld s c.1 = false) :
    syncHost s = .next { s with
      mem := s.env.hostBuf.foldl (fun m c => m.write c.1 c.2) s.mem
      env := { s.env with hostBuf := [], hostSynced := true } } := by
  have hany : (s.env.hostBuf.any fun c => isHeld s c.1) = false := by simpa using hh
  simp only [syncHost, hany, Bool.false_eq_true, if_false]

/-- Settles O10: each clause is one of the equations of a store, a load or a synchronisation. -/
theorem accessToHeldWindowFaults : Obligations.AccessToHeldWindowFaults := by
  intro s rest hr
  refine ⟨fun a v => ?_, fun hi => ⟨fun hh => ?_, fun hh => ?_⟩⟩
  · intro store load returns
    refine ⟨fun who hi hh => ?_, fun hh ha => ?_⟩
    · have hheld : isHeld (s.withInputs rest) a.toNat = true := isHeld_eq_true.2 hh
      rcases hi with hi | hi
      · rw [step_input hr hi, inputStep, memoryStore_of_held hheld]
      · rw [step_input hr hi, inputStep, memoryLoad_of_held hheld]
    · have hfree : isHeld (s.withInputs rest) a.toNat = false := isHeld_eq_false.2 hh
      have hload {b : Byte} {n : Nat} (hi : load .host) (h : hostLoads (s.withInputs rest) a b n) : returns b n := by
        simp only [returns, step_input hr hi, inputStep]
        exact h
      refine ⟨?_, fun hi => ?_, fun hi hc => hload hi (hostLoads_coherent hfree ha hc), fun hi hc => ?_,
        fun hi hc => ⟨fun older newer b hbuf hnew => hload hi (hostLoads_buffered hfree ha hc hbuf hnew),
          fun hbuf => ⟨fun hs => hload hi (hostLoads_synced hfree ha hbuf hs),
            fun hs => hload hi (hostLoads_stale hfree ha hc hbuf hs)⟩⟩⟩
      · rintro (hi | ⟨hi, hc⟩)
        · rw [step_input hr hi, inputStep, memoryStore_shared (who := .other) hfree ha nofun]
          rfl
        · rw [step_input hr hi, inputStep, memoryStore_shared hfree ha fun _ => hc]
          rfl
      · rw [step_input hr hi, inputStep, memoryLoad_other hfree ha]
        rfl
      · rw [step_input hr hi, inputStep, memoryStore_buffered hfree ha hc]
        rfl
  · rw [step_input hr hi, inputStep, syncHost_of_held]
    simpa only [isHeld_eq_true, withInputs_env] using hh
  · rw [step_input hr hi, inputStep, syncHost_of_free]
    · rfl
    · simpa only [isHeld_eq_false, withInputs_env] using hh

/-! ## Which steps release the windows -/

/-- A read of STATUS with BUSY = 0 releases every window, and no other register read releases one. -/
theorem hostReads_held (s : State) (off : Nat) : (hostReads s off).env.held =
    if off = RegName.STATUS.offset ∧ s.regs.busy = false then [] else s.env.held := by
  simp only [hostReads]
  split
  · rfl
  · rfl

theorem hostReads_status_held (s : State) :
    (hostReads s RegName.STATUS.offset).env.held = if s.regs.busy then s.env.held else [] := by
  rw [hostReads_held]
  cases s.regs.busy <;> simp

/-- An access that the block takes is 32 bits wide, at its offset from REG_BASE. -/
theorem regAccess_eq_some {c : Config} {addr : Word} {bits off : Nat} (h : regAccess c addr bits = .ok (some off)) :
    bits = 32 ∧ addr.toNat = c.regBase.toNat + off := by
  simp only [regAccess] at h
  split_ifs at h with hin hal
  · cases h
    exact ⟨hal.1, by omega⟩
  · cases h

/-- A register write keeps every held window: acceptance only adds to them. -/
theorem writeRegister_held {s t : State} {off : Nat} {v : Word} (h : writeRegister s off v = .next t) :
    ∀ w ∈ s.env.held, w ∈ t.env.held := by
  have hsame {u : State} (hu : u.env = s.env) : ∀ w ∈ s.env.held, w ∈ u.env.held := by simp [hu]
  unfold writeRegister at h
  split at h
  · cases h
    exact hsame rfl
  · split at h
    · cases h
      exact hsame rfl
    · split at h <;> cases h
      exact fun w hw => List.mem_append_left _ hw
    · cases h
      exact hsame rfl

theorem memoryStore_held {s t : State} {who : Agent} {a : Word} {v : Byte} (h : memoryStore s who a v = .next t) :
    t.env.held = s.env.held := by
  simp only [memoryStore] at h
  split_ifs at h <;> cases h <;> rfl

theorem memoryLoad_held {s t : State} {who : Agent} {a : Word} (h : memoryLoad s who a = .next t) :
    t.env.held = s.env.held := by
  unfold memoryLoad at h
  split at h
  · cases h
  · split at h
    · cases h
    · cases who <;> cases h <;> rfl

theorem syncHost_held {s t : State} (h : syncHost s = .next t) : t.env.held = s.env.held := by
  simp only [syncHost] at h
  split_ifs at h
  cases h
  rfl

theorem peersChange_held {s t : State} {busy : List AddrRange} (h : peersChange s busy = .next t) :
    t.env.held = s.env.held := by
  unfold peersChange at h
  split at h
  · split at h <;> cases h
    rfl
  · cases h
    rfl

/-- The inputs that release the held windows: the end of a wait, a read of STATUS with BUSY = 0, and a reset. -/
def releases (s : State) : Input → Prop
  | .wait => s.regs.busy = false
  | .regRead addr bits => s.regs.busy = false ∧ bits = 32 ∧ addr.toNat = s.cfg.regBase.toNat + 4
  | .reset => True
  | .engine | .regWrite _ _ _ | .memWrite _ _ _ | .memRead _ _ | .hostSync | .peers _ => False

/-- An input keeps every held window, or is one of those that release them. -/
theorem inputStep_held {s t : State} {i : Input} {rest : List Input} (h : inputStep i rest s = .next t) :
    (∀ w ∈ s.env.held, w ∈ t.env.held) ∨ releases s i := by
  have hsame (ht : t.env.held = (s.withInputs rest).env.held) : (∀ w ∈ s.env.held, w ∈ t.env.held) ∨ releases s i :=
    .inl fun w hw => ht ▸ hw
  cases i with
  | engine => exact hsame (congrArg Env.held (engineStep_env h).1)
  | wait =>
    simp only [inputStep] at h
    split_ifs at h with hb
    · exact .inl (by simp [(engineStep_env h).1])
    · exact .inr (by simpa [releases] using hb)
  | regWrite addr bits v =>
    simp only [inputStep] at h
    split at h
    · cases h
    · cases h
      exact hsame rfl
    · exact .inl (writeRegister_held (s := s.withInputs rest) h)
  | regRead addr bits =>
    simp only [inputStep] at h
    split at h
    · cases h
    · cases h
      exact hsame rfl
    · rename_i off hacc
      obtain ⟨hbits, haddr⟩ := regAccess_eq_some hacc
      cases h
      by_cases hrel : off = RegName.STATUS.offset ∧ s.regs.busy = false
      · obtain ⟨rfl, hb⟩ := hrel
        exact .inr ⟨hb, hbits, haddr⟩
      · exact hsame ((hostReads_held _ _).trans (if_neg hrel))
  | memWrite who a v => exact hsame (memoryStore_held h)
  | memRead who a => exact hsame (memoryLoad_held h)
  | hostSync => exact hsame (syncHost_held h)
  | peers busy => exact hsame (peersChange_held h)
  | reset => exact .inr trivial

/-- A step keeps every held window, or takes an input that releases them. -/
theorem step_held {s t : State} (h : step s = .next t) :
    (∀ w ∈ s.env.held, w ∈ t.env.held) ∨ ∃ i rest, s.env.inputs = i :: rest ∧ releases s i := by
  cases hr : s.row with
  | some r =>
    rw [step_row hr] at h
    exact .inl (by simp [(rowStep_env h).1])
  | none =>
    cases hi : s.env.inputs with
    | nil =>
      rw [step_engine hr hi] at h
      exact .inl (by simp [(engineStep_env h).1])
    | cons i rest =>
      rw [step_input hr hi] at h
      exact (inputStep_held h).imp_right fun hrel => ⟨i, rest, rfl, hrel⟩

/-- Settles O11: the first part is what `releases` says, input by input; the rest is what these inputs leave held. -/
theorem heldWindowsStayHeld : Obligations.HeldWindowsStayHeld := by
  intro s t h
  refine ⟨?_, fun rest hr => ⟨fun addr hi ha => ?_, fun hi => ?_, fun hi => ?_⟩⟩
  · obtain hkept | ⟨i, rest, hi, hrel⟩ := step_held h
    · exact .inl hkept
    · cases i with
      | wait => exact .inr (.inl ⟨hrel, rest, hi⟩)
      | regRead addr bits =>
        obtain ⟨hb, rfl, haddr⟩ := hrel
        exact .inr (.inr (.inl ⟨hb, addr, rest, hi, haddr⟩))
      | reset => exact .inr (.inr (.inr ⟨rest, hi⟩))
      | engine | regWrite | memWrite | memRead | hostSync | peers => exact hrel.elim
  · rw [step_regRead hr hi ha rfl (by decide)] at h
    cases h
    exact hostReads_status_held (s.withInputs rest)
  · rw [step_input hr hi, inputStep] at h
    split_ifs at h with hb
    · rw [(engineStep_env h).1, if_pos hb]
    · cases h
      exact hostReads_status_held (s.withInputs rest)
  · rw [step_input hr hi, inputStep] at h
    cases h
    rfl

end Sys2Proof.Machine

/-! Command words and tag blocks: decode and encode agree, which words are legal, how the decoder splits a stream. -/

namespace Sys2Proof

/-! ## The cases of command decode (30_encoding.md R75) -/

section
variable {w : Word}

theorem decodeCommand_of_opc43 (h : opcField w = 0x43) :
    decodeCommand w = .ok (.reserved43 (w.extractLsb' 8 24)) := by
  simp only [decodeCommand, h, if_true]

/-- An OPC of the map is not the reserved slot's. -/
theorem ne_opc43_of_mapped {opc : Byte} (h : takesFormat opc = true ∨ plainCommand opc ≠ none) : opc ≠ 0x43 := by
  rintro rfl
  revert h
  decide

theorem takesFormat_iff {opc : Byte} : takesFormat opc = true ↔ opc = 0x30 ∨ opc = 0x42 := by
  rw [takesFormat, Bool.or_eq_true, beq_iff_eq, beq_iff_eq]

/-- An OPC that is plain takes no target format. -/
theorem takesFormat_of_plain {opc : Byte} (h : plainCommand opc ≠ none) : takesFormat opc = false := by
  rw [← Bool.not_eq_true, takesFormat_iff]
  rintro (rfl | rfl)
  · exact h rfl
  · exact h rfl

theorem decodeCommand_of_unmapped (h43 : opcField w ≠ 0x43) (hf : takesFormat (opcField w) = false)
    (hp : plainCommand (opcField w) = none) : decodeCommand w = .error .undefinedOpcode := by
  simp only [decodeCommand, h43, hf, hp, if_false, Bool.false_eq_true]

theorem decodeCommand_of_format (hf : takesFormat (opcField w) = true) : decodeCommand w =
    if rsvdField w ≠ 0 then .error .reservedBits
    else ((PixFmt.ofCode ((argField w).setWidth 8)).bind (formatCommand (opcField w))).elim
      (.error .badArgument) .ok := by
  simp only [decodeCommand, ne_opc43_of_mapped (.inl hf), hf, if_false, if_true]
  cases (PixFmt.ofCode ((argField w).setWidth 8)).bind (formatCommand (opcField w)) <;> rfl

theorem decodeCommand_of_plain {i : Instr} (hp : plainCommand (opcField w) = some i) : decodeCommand w =
    if rsvdField w ≠ 0 then .error .reservedBits
    else if argField w ≠ 0 then .error .badArgument
    else .ok i := by
  have hmap : plainCommand (opcField w) ≠ none := by simp [hp]
  simp only [decodeCommand, ne_opc43_of_mapped (.inr hmap), takesFormat_of_plain hmap, hp, if_false,
    Bool.false_eq_true]

/-! ## Decode and encode agree -/

/-- A word whose RSVD is 0 is the command word of its OPC and ARG. -/
theorem commandWord_of_fields {arg : BitVec 4} (hr : rsvdField w = 0) (ha : argField w = arg) :
    commandWord (opcField w) arg = w := by
  have h := word_fields w
  rw [hr, ha] at h
  exact h.symm

/-- A word that decodes is put together again by the encoder. -/
theorem encode_of_decodeCommand {i : Instr} (h : decodeCommand w = .ok i) : encode i = .command w := by
  by_cases h43 : opcField w = 0x43
  · rw [decodeCommand_of_opc43 h43] at h
    cases h
    have hw := word_rest w
    rw [h43] at hw
    exact congrArg Encoded.command hw.symm
  · cases hf : takesFormat (opcField w) with
    | true =>
      rw [decodeCommand_of_format hf] at h
      split_ifs at h with hr
      cases hb : (PixFmt.ofCode ((argField w).setWidth 8)).bind (formatCommand (opcField w)) with
      | none =>
        rw [hb] at h
        cases h
      | some j =>
        rw [hb] at h
        cases h
        obtain ⟨df, hdf, hcmd⟩ := Option.bind_eq_some_iff.1 hb
        rw [formatCommand_encode hcmd, commandWord_of_fields (not_not.1 hr) (argField_of_ofCode hdf)]
    | false =>
      cases hp : plainCommand (opcField w) with
      | none =>
        rw [decodeCommand_of_unmapped h43 hf hp] at h
        cases h
      | some j =>
        rw [decodeCommand_of_plain hp] at h
        split_ifs at h with hr ha
        cases h
        rw [plainCommand_encode hp, commandWord_of_fields (not_not.1 hr) (not_not.1 ha)]

/-- A command's word decodes to the command, whatever its operand. -/
theorem decodeCommand_of_encode {i : Instr} (h : encode i = .command w) : decodeCommand w = .ok i := by
  cases i with
  | nop | hdrParse | cksum | cksumStamp | rowEnc | rowDec | imgEnc | imgDec | fileCompress | fileDecompress =>
    cases h
    rfl
  | cvt df | fileConvert df =>
    cases h
    cases df <;> rfl
  | reserved43 rest =>
    cases h
    have h43 : opcField (rest ++ 0x43#8) = 0x43 := opcField_append rest 0x43
    rw [decodeCommand_of_opc43 h43, rest_append]
  | literalBlock | repeatBlock => cases h

/-- A word and a command are each other's decoding and encoding: no two words have one meaning. -/
theorem decodeCommand_eq_ok_iff {i : Instr} : decodeCommand w = .ok i ↔ encode i = .command w :=
  ⟨encode_of_decodeCommand, decodeCommand_of_encode⟩

end

/-- Only a tag block is encoded as bytes. -/
theorem encode_eq_block {i : Instr} {bs : List Byte} (h : encode i = .block bs) :
    ∃ b : Block, i = b.toInstr ∧ bs = encodeBlock b := by
  cases i with
  | literalBlock m px =>
    cases h
    exact ⟨.lit m px, rfl, rfl⟩
  | repeatBlock n px =>
    cases h
    exact ⟨.rep n px, rfl, rfl⟩
  | nop | hdrParse | cksum | cksumStamp | rowEnc | rowDec | imgEnc | imgDec | cvt | fileCompress | fileDecompress
  | fileConvert | reserved43 => cases h

@[simp] theorem toInstr_wellFormedAt (b : Block) (bpp : Nat) : b.toInstr.wellFormedAt bpp = b.wellFormedAt bpp := by
  cases b <;> rfl

/-- A well-formed block's bytes decode to the block. -/
theorem decode_encodeBlock {bpp : Nat} {b : Block} (h : b.wellFormedAt bpp = true) :
    decode bpp (.block (encodeBlock b)) = .ok b.toInstr := by
  have hdec := Machine.decodeBlock_encodeBlock h []
  rw [List.append_nil] at hdec
  simp only [decode, hdec]

/-- Settles O1: a command goes through its word, a tag block through its bytes. -/
theorem decodeOfEncodeIsTheInstruction : Obligations.DecodeOfEncodeIsTheInstruction := by
  intro i bpp _ hi
  cases he : encode i with
  | command w => exact decodeCommand_of_encode he
  | block bs =>
    obtain ⟨b, rfl, rfl⟩ := encode_eq_block he
    exact decode_encodeBlock (toInstr_wellFormedAt b bpp ▸ hi)

/-! ## The legal words -/

/-- Settles O4, by running the decoder on each word and each block. -/
theorem writtenOutWordsDecode : Obligations.WrittenOutWordsDecode := by
  unfold Obligations.WrittenOutWordsDecode
  decide

/-- Settles O2: by `decodeCommand_eq_ok_iff` the words that decode are those of the commands, one for each command and
each target format. -/
theorem decodedWordIsOneOfTheFourteen : Obligations.DecodedWordIsOneOfTheFourteen := by
  intro w
  refine ⟨fun i => encode_of_decodeCommand, ?_⟩
  simp only [decodeCommand_eq_ok_iff]
  constructor
  · rintro ⟨i, he, hne⟩
    cases i with
    | nop | hdrParse | cksum | cksumStamp | rowEnc | rowDec | imgEnc | imgDec | fileCompress | fileDecompress =>
      cases he
      decide
    | cvt df | fileConvert df =>
      cases he
      cases df <;> decide
    | reserved43 rest => exact absurd rfl (hne rest)
    | literalBlock | repeatBlock => cases he
  · intro hw
    simp only [List.mem_cons, List.not_mem_nil, or_false] at hw
    obtain rfl | rfl | rfl | rfl | rfl | rfl | rfl | rfl | rfl | rfl | rfl | rfl | rfl | rfl := hw
    · exact ⟨.nop, rfl, nofun⟩
    · exact ⟨.hdrParse, rfl, nofun⟩
    · exact ⟨.cksum, rfl, nofun⟩
    · exact ⟨.cksumStamp, rfl, nofun⟩
    · exact ⟨.rowEnc, rfl, nofun⟩
    · exact ⟨.rowDec, rfl, nofun⟩
    · exact ⟨.imgEnc, rfl, nofun⟩
    · exact ⟨.imgDec, rfl, nofun⟩
    · exact ⟨.cvt .rgb8, rfl, nofun⟩
    · exact ⟨.cvt .gray8, rfl, nofun⟩
    · exact ⟨.fileCompress, rfl, nofun⟩
    · exact ⟨.fileDecompress, rfl, nofun⟩
    · exact ⟨.fileConvert .rgb8, rfl, nofun⟩
    · exact ⟨.fileConvert .gray8, rfl, nofun⟩

/-! ## Tag blocks -/

/-- Settles O3: `decodeBlock_encodeBlock` one way, and `decodeBlock_ok` the other, whose two cases give the lengths. -/
theorem blocksStandBackToBack : Obligations.BlocksStandBackToBack := by
  refine ⟨fun bpp b rest h => Machine.decodeBlock_encodeBlock h rest, fun bpp bs rest b h => ?_⟩
  obtain ⟨rfl, ⟨n, px, rfl, hn, rfl⟩ | ⟨m, px, rfl, hlen⟩⟩ := Machine.decodeBlock_ok h
  · exact ⟨rfl, hn, rfl, rfl, Nat.add_comm _ _⟩
  · refine ⟨rfl, rfl, hlen, ?_⟩
    simp only [encodeBlock, List.length_cons, hlen]
    omega

end Sys2Proof

/-! How the pending command ends: with ILLEGAL when its word is not legal, and in any case within one engine's step, so
that a wait ends. -/

namespace Sys2Proof.Machine

/-! ## Words that are not legal -/

/-- The engine's step on a pending word that does not decode. -/
theorem engineStep_of_decode_error {s : State} {w : Word} {e : DecodeError} (hp : s.pending = some w)
    (hd : decodeCommand w = .error e) : engineStep s = .next (s.completeErr (decodeErr e)) := by
  simp only [engineStep, hp, hd]

/-- The OPCs of 30_encoding.md R74 are those of the plain commands and the two that take a target format. -/
theorem mem_definedOpcodes_iff {opc : Byte} :
    opc ∈ ([0x00, 0x01, 0x02, 0x03, 0x10, 0x11, 0x20, 0x21, 0x30, 0x40, 0x41, 0x42] : List Byte) ↔
      takesFormat opc = true ∨ plainCommand opc ≠ none := by
  revert opc
  decide

/-- An ARG other than 1 and 2 names no format. -/
theorem ofCode_arg_eq_none {a : BitVec 4} (h1 : a ≠ 1) (h2 : a ≠ 2) : PixFmt.ofCode (a.setWidth 8) = none := by
  revert a
  decide

theorem decodeCommand_reservedBits {w : Word}
    (h : takesFormat (opcField w) = true ∨ plainCommand (opcField w) ≠ none) (hr : rsvdField w ≠ 0) :
    decodeCommand w = .error .reservedBits := by
  obtain hf | hp := h
  · rw [decodeCommand_of_format hf, if_pos hr]
  · obtain ⟨i, hi⟩ := Option.ne_none_iff_exists'.1 hp
    rw [decodeCommand_of_plain hi, if_pos hr]

theorem decodeCommand_format_badArgument {w : Word} (hf : takesFormat (opcField w) = true) (hr : rsvdField w = 0)
    (h1 : argField w ≠ 1) (h2 : argField w ≠ 2) : decodeCommand w = .error .badArgument := by
  rw [decodeCommand_of_format hf, if_neg (not_not.2 hr), ofCode_arg_eq_none h1 h2]
  rfl

theorem decodeCommand_plain_badArgument {w : Word} (hp : plainCommand (opcField w) ≠ none) (hr : rsvdField w = 0)
    (ha : argField w ≠ 0) : decodeCommand w = .error .badArgument := by
  obtain ⟨i, hi⟩ := Option.ne_none_iff_exists'.1 hp
  rw [decodeCommand_of_plain hi, if_neg (not_not.2 hr), if_pos ha]

/-- Settles O5: each clause is a case of command decode; the OPC 0x43 decodes, to the reserved slot's instruction. -/
theorem illegalWordsEndWithIllegal : Obligations.IllegalWordsEndWithIllegal := by
  intro s w hp opc arg rsvd defined ends
  refine ⟨fun ho => ?_, fun ho hr => ?_, fun ho hr h1 h2 => ?_, fun ho h30 h42 hr ha => ?_, fun rest => rfl⟩
  · by_cases h43 : opc = 0x43
    · exact engineStep_of_decode hp (decodeCommand_of_opc43 h43)
    · obtain ⟨hf, hplain⟩ := not_or.1 (mt mem_definedOpcodes_iff.2 ho)
      exact engineStep_of_decode_error hp
        (decodeCommand_of_unmapped h43 (Bool.not_eq_true _ ▸ hf) (not_not.1 hplain))
  · exact engineStep_of_decode_error hp (decodeCommand_reservedBits (mem_definedOpcodes_iff.1 ho) hr)
  · exact engineStep_of_decode_error hp (decodeCommand_format_badArgument (takesFormat_iff.2 ho) hr h1 h2)
  · have hf : takesFormat opc ≠ true := fun hf => (takesFormat_iff.1 hf).elim h30 h42
    exact engineStep_of_decode_error hp
      (decodeCommand_plain_badArgument ((mem_definedOpcodes_iff.1 ho).resolve_left hf) hr ha)

/-! ## A wait ends -/

/-- The engine's step completes the pending command, with success or with an error (60_exceptions.md R244). -/
theorem engineStep_completes {s t : State} {w : Word} (hp : s.pending = some w) (h : engineStep s = .next t) :
    t.pending = none ∧ t.row = none ∧ ∃ e, t.regs.status = doneStatus e := by
  cases hd : decodeCommand w with
  | error e =>
    cases (engineStep_of_decode_error hp hd).symm.trans h
    exact ⟨rfl, rfl, some (decodeErr e), rfl⟩
  | ok i =>
    rw [engineStep_of_decode hp hd] at h
    have hword := encode_of_decodeCommand hd
    have hrep : ∀ n px, i ≠ .repeatBlock n px := by
      rintro n px rfl
      cases hword
    have hlit : ∀ m px, i ≠ .literalBlock m px := by
      rintro m px rfl
      cases hword
    obtain ⟨u, -, rfl⟩ | ⟨u, e, -, -, -, -, hpend, hrow, hregs⟩ := exec_command_cases h hrep hlit
    · exact ⟨rfl, rfl, none, rfl⟩
    · exact ⟨hpend, hrow, some e, congrArg Regs.status hregs⟩

/-- While BUSY the engine moves and the wait stays (log 18). -/
theorem step_wait_busy {s : State} {rest : List Input} (hr : s.row = none) (hi : s.env.inputs = .wait :: rest)
    (hb : s.regs.busy = true) : step s = engineStep s := by
  rw [step_input hr hi, inputStep, if_pos hb]

/-- With BUSY = 0 a wait ends as one read of STATUS. -/
theorem step_wait_idle {s : State} {rest : List Input} (hr : s.row = none) (hi : s.env.inputs = .wait :: rest)
    (hb : s.regs.busy = false) : step s = .next (hostReads (s.withInputs rest) RegName.STATUS.offset) := by
  rw [step_input hr hi, inputStep, hb, if_neg Bool.false_ne_true]

/-- Settles O58: the engine's step completes the command and leaves the wait in the inputs; the next step is its read
of STATUS. -/
theorem waitEndsAfterTheCommand : Obligations.WaitEndsAfterTheCommand := by
  intro s t w rest hr hp hb hi h
  rw [step_wait_busy hr hi hb] at h
  obtain ⟨hpend, hrow, e, hstatus⟩ := engineStep_completes hp h
  obtain ⟨hbusy, hdone, -⟩ := doneStatus_flags hstatus
  have hinputs : t.env.inputs = .wait :: rest := by rw [(engineStep_env h).1, hi]
  obtain ⟨hregs, hmem, -, hin, hdata⟩ := hostReads_facts (t.withInputs rest) RegName.STATUS.offset
  refine ⟨hbusy, hdone, hpend, _, step_wait_idle hrow hinputs hbusy, hin, hdata, ?_, hregs, hmem⟩
  rw [hostReads_status_held, withInputs_regs, hbusy, if_neg Bool.false_ne_true]

end Sys2Proof.Machine

/-! The Header Codec (41_header.md): the output header's fields, the flags of HDR_VALID, HDR_PARSE. -/

namespace Sys2Proof.Machine

/-! ## The output header -/

/-- Settles O30, field by field. -/
theorem madeHeaderFields : Obligations.MadeHeaderFields := by
  intro l f c w hh h
  obtain ⟨hmagic, hpixfmt, hcomp⟩ := makeHeader_bytes l f c w hh
  exact ⟨makeHeader_length l f c w hh, hmagic, makeHeader_cksum l f c w hh, hpixfmt, hcomp,
    makeHeader_width l f c w hh, makeHeader_height l f c w hh, makeHeader_pixoff l f c w hh⟩

/-! ## The flags of HDR_VALID -/

/-- The six flags of a HDR_VALID word (10_state.md R31). -/
theorem hdrValidWord_flags (m f c w h k : Bool) :
    (hdrValidWord m f c w h k).getLsbD 0 = m ∧ (hdrValidWord m f c w h k).getLsbD 1 = f ∧
      (hdrValidWord m f c w h k).getLsbD 2 = c ∧ (hdrValidWord m f c w h k).getLsbD 3 = w ∧
      (hdrValidWord m f c w h k).getLsbD 4 = h ∧ (hdrValidWord m f c w h k).getLsbD 5 = k := by
  refine ⟨?_, ?_, ?_, ?_, ?_, ?_⟩ <;> simp only [hdrValidWord, BitVec.getLsbD_append] <;> simp

/-- The bits of a HDR_VALID word past its flags. -/
theorem hdrValidWord_getLsbD_of_ge {i : Nat} (hi : 6 ≤ i) (m f c w h k : Bool) :
    (hdrValidWord m f c w h k).getLsbD i = false := by
  have hbit := congrArg (fun v => v.getLsbD (i - 6)) (upper_hdrValidWord m f c w h k)
  simp only [BitVec.getLsbD_extractLsb', Nat.add_sub_cancel' hi, BitVec.ofNat_eq_ofNat, BitVec.getLsbD_zero,
    Bool.and_eq_false_iff, decide_eq_false_iff_not] at hbit
  exact hbit.elim (fun h26 => BitVec.getLsbD_of_ge _ _ (by omega)) id

/-- Settles O18: the word's flags are the checks, each decided on its own field. -/
theorem hdrValidBits : Obligations.HdrValidBits := by
  intro l h ck
  obtain ⟨hmagic, hformat, hcomp, hwidth, hheight, hcksum⟩ := hdrValidWord_flags (magicOk l h)
    (byteAt h (offPixfmt l) == 1 || byteAt h (offPixfmt l) == 2)
    (byteAt h (offComp l) == 0 || byteAt h (offComp l) == 1)
    (readLe32 h (offWidth l) != 0) (readLe32 h (offHeight l) != 0) (ck == readLe16 h (offCksum l))
  refine ⟨hmagic.trans ?_, hformat.trans ?_, hcomp.trans ?_, hwidth.trans ?_, hheight.trans ?_, hcksum.trans ?_,
    fun k hk => hdrValidWord_getLsbD_of_ge hk _ _ _ _ _ _⟩
  · rw [magicOk, beq_eq_decide]
  · rw [beq_eq_decide, beq_eq_decide, Bool.decide_or]
  · rw [beq_eq_decide, beq_eq_decide, Bool.decide_or]
  · rw [bne, beq_eq_decide, decide_not]
  · rw [bne, beq_eq_decide, decide_not]
  · rw [beq_eq_decide]

/-! ## HDR_PARSE -/

theorem hdrParse_body_of_le {s : State} (hl : hdrSize s.cfg.layout ≤ s.regs.srcLen.toNat) :
    commandBody .hdrParse s = .ok (s.parsePoint.setLengths 0 s.regs.srcLen.toNat) := if_pos hl

theorem hdrParse_body_of_lt {s : State} (hl : s.regs.srcLen.toNat < hdrSize s.cfg.layout) :
    commandBody .hdrParse s = .error (s, .truncated 1) := if_neg (Nat.not_le.2 hl)

/-- Settles O17: a source that holds the header completes with the registers of the parse point, a shorter one raises
TRUNCATED 1 at the state it began in. -/
theorem hdrParseCompletes : Obligations.HdrParseCompletes := by
  intro s hw l h ck
  have hx := exec_eq_runCommand (i := .hdrParse) rfl s
  refine ⟨fun hl => ?_, fun hl => ?_⟩
  · have hinPos : BitVec.ofNat 32 s.regs.srcLen.toNat = s.regs.srcLen := by rw [BitVec.ofNat_toNat, BitVec.setWidth_eq]
    rw [hx, runCommand_ok hw (hdrParse_body_of_le hl), State.complete, setLengths_regs, hinPos]
    rfl
  · exact endsWithError_of_raise hx hw (hdrParse_body_of_lt hl) rfl rfl rfl rfl rfl rfl

end Sys2Proof.Machine

/-! The Checksum Engine (42_checksum.md): the checksum byte by byte, CKSUM and CKSUM_STAMP. -/

namespace Sys2Proof.Machine

/-! ## The checksum of a sequence -/

/-- The two sums a checksum is made of. -/
theorem cksum_sums (s : List Byte) (off : Nat) :
    (cksum s off).extractLsb' 0 8 = (cksumLoop off 0 0 0 s).1 ∧
      (cksum s off).extractLsb' 8 8 = (cksumLoop off 0 0 0 s).2 :=
  ⟨low_append _ _, high_append _ _⟩

/-- The checksum of no bytes: both sums are 0. -/
@[simp] theorem cksum_nil (off : Nat) : cksum [] off = 0 := show (0#8 ++ 0#8 : BitVec 16) = 0 by decide

/-- Settles O20: the loop over the appended byte starts from the position and the two sums the others leave. -/
theorem cksumAddsOneByte : Obligations.CksumAddsOneByte := by
  intro s b off masked sum1 sum2
  obtain ⟨hlow, hhigh⟩ := cksum_sums s off
  have hloop : cksumLoop off 0 0 0 (s ++ [b]) = (sum1, sum2) := by
    simp only [cksumLoop_append, cksumLoop, Nat.zero_add, sum2, sum1, hlow, hhigh, masked]
  exact ⟨cksum_nil off, by rw [cksum, hloop]⟩

/-- Settles O40: stamping patches the checksum's field, which the checksum does not see. -/
theorem stampedChecksumIsStable : Obligations.StampedChecksumIsStable :=
  fun s off h => ⟨cksum_patched h (cksum s off), readLe16_patched h (cksum s off)⟩

/-! ## CKSUM -/

theorem cksum_body (s : State) :
    commandBody .cksum s = .ok ((s.setCalcCksum s.srcCksum).setLengths 0 s.regs.srcLen.toNat) := rfl

/-- Settles O19: the command completes with its body's state, whose IN_POS is all of SRC_LEN. -/
theorem cksumCompletes : Obligations.CksumCompletes := by
  intro s hw
  rw [exec_eq_runCommand (i := .cksum) rfl s, runCommand_ok hw (cksum_body s), State.complete, setLengths_regs,
    BitVec.ofNat_toNat, BitVec.setWidth_eq]
  rfl

/-! ## CKSUM_STAMP -/

theorem cksumStamp_body_of_le {s : State} (h : offCksum s.cfg.layout + 2 ≤ s.regs.dstCap.toNat) :
    commandBody .cksumStamp s = .ok ((s.stamp s.regs.dstCap.toNat).setLengths s.regs.dstCap.toNat 0) := if_pos h

theorem cksumStamp_body_of_lt {s : State} (h : s.regs.dstCap.toNat < offCksum s.cfg.layout + 2) :
    commandBody .cksumStamp s = .error (s, .config 7) := if_neg (Nat.not_le.2 h)

/-- Settles O21: a window that reaches past the field completes with the stamp, whose OUT_LEN is all of DST_CAP; a
shorter one raises CONFIG 7 at the state it began in. -/
theorem cksumStampCompletes : Obligations.CksumStampCompletes := by
  intro s hw _ off c
  have hx := exec_eq_runCommand (i := .cksumStamp) rfl s
  refine ⟨fun hcap => ?_, fun hcap => ?_⟩
  · rw [hx, runCommand_ok hw (cksumStamp_body_of_le hcap), State.complete, setLengths_regs, BitVec.ofNat_toNat,
      BitVec.setWidth_eq]
    rfl
  · exact endsWithError_of_raise hx hw (cksumStamp_body_of_lt hcap) rfl rfl rfl rfl rfl rfl

end Sys2Proof.Machine

/-! The row decoder (43_rle_row.md R140 to R143, R151): its blocks one by one, the ends of a row, and ROW_DEC as those
blocks. -/

namespace Sys2Proof.Machine

/-! ## One block of a row -/

section
variable {s : State} {r r' : RowCtx} {b : Block} {e : Err}

/-- A tag block's instruction is its step of the row. -/
theorem exec_toInstr (b : Block) (s : State) : exec b.toInstr s = .next (s.stepRow (applyBlock b)) := by
  cases b with
  | rep n px => rfl
  | lit m px => rfl

/-- A block that has its effect on the row changes nothing else. -/
theorem exec_block_ok (h : applyBlock b (s.row.getD idleRow) = .ok r') :
    exec b.toInstr s = .next { s with row := some r' } := by
  simp only [exec_toInstr, State.stepRow, h]

theorem exec_block_error (h : applyBlock b (s.row.getD idleRow) = .error e) :
    exec b.toInstr s = .next (s.raiseInRow e) := by
  simp only [exec_toInstr, State.stepRow, h]

theorem applyBlock_rep_fits {n : Byte} {px : List Byte} (h : r.op + n.toNat * px.length ≤ r.need) :
    applyBlock (.rep n px) r = .ok { r with
      out := r.out ++ (List.replicate n.toNat px).flatten
      op := r.op + n.toNat * px.length
      cp := r.cp + (1 + px.length) } := by
  rw [applyBlock, applyRepeat, if_pos h, Nat.add_assoc r.cp]

theorem applyBlock_lit_fits {m : Byte} {px : List Byte} (hm : m ≠ 0) (h : r.op + px.length ≤ r.need) :
    applyBlock (.lit m px) r =
      .ok { r with out := r.out ++ px, op := r.op + px.length, cp := r.cp + (2 + px.length) } := by
  rw [applyBlock, applyLiteral, if_neg hm, if_pos h, Nat.add_assoc r.cp]

theorem applyBlock_rep_overfills {n : Byte} {px : List Byte} (h : r.need < r.op + n.toNat * px.length) :
    applyBlock (.rep n px) r = .error (.corrupt 5) := if_neg (Nat.not_le.2 h)

theorem applyBlock_lit_zero (px : List Byte) (r : RowCtx) : applyBlock (.lit 0 px) r = .error (.corrupt 3) := rfl

theorem applyBlock_lit_overfills {m : Byte} {px : List Byte} (hm : m ≠ 0) (h : r.need < r.op + px.length) :
    applyBlock (.lit m px) r = .error (.corrupt 5) := by
  rw [applyBlock, applyLiteral, if_neg hm, if_neg (Nat.not_le.2 h)]

/-! ## One pass of the row decoder -/

theorem step_block {rest : List Byte} (hr : s.row = some r) (hlt : r.cp < r.c.length)
    (hf : fetchBlock r = .ok (b, rest)) (ha : applyBlock b r = .ok r') : step s = .next { s with row := some r' } := by
  rw [step_row hr, rowStep_of_fetch hlt hf, exec_block_ok (by rwa [hr])]

theorem step_block_error {rest : List Byte} (hr : s.row = some r) (hlt : r.cp < r.c.length)
    (hf : fetchBlock r = .ok (b, rest)) (ha : applyBlock b r = .error e) : step s = .next (s.raiseInRow e) := by
  rw [step_row hr, rowStep_of_fetch hlt hf, exec_block_error (by rwa [hr])]

theorem step_fetch_error {de : DecodeError} (hr : s.row = some r) (hlt : r.cp < r.c.length)
    (hf : fetchBlock r = .error de) : step s = .next (s.raiseInRow (decodeErr de)) := by
  simp only [step_row hr, rowStep, if_pos hlt, hf]

theorem step_row_end (hr : s.row = some r) (hge : r.c.length ≤ r.cp) : step s = .next (s.finishRow r) := by
  rw [step_row hr, rowStep, if_neg (Nat.not_lt.2 hge)]

end

/-! ## The tag blocks' obligations -/

/-- Settles O31: in a row with room the block's step is its effect on the row. -/
theorem repeatBlockCompletes : Obligations.RepeatBlockCompletes :=
  fun _ n px h => exec_block_ok (b := .rep n px) (applyBlock_rep_fits h)

/-- Settles O32: as for a repeat block, the count not being 0. -/
theorem literalBlockCompletes : Obligations.LiteralBlockCompletes :=
  fun _ m px hm h => exec_block_ok (b := .lit m px) (applyBlock_lit_fits hm h)

/-- Settles O54: a block that raises leaves no row, and one that does not has `applyBlock`'s effect alone. -/
theorem blockFrame : Obligations.BlockFrame := by
  intro b s t r h hrow
  cases ha : applyBlock b (s.row.getD idleRow) with
  | error e =>
    cases (exec_block_error ha).symm.trans h
    obtain ⟨-, -, -, hnone⟩ := raiseInRow_rest s e
    cases hnone.symm.trans hrow
  | ok r' =>
    cases (exec_block_ok ha).symm.trans h
    cases hrow
    rw [(applyBlock_ok ha).1]
    exact ⟨rfl, rfl, rfl, rfl⟩

/-! ## What ends a row with CORRUPT -/

theorem decodeBlock_repeat {n : Byte} (hn : n ≠ 0) (bpp : Nat) (rest : List Byte) : decodeBlock bpp (n :: rest) =
    if bpp ≤ rest.length then .ok (.rep n (rest.take bpp), rest.drop bpp) else .error .repeatCutShort := if_pos hn

theorem decodeBlock_literal (m : Byte) (bpp : Nat) (rest : List Byte) : decodeBlock bpp (0 :: m :: rest) =
    if m.toNat * bpp ≤ rest.length then .ok (.lit m (rest.take (m.toNat * bpp)), rest.drop (m.toNat * bpp))
    else .error .literalCutShort := rfl

/-- Settles O33: each clause is one way for the pass to raise: the fetch, the block, or the end of the row. -/
theorem rowEndsWithCorrupt : Obligations.RowEndsWithCorrupt := by
  intro s r hr hw hm left ends
  have raises {e : Err} (h : step s = .next (s.raiseInRow e)) : ends (doneStatus (some e)) := by
    obtain ⟨henv, hcfg, hpending, hrow⟩ := raiseInRow_rest s e
    obtain ⟨-, -, -, hdst⟩ := raiseInRow_mem e hm
    exact ⟨_, h, raiseInRow_regs s e, hpending, hrow, hcfg, henv, hdst hw⟩
  have unread {x : Byte} {xs : List Byte} (h : left = x :: xs) : r.cp < r.c.length := by
    by_contra hge
    cases (List.drop_eq_nil_of_le (Nat.not_lt.1 hge)).symm.trans h
  have fetchRaises {x : Byte} {xs : List Byte} {de : DecodeError} (h : left = x :: xs)
      (hd : decodeBlock r.bpp (x :: xs) = .error de) : ends (doneStatus (some (decodeErr de))) :=
    raises (step_fetch_error hr (unread h) (h ▸ hd : decodeBlock r.bpp left = _))
  have blockRaises {x : Byte} {xs rest : List Byte} {b : Block} {e : Err} (h : left = x :: xs)
      (hd : decodeBlock r.bpp (x :: xs) = .ok (b, rest)) (ha : applyBlock b r = .error e) :
      ends (doneStatus (some e)) :=
    raises (step_block_error hr (unread h) (h ▸ hd : decodeBlock r.bpp left = _) ha)
  refine ⟨fun n rest h hn hcut => ?_, fun n rest h hn hlen hfull => ?_, fun h => ?_, fun rest h => ?_,
    fun m rest h hm0 hcut => ?_, fun m rest h hm0 hlen hfull => ?_, fun h hne => ?_⟩
  · exact fetchRaises h (by rw [decodeBlock_repeat hn, if_neg (Nat.not_le.2 hcut)])
  · exact blockRaises h (by rw [decodeBlock_repeat hn, if_pos hlen])
      (applyBlock_rep_overfills (by rwa [List.length_take_of_le hlen]))
  · exact fetchRaises h rfl
  · exact blockRaises h (by rw [decodeBlock_literal, if_pos (by simp)]) (applyBlock_lit_zero _ r)
  · exact fetchRaises h (by rw [decodeBlock_literal, if_neg (Nat.not_le.2 hcut)])
  · exact blockRaises h (by rw [decodeBlock_literal, if_pos hlen])
      (applyBlock_lit_overfills hm0 (by rwa [List.length_take_of_le hlen]))
  · refine raises (e := .corrupt 6) ?_
    rw [step_row_end hr (List.drop_eq_nil_iff.1 h), State.finishRow, endRow, if_neg hne]

/-! ## ROW_DEC as its blocks -/

/-- How ROW_DEC ends when its checks before decoding have passed: the row delivered, `n` being IN_POS, or the row's
error (43_rle_row.md R151). -/
def State.rowEnds (s : State) (n : Nat) : Except Err (List Byte) → State
  | .ok out => (s.deliver out n).complete
  | .error e => s.raiseInRow e

theorem decodeRow_eq_bind (c : List Byte) (w bpp : Nat) :
    decodeRow c w bpp = runRow c.length (startRow c w bpp) >>= endRow := by
  rw [decodeRow]
  cases runRow c.length (startRow c w bpp) with
  | ok r => rfl
  | error e => rfl

/-- The end of a row does not depend on the locals that the state still holds. -/
theorem finishRow_withRow (s : State) (r r' : RowCtx) :
    ({ s with row := some r } : State).finishRow r' = s.rowEnds r'.c.length (endRow r') := by
  rw [State.finishRow]
  cases endRow r' with
  | ok out => rfl
  | error e => rfl

theorem run_succ_of_step {M : Host.Core} {s t : M.State} (h : M.step s = .next t) (k : Nat) :
    M.run (k + 1) s = M.run k t := by
  simp only [Host.Core.run, h]

section
variable {n : Nat} {r r' : RowCtx} {b : Block} {rest : List Byte}

theorem runRow_of_end (h : r.c.length ≤ r.cp) : runRow n r = .ok r := by
  cases n with
  | zero => rfl
  | succ n => rw [runRow, if_neg (Nat.not_lt.2 h)]

theorem runRow_fetch_error {de : DecodeError} (hlt : r.cp < r.c.length) (hf : fetchBlock r = .error de) :
    runRow (n + 1) r = .error (decodeErr de) := by
  simp only [runRow, if_pos hlt, hf]

theorem runRow_block_error {e : Err} (hlt : r.cp < r.c.length) (hf : fetchBlock r = .ok (b, rest))
    (ha : applyBlock b r = .error e) : runRow (n + 1) r = .error e := by
  simp only [runRow, if_pos hlt, hf, ha]

theorem runRow_block_ok (hlt : r.cp < r.c.length) (hf : fetchBlock r = .ok (b, rest))
    (ha : applyBlock b r = .ok r') : runRow (n + 1) r = runRow n r' := by
  simp only [runRow, if_pos hlt, hf, ha]

end

/-- At the end of a row one step ends it. -/
theorem run_row_end (s : State) (n : Nat) {r : RowCtx} (hge : r.c.length ≤ r.cp) :
    Host.Core.run Sys2Proof.core 1 { s with row := some r } =
      .next (s.rowEnds r.c.length (runRow n r >>= endRow)) := by
  rw [runRow_of_end hge]
  exact (run_succ_of_step (M := Sys2Proof.core) (step_row_end rfl hge) 0).trans
    (congrArg Host.Outcome.next (finishRow_withRow s r r))

/-- The simulation: from any point of a row, single steps end where the decoder's loop and the end of the row lead. -/
theorem run_row (s : State) {n : Nat} {r : RowCtx} (hn : r.c.length ≤ r.cp + n) :
    ∃ k, Host.Core.run Sys2Proof.core k { s with row := some r } =
      .next (s.rowEnds r.c.length (runRow n r >>= endRow)) := by
  induction n generalizing r with
  | zero => exact ⟨1, run_row_end s 0 hn⟩
  | succ n ih =>
    by_cases hlt : r.cp < r.c.length
    · cases hf : fetchBlock r with
      | error de =>
        rw [runRow_fetch_error hlt hf]
        exact ⟨1, run_succ_of_step (M := Sys2Proof.core) (step_fetch_error rfl hlt hf) 0⟩
      | ok br =>
        obtain ⟨b, rest⟩ := br
        cases ha : applyBlock b r with
        | error e =>
          rw [runRow_block_error hlt hf ha]
          exact ⟨1, run_succ_of_step (M := Sys2Proof.core) (step_block_error rfl hlt hf ha) 0⟩
        | ok r' =>
          have hr' := (applyBlock_ok ha).1
          have hpos := encodeBlock_length_pos b
          have hc : r'.c = r.c := by rw [hr']
          have hcp : r'.cp = r.cp + (encodeBlock b).length := by rw [hr']
          obtain ⟨k, hk⟩ := ih (r := r') (by rw [hc, hcp]; omega)
          rw [runRow_block_ok hlt hf ha, ← hc]
          exact ⟨k + 1, (run_succ_of_step (M := Sys2Proof.core) (step_block rfl hlt hf ha) k).trans hk⟩
    · exact ⟨1, run_row_end s _ (Nat.not_lt.1 hlt)⟩

/-- ROW_DEC's step when its checks before decoding pass: DecodeRow of the source window decides how it ends. -/
theorem exec_rowDec_of_fits {s : State} {f : PixFmt} (hw : windowsReady .rowDec s = true) (hwidth : s.regs.width ≠ 0)
    (hf : PixFmt.ofCode s.regs.pixfmt = some f) (hcap : s.regs.width.toNat * f.bpp ≤ s.regs.dstCap.toNat) :
    exec .rowDec s = .next (s.rowEnds s.regs.srcLen.toNat
      (decodeRow (s.mem.readSeq s.regs.srcBase.toNat s.regs.srcLen.toNat) s.regs.width.toNat f.bpp)) := by
  have hx : exec .rowDec s = runCommand .rowDec s (deliverBody s (rowDecResult s)) := rfl
  cases hd : decodeRow (s.mem.readSeq s.regs.srcBase.toNat s.regs.srcLen.toNat) s.regs.width.toNat f.bpp with
  | ok out =>
    exact hx.trans (runCommand_ok hw
      (deliverBody_ok.2 ⟨out, _, rowDecResult_ok.2 ⟨f, hwidth, hf, hcap, hd, rfl⟩, rfl⟩))
  | error e =>
    have hg : geometry false s.regs = .ok (s.regs.width.toNat, s.regs.height.toNat, f) :=
      geometry_ok.2 ⟨hwidth, by simp, hf, rfl, rfl⟩
    have hresult : rowDecResult s = .error e := except_bind_error.2 (.inr ⟨_, hg,
      except_bind_error.2 (.inr ⟨(), check_ok.2 (decide_eq_true hcap), except_bind_error.2 (.inl hd)⟩)⟩)
    rw [hx, runCommand_error hw (deliverBody_error.2 ⟨rfl, hresult⟩), State.rowEnds, State.raiseInRow,
      if_pos (Option.isNone_iff_eq_none.2 (windowsReady_iff.1 hw).2)]

/-- Settles O34: the simulation from the row's start, with as many passes as the row has bytes. -/
theorem rowDecIsItsBlocks : Obligations.RowDecIsItsBlocks := by
  intro s f hw hwidth hf hcap
  rw [exec_rowDec_of_fits hw hwidth hf hcap, decodeRow_eq_bind]
  have hlen := Memory.readSeq_length s.mem s.regs.srcBase.toNat s.regs.srcLen.toNat
  generalize s.mem.readSeq s.regs.srcBase.toNat s.regs.srcLen.toNat = c at hlen ⊢
  rw [← hlen]
  exact run_row s (r := startRow c _ _) (Nat.le_add_left _ 0)

/-- Settles O23: the command's end is the decoded row's, whose length is W*bpp. -/
theorem rowDecCompletes : Obligations.RowDecCompletes := by
  intro s f out hw hwidth hf hcap hd
  rw [exec_rowDec_of_fits hw hwidth hf hcap, hd, State.rowEnds, State.complete, deliver_regs, BitVec.ofNat_toNat,
    BitVec.setWidth_eq, decodeRow_length hd]
  rfl

/-- Settles O35: the two facts of DecodeRow's answer, each by induction on its loop. -/
theorem decodeRowFillsTheRow : Obligations.DecodeRowFillsTheRow :=
  fun _ _ _ => ⟨fun _ => decodeRow_length, fun _ => decodeRow_error⟩

end Sys2Proof.Machine

/-! The row encoder (43_rle_row.md R146 to R153): its loop block group by block group, and the round trip. -/

namespace Sys2Proof.Machine

/-! ## The row's pixels -/

theorem pixels_getElem? (bpp : Nat) {w k : Nat} (row : List Byte) (hk : k < w) :
    (pixels bpp w row)[k]? = some ((row.drop (k * bpp)).take bpp) := by
  induction w generalizing k row with
  | zero => omega
  | succ w ih =>
    cases k with
    | zero => simp [pixels]
    | succ k => rw [pixels, List.getElem?_cons_succ, ih _ (by omega), List.drop_drop, Nat.succ_mul, Nat.add_comm]

/-! ## Runs and literal spans -/

/-- A run is of equal pixels. -/
theorem getElem?_of_lt_runLen {p : List Byte} {ps : List (List Byte)} {k : Nat} (hk : k < runLen (p :: ps)) :
    (p :: ps)[k]? = some p := by
  rw [← List.getElem?_take_of_lt hk, take_runLen, List.getElem?_replicate_of_lt hk]

/-- A run is maximal: what stands after it is another pixel, or nothing. -/
theorem getElem?_runLen_ne (p : List Byte) (ps : List (List Byte)) : (p :: ps)[runLen (p :: ps)]? ≠ some p := by
  rw [runLen, Nat.add_comm, List.getElem?_cons_succ]
  induction ps with
  | nil => simp
  | cons q ps ih =>
    by_cases hq : q = p
    · rw [List.takeWhile_cons_of_pos (by simpa using hq), List.length_cons, List.getElem?_cons_succ]
      exact ih
    · rw [List.takeWhile_cons_of_neg (by simpa using hq)]
      simpa using hq

theorem literalSpan_cons {p : List Byte} {ps : List (List Byte)} (h : runLen (p :: ps) < 2) :
    literalSpan (p :: ps) = 1 + literalSpan ps := by
  rw [literalSpan, if_pos h]

theorem literalSpan_of_run {ps : List (List Byte)} (h : 2 ≤ runLen ps) : literalSpan ps = 0 := by
  cases ps with
  | nil => rfl
  | cons p ps => rw [literalSpan, if_neg (Nat.not_lt.2 h)]

/-! ## More passes than are needed change nothing -/

theorem repeatChunks_zero (px : List Byte) (n : Nat) : repeatChunks px n 0 = [] := by
  cases n with
  | zero => rfl
  | succ n => rw [repeatChunks, if_pos rfl]

theorem repeatChunks_succ (px : List Byte) {n r : Nat} (h : r ≤ n) :
    repeatChunks px (n + 1) r = repeatChunks px n r := by
  induction n generalizing r with
  | zero =>
    obtain rfl := Nat.le_zero.1 h
    rw [repeatChunks_zero, repeatChunks_zero]
  | succ n ih =>
    rw [repeatChunks, ih (by omega)]
    rfl

theorem repeatChunks_passes (px : List Byte) {n r : Nat} (h : r ≤ n) : repeatChunks px n r = repeatChunks px r r := by
  induction n, h using Nat.le_induction with
  | base => rfl
  | succ n hn ih => rw [repeatChunks_succ px hn, ih]

theorem literalChunks_nil (n : Nat) : literalChunks n [] = [] := by
  cases n with
  | zero => rfl
  | succ n => rw [literalChunks, if_pos List.length_nil]

theorem literalChunks_succ {n : Nat} {ps : List (List Byte)} (h : ps.length ≤ n) :
    literalChunks (n + 1) ps = literalChunks n ps := by
  induction n generalizing ps with
  | zero =>
    obtain rfl := List.eq_nil_of_length_eq_zero (Nat.le_zero.1 h)
    rw [literalChunks_nil, literalChunks_nil]
  | succ n ih =>
    rw [literalChunks, ih (by rw [List.length_drop]; omega)]
    rfl

theorem literalChunks_passes {n : Nat} {ps : List (List Byte)} (h : ps.length ≤ n) :
    literalChunks n ps = literalChunks ps.length ps := by
  induction n, h using Nat.le_induction with
  | base => rfl
  | succ n hn ih => rw [literalChunks_succ hn, ih]

theorem encodePixels_nil (n : Nat) : encodePixels n [] = [] := by
  cases n with
  | zero => rfl
  | succ n => rfl

theorem encodePixels_succ {n : Nat} {ps : List (List Byte)} (h : ps.length ≤ n) :
    encodePixels (n + 1) ps = encodePixels n ps := by
  induction n generalizing ps with
  | zero =>
    obtain rfl := List.eq_nil_of_length_eq_zero (Nat.le_zero.1 h)
    rfl
  | succ n ih =>
    cases ps with
    | nil => rfl
    | cons p ps =>
      have shorter {k : Nat} (hk : 1 ≤ k) : ((p :: ps).drop k).length ≤ n := by
        rw [List.length_drop]
        omega
      rw [encodePixels, encodePixels]
      split_ifs with hrun
      · rw [ih (shorter (by omega))]
      · rw [ih (shorter (by rw [literalSpan_cons (Nat.not_le.1 hrun)]; omega))]

/-! ## The loop -/

section
variable {n : Nat} {ps : List (List Byte)}

/-- A run of 2 or more is emitted as repeat blocks, and the loop goes on after it (R147). -/
theorem encodePixels_run (hn : ps.length ≤ n) (h : 2 ≤ runLen ps) : encodePixels n ps =
    repeatChunks (ps.headD []) (runLen ps) (runLen ps) ++ encodePixels n (ps.drop (runLen ps)) := by
  cases ps with
  | nil => simp [runLen] at h
  | cons p ps =>
    cases n with
    | zero => simp at hn
    | succ n =>
      rw [encodePixels_succ (ps := List.drop _ _) (by rw [List.length_drop]; omega), encodePixels, if_pos h]
      rfl

/-- A literal span is emitted as literal blocks, and the loop goes on after it (R147). -/
theorem encodePixels_span (hn : ps.length ≤ n) (hne : ps ≠ []) (h : runLen ps < 2) : encodePixels n ps =
    literalChunks (literalSpan ps) (ps.take (literalSpan ps)) ++ encodePixels n (ps.drop (literalSpan ps)) := by
  cases ps with
  | nil => exact absurd rfl hne
  | cons p ps =>
    cases n with
    | zero => simp at hn
    | succ n =>
      have hspan := literalSpan_cons h
      rw [encodePixels_succ (ps := List.drop _ _) (by rw [List.length_drop]; omega), encodePixels,
        if_neg (Nat.not_le.2 h)]

end

/-! ## Chunks of 255 -/

/-- A run of at most 255 is one repeat block (R148). -/
theorem repeatChunks_short (px : List Byte) {r : Nat} (h0 : 0 < r) (h : r ≤ 255) :
    repeatChunks px r r = BitVec.ofNat 8 r :: px := by
  obtain ⟨k, rfl⟩ := Nat.exists_eq_add_one_of_ne_zero h0.ne'
  rw [repeatChunks, if_neg h0.ne', Nat.min_eq_right h, Nat.sub_self, repeatChunks_zero, List.append_nil]

/-- A longer run begins with a block of 255 (R148). -/
theorem repeatChunks_long (px : List Byte) {r : Nat} (h : 255 < r) :
    repeatChunks px r r = 0xFF :: px ++ repeatChunks px (r - 255) (r - 255) := by
  obtain ⟨k, rfl⟩ := Nat.exists_eq_add_one_of_ne_zero (show r ≠ 0 by omega)
  rw [repeatChunks, if_neg (by omega), Nat.min_eq_left h.le, repeatChunks_passes px (n := k) (by omega)]
  rfl

/-- A span of at most 255 is one literal block (R149). -/
theorem literalChunks_short {ps : List (List Byte)} (hne : ps ≠ []) (h : ps.length ≤ 255) :
    literalChunks ps.length ps = 0 :: BitVec.ofNat 8 ps.length :: ps.flatten := by
  cases ps with
  | nil => exact absurd rfl hne
  | cons p ps =>
    rw [List.length_cons, literalChunks, if_neg (by simp), Nat.min_eq_right h, List.take_of_length_le h,
      List.drop_of_length_le h, literalChunks_nil, List.append_nil, List.length_cons]

/-- A longer span begins with a block of 255 (R149). -/
theorem literalChunks_long {ps : List (List Byte)} (h : 255 < ps.length) : literalChunks ps.length ps =
    0 :: 0xFF :: (ps.take 255).flatten ++ literalChunks (ps.length - 255) (ps.drop 255) := by
  obtain ⟨k, hk⟩ := Nat.exists_eq_add_one_of_ne_zero (show ps.length ≠ 0 by omega)
  have hdrop := List.length_drop (i := 255) (l := ps)
  rw [← hdrop, hk, literalChunks, if_neg (by omega), Nat.min_eq_left h.le,
    literalChunks_passes (n := k) (by omega)]
  rfl

/-- Settles O36: the row's pixels, the maximal run, the loop with as many passes to come as before, the literal span,
and the two chunkings. -/
theorem encodeRowBlockByBlock : Obligations.EncodeRowBlockByBlock :=
  ⟨fun row w bpp => ⟨rfl, pixels_length bpp w row, fun _ hk => pixels_getElem? bpp row hk⟩,
    fun p ps => ⟨Nat.le_add_right _ _, runLen_le _, fun _ hk => getElem?_of_lt_runLen hk, getElem?_runLen_ne p ps⟩,
    encodePixels_nil,
    fun _ _ hne hn => ⟨encodePixels_run hn, encodePixels_span hn hne⟩,
    rfl, fun _ _ => literalSpan_cons, fun _ => literalSpan_of_run,
    fun px _ h0 => ⟨repeatChunks_short px h0, repeatChunks_long px⟩,
    fun _ hne => ⟨literalChunks_short hne, literalChunks_long⟩⟩

/-- Settles O37: an encoded row is a stream of well-formed blocks that stand for the row, and such a stream decodes to
what its blocks stand for. -/
theorem rowRoundTrip : Obligations.RowRoundTrip := by
  intro row w bpp _ _ hl
  obtain ⟨bs, hbytes, hwf, hout, hlen⟩ := encodeRow_blocks hl
  have hdec := decodeRow_blocks hwf (hout ▸ hl : (blocksOut bs).length = w * bpp)
  rw [hbytes]
  exact ⟨hout ▸ hdec, hlen⟩

end Sys2Proof.Machine

/-! ROW_ENC's completion (43_rle_row.md R150), and Geometry's errors for every command that asks for it (R145). -/

namespace Sys2Proof.Machine

/-- Settles O22: the command's computation answers the tag stream and W*bpp. -/
theorem rowEncCompletes : Obligations.RowEncCompletes := by
  intro s f hw hwidth hf n c hsrc hcap
  have hx := exec_eq_runCommand (i := .rowEnc) rfl s
  exact hx.trans (runCommand_ok hw
    (deliverBody_ok.2 ⟨c, n, rowEncResult_ok.2 ⟨f, hwidth, hf, hsrc, rfl, hcap, rfl⟩, rfl⟩))

/-- The commands that ask for a geometry (43_rle_row.md R145), each with whether it reads HEIGHT. -/
def asksGeometry : Instr → Option Bool
  | .rowEnc | .rowDec => some false
  | .imgEnc | .imgDec | .cvt _ => some true
  | .nop | .hdrParse | .cksum | .cksumStamp | .fileCompress | .fileDecompress | .fileConvert _ | .reserved43 _
  | .literalBlock _ _ | .repeatBlock _ _ => none

/-- A command that asks for a geometry ends with Geometry's error before any other of its own. -/
theorem endsWithError_of_geometry {i : Instr} {s : State} {needH : Bool} {e : Err} (hi : asksGeometry i = some needH)
    (hw : windowsReady i s = true) (hg : geometry needH s.regs = .error e) :
    endsWithError i s s.regs (doneStatus (some e)) := by
  obtain ⟨hu, hbody⟩ : usesWindow i = true ∧ commandBody i s = .error (s, e) := by
    cases i with
    | rowEnc | rowDec | imgEnc | imgDec =>
      cases hi
      exact ⟨rfl, deliverBody_error.2 ⟨rfl, except_bind_error.2 (.inl hg)⟩⟩
    | cvt df =>
      cases hi
      exact ⟨rfl, cvt_body_error.2 ⟨rfl, except_bind_error.2 (.inl hg)⟩⟩
    | nop | hdrParse | cksum | cksumStamp | fileCompress | fileDecompress | fileConvert | reserved43 | literalBlock
    | repeatBlock => cases hi
  exact endsWithError_of_raise (exec_eq_runCommand hu s) hw hbody rfl rfl rfl rfl rfl rfl

/-- A code other than 1 and 2 names no format. -/
theorem ofCode_eq_none {b : Byte} (h1 : b ≠ 1) (h2 : b ≠ 2) : PixFmt.ofCode b = none := by
  rw [PixFmt.ofCode, if_neg h1, if_neg h2]

/-- Settles O43: the three errors of Geometry, for the commands that read HEIGHT and the two that do not. -/
theorem geometryErrors : Obligations.GeometryErrors := by
  intro i s hi hw _
  obtain ⟨needH, hasks, hneed⟩ : ∃ needH, asksGeometry i = some needH ∧
      (needH = true ↔ i ≠ .rowEnc ∧ i ≠ .rowDec) := by
    simp only [List.mem_cons, List.not_mem_nil, or_false] at hi
    rcases hi with rfl | rfl | rfl | rfl | rfl | rfl <;> exact ⟨_, rfl, by decide⟩
  have raises {e : Err} (hg : geometry needH s.regs = .error e) := endsWithError_of_geometry hasks hw hg
  refine ⟨fun hwidth => ?_, fun hwidth henc hdec hheight => ?_, fun hwidth hrows h1 h2 => ?_⟩
  · exact raises (geometry_error.2 (.inl ⟨hwidth, rfl⟩))
  · exact raises (geometry_error.2 (.inr (.inl ⟨hwidth, hneed.2 ⟨henc, hdec⟩, hheight, rfl⟩)))
  · refine raises (geometry_error.2 (.inr (.inr ⟨hwidth, fun hn => ?_, ofCode_eq_none h1 h2, rfl⟩)))
    obtain ⟨henc, hdec⟩ := hneed.1 hn
    exact (hrows.resolve_left henc).resolve_left hdec

end Sys2Proof.Machine

/-! The Image Codec (44_image.md): EncodeImage and DecodeImage row frame by row frame, the image round trip, IMG_ENC and
IMG_DEC. -/

namespace Sys2Proof.Machine

/-! ## A row's length in two bytes -/

/-- The length that two bytes spell is written as these bytes. -/
theorem le16_append (b0 b1 : Byte) : le16 (b1 ++ b0) = [b0, b1] := by
  rw [le16, low_append, high_append]

/-- Two bytes spell a length low byte first. -/
theorem toNat_append_bytes (b0 b1 : Byte) : (b1 ++ b0).toNat = b0.toNat + 256 * b1.toNat := by
  rw [BitVec.toNat_append, ← Nat.shiftLeft_add_eq_or_of_lt b0.isLt, Nat.shiftLeft_eq, Nat.add_comm, Nat.mul_comm]

/-- A length of 16 bits is written as its remainder and its quotient by 256. -/
theorem le16_ofNat {n : Nat} (hn : n ≤ 65535) :
    le16 (BitVec.ofNat 16 n) = [BitVec.ofNat 8 (n % 256), BitVec.ofNat 8 (n / 256)] := by
  have hbytes : BitVec.ofNat 16 n = BitVec.ofNat 8 (n / 256) ++ BitVec.ofNat 8 (n % 256) := by
    apply BitVec.eq_of_toNat_eq
    rw [toNat_append_bytes]
    simp only [BitVec.toNat_ofNat]
    omega
  rw [hbytes, le16_append]

section
variable {w bpp h : Nat}

/-! ## EncodeImage, a row at a time -/

/-- The first row's tag stream is framed, and what the rows below it give follows (R170). -/
theorem encodeImage_succ_ok {pix b c : List Byte} (hc : encodeRow (pix.take (w * bpp)) w bpp = c) :
    encodeImage w bpp (h + 1) pix = .ok b ↔ c.length ≤ 65535 ∧
      ∃ rest, encodeImage w bpp h (pix.drop (w * bpp)) = .ok rest ∧
        b = le16 (BitVec.ofNat 16 c.length) ++ c ++ rest := by
  by_cases hle : c.length ≤ 65535
  · cases hr : encodeImage w bpp h (pix.drop (w * bpp)) <;> simp [encodeImage, hc, hle, hr, eq_comm]
  · simp [encodeImage, hc, hle]

/-- An image is framed exactly when every row's tag stream has a length that two bytes hold (R174). -/
theorem encodeImage_ok_iff {pix : List Byte} : (∃ b, encodeImage w bpp h pix = .ok b) ↔
    ∀ y < h, (encodeRow ((pix.drop (y * (w * bpp))).take (w * bpp)) w bpp).length ≤ 65535 := by
  induction h generalizing pix with
  | zero => simp [encodeImage]
  | succ h ih =>
    have hbelow (y : Nat) : (pix.drop (w * bpp)).drop (y * (w * bpp)) = pix.drop ((y + 1) * (w * bpp)) := by
      rw [List.drop_drop, Nat.succ_mul, Nat.add_comm]
    have hrest := ih (pix := pix.drop (w * bpp))
    simp only [hbelow] at hrest
    rw [Nat.forall_lt_succ_left, ← hrest, Nat.zero_mul, List.drop_zero]
    simp only [encodeImage_succ_ok rfl, exists_and_left, and_congr_right_iff]
    exact fun _ => ⟨fun ⟨_, rest, hr, _⟩ => ⟨rest, hr⟩, fun ⟨rest, hr⟩ => ⟨_, rest, hr, rfl⟩⟩

/-! ## DecodeImage, a row frame at a time -/

theorem decodeImage_of_no_length {s : List Byte} (hs : s.length < 2) :
    decodeImage w bpp (h + 1) s = .error (.truncated 3) := by
  rw [decodeImage, if_pos hs]

section
variable {len : BitVec 16} {body : List Byte}

/-- After the length: a body cut short, or a whole frame, which is its row, then the rows below it, or the
first error of these (R172). -/
theorem decodeImage_after_length : decodeImage w bpp (h + 1) (le16 len ++ body) =
    if body.length < len.toNat then .error (.truncated 4)
    else do
      let row ← decodeRow (body.take len.toNat) w bpp
      let (pix, p) ← decodeImage w bpp h (body.drop len.toNat)
      return (row ++ pix, 2 + len.toNat + p) := by
  have hlen : readLe16 (le16 len ++ body) 0 = len := le16_word len
  simp only [decodeImage, hlen, List.length_append, le16_length, List.drop_left' (le16_length len),
    if_neg (Nat.not_lt.2 (Nat.le_add_right 2 body.length))]
  congr 1
  cases decodeRow (body.take len.toNat) w bpp with
  | error e => rfl
  | ok row => cases decodeImage w bpp h (body.drop len.toNat) <;> rfl

theorem decodeImage_of_cut_body (hb : body.length < len.toNat) :
    decodeImage w bpp (h + 1) (le16 len ++ body) = .error (.truncated 4) := by
  rw [decodeImage_after_length, if_pos hb]

theorem decodeImage_of_frame (hb : len.toNat ≤ body.length) : decodeImage w bpp (h + 1) (le16 len ++ body) = do
    let row ← decodeRow (body.take len.toNat) w bpp
    let (pix, p) ← decodeImage w bpp h (body.drop len.toNat)
    return (row ++ pix, 2 + len.toNat + p) := by
  rw [decodeImage_after_length, if_neg (Nat.not_lt.2 hb)]

end

/-! ## The round trip -/

/-- By the rows: the frame's length is the tag stream's, and the tag stream decodes to the row (R152). -/
theorem decodeImage_encodeImage {pix b : List Byte} (tail : List Byte) (hw : 1 ≤ w) (hbpp : bpp = 1 ∨ bpp = 3)
    (hl : pix.length = h * (w * bpp)) (he : encodeImage w bpp h pix = .ok b) :
    decodeImage w bpp h (b ++ tail) = .ok (pix, b.length) := by
  induction h generalizing pix b with
  | zero =>
    obtain rfl : pix = [] := List.eq_nil_of_length_eq_zero (by simpa using hl)
    cases he
    rfl
  | succ h ih =>
    rw [Nat.succ_mul] at hl
    have hrow := (rowRoundTrip (pix.take (w * bpp)) w bpp hw hbpp (by rw [List.length_take]; omega)).1
    generalize hc : encodeRow (pix.take (w * bpp)) w bpp = c at hrow
    obtain ⟨hle, rest, hrest, rfl⟩ := (encodeImage_succ_ok hc).1 he
    have hbelow := ih (by rw [List.length_drop]; omega) hrest
    have hlen : (BitVec.ofNat 16 c.length).toNat = c.length :=
      (BitVec.toNat_ofNat ..).trans (Nat.mod_eq_of_lt (by omega))
    rw [List.append_assoc, List.append_assoc, decodeImage_of_frame (by rw [hlen]; simp), hlen, List.take_left,
      List.drop_left, hrow, hbelow]
    exact congrArg Except.ok (Prod.ext (List.take_append_drop ..) (by simp [Nat.add_assoc]))

end

/-- Settles O38, by induction on the rows. -/
theorem imageRoundTrip : Obligations.ImageRoundTrip := by
  intro pix b tail w h bpp hw _ hbpp hl he
  exact decodeImage_encodeImage tail hw hbpp (by rw [hl]; ring) he

/-- Settles O39: EncodeImage's answers row by row, and its one error. -/
theorem rangeExactlyWhenARowIsTooLong : Obligations.RangeExactlyWhenARowIsTooLong := by
  intro w bpp h pix
  refine ⟨encodeImage_ok_iff, fun hnone => ?_, rfl, fun rest hc hrest => ?_⟩
  · cases he : encodeImage w bpp h pix with
    | ok b => exact absurd ⟨b, he⟩ hnone
    | error e => rw [encodeImage_error he]; rfl
  · rw [(encodeImage_succ_ok rfl).2 ⟨hc, rest, hrest, rfl⟩, le16_ofNat hc]
    rfl

/-- Settles O45: two bytes or more are a length and a body, and a whole body is a frame. -/
theorem decodeImageRowByRow : Obligations.DecodeImageRowByRow := by
  intro w bpp h s
  refine ⟨rfl, decodeImage_of_no_length, ?_⟩
  rintro b0 b1 body rfl
  rw [show b0 :: b1 :: body = le16 (b1 ++ b0) ++ body by rw [le16_append]; rfl, ← toNat_append_bytes]
  refine ⟨decodeImage_of_cut_body, fun e hb hrow => ?_, fun row e hb hrow hrest => ?_,
    fun row pix p hb hrow hrest => ?_⟩
  · rw [decodeImage_of_frame hb, hrow]
    rfl
  · rw [decodeImage_of_frame hb, hrow, hrest]
    rfl
  · rw [decodeImage_of_frame hb, hrow, hrest]
    rfl

/-! ## The commands -/

/-- Settles O24: the command's computation answers the framed stream and W*H*bpp. -/
theorem imgEncCompletes : Obligations.ImgEncCompletes := by
  intro s f b hw hwidth hheight hf n hsrc henc hcap
  have hbody : commandBody .imgEnc s = .ok (s.deliver b n) :=
    deliverBody_ok.2 ⟨b, n, imgEncResult_ok.2 ⟨f, hwidth, hheight, hf, hsrc, henc, hcap, rfl⟩, rfl⟩
  rw [exec_eq_runCommand rfl s, runCommand_ok hw hbody]
  rfl

/-- Settles O25: the command's computation answers the decoded image, whose length is W*H*bpp. -/
theorem imgDecCompletes : Obligations.ImgDecCompletes := by
  intro s f pix p hw hwidth hheight hf n hcap hdec
  have hlen : pix.length = n := by
    rw [(decodeImage_length hdec).1]
    ring
  have hbody : commandBody .imgDec s = .ok (s.deliver pix p) :=
    deliverBody_ok.2 ⟨pix, p, imgDecResult_ok.2 ⟨f, hwidth, hheight, hf, hcap, hdec⟩, rfl⟩
  rw [exec_eq_runCommand rfl s, runCommand_ok hw hbody, State.complete, deliver_regs, hlen]
  rfl

end Sys2Proof.Machine

/-! The Pixel Format Converter (45_convert.md): Convert pixel by pixel, and CVT. -/

namespace Sys2Proof.Machine

/-! ## Convert, a pixel at a time -/

@[simp] theorem convert_nil (sf df : PixFmt) : convert [] sf df = [] := by
  cases sf <;> cases df <;> rfl

@[simp] theorem convert_self (pix : List Byte) (f : PixFmt) : convert pix f f = pix := by
  cases f <;> rfl

/-- One pixel to gray, its byte the luma of the three. -/
theorem convert_rgb8_gray8_cons (r g b : Byte) (rest : List Byte) :
    convert (r :: g :: b :: rest) .rgb8 .gray8 = BitVec.ofNat 8 (luma r g b) :: convert rest .rgb8 .gray8 := rfl

/-- One gray byte, three times. -/
theorem convert_gray8_rgb8_cons (v : Byte) (rest : List Byte) :
    convert (v :: rest) .gray8 .rgb8 = v :: v :: v :: convert rest .gray8 .rgb8 := rfl

/-- The luma of a pixel whose bytes agree is that byte, because the weights sum to 1000. -/
theorem luma_self (v : Byte) : luma v v v = v.toNat := by
  simp only [luma]
  omega

/-- Gray to RGB and back (R195). -/
theorem convert_gray8_rgb8_gray8 (pix : List Byte) : convert (convert pix .gray8 .rgb8) .rgb8 .gray8 = pix := by
  induction pix with
  | nil => rfl
  | cons v rest ih =>
    rw [convert_gray8_rgb8_cons, convert_rgb8_gray8_cons, luma_self, ih, BitVec.ofNat_toNat, BitVec.setWidth_eq]

/-- Settles O41, by what Convert does to one pixel and, for the round trip, by induction on the gray bytes. -/
theorem convertPixelByPixel : Obligations.ConvertPixelByPixel := by
  intro pix rest r g b f sf df
  exact ⟨convert_nil sf df, luma_le r g b, convert_rgb8_gray8_cons r g b rest, convert_gray8_rgb8_cons g rest,
    convert_self pix f, convert_gray8_rgb8_gray8 pix⟩

/-! ## CVT -/

/-- FMT's new value masks the low byte out and puts the target's code there (R191). -/
theorem setPixfmt_eq_mask_or (fmt : Word) (df : PixFmt) :
    setPixfmt fmt df = (fmt &&& 0xFFFFFF00#32) ||| df.code.setWidth 32 := by
  have hmask : ∀ k < 32, (0xFFFFFF00#32).getLsbD k = decide (8 ≤ k) := by decide
  apply BitVec.eq_of_getLsbD_eq
  intro k hk
  rw [setPixfmt, BitVec.getLsbD_append, BitVec.getLsbD_or, BitVec.getLsbD_and, hmask k hk, BitVec.getLsbD_setWidth]
  by_cases hlow : k < 8
  · simp [hlow, hk, Nat.not_le.2 hlow]
  · have hup : 8 ≤ k := Nat.not_lt.1 hlow
    simp [hlow, hup, show k - 8 < 24 by omega]

/-- Settles O26: the command's computation answers the converted pixels, whose length is W*H pixels of the target. -/
theorem cvtCompletes : Obligations.CvtCompletes := by
  intro s sf df hw hwidth hheight hf n hsrc hcap
  have hsource : (s.srcSeq 0 (n * sf.bpp)).length = n * sf.bpp := Memory.readSeq_length _ _ _
  have hbody : commandBody (.cvt df) s =
      .ok ((s.deliver (convert (s.srcSeq 0 (n * sf.bpp)) sf df) (n * sf.bpp)).setTarget df) :=
    cvt_body_ok.2 ⟨_, _, cvtResult_ok.2 ⟨sf, hwidth, hheight, hf, hsrc, hcap, rfl, rfl⟩, rfl⟩
  rw [exec_eq_runCommand rfl s, runCommand_ok hw hbody, State.complete, setTarget_regs, deliver_regs,
    convert_length hsource, setPixfmt_eq_mask_or]
  rfl

end Sys2Proof.Machine

/-! NOP (46_file.md R210), and the instructions that store nothing: NOP, HDR_PARSE but for its TRUNCATED 1, CKSUM, a
reserved word, a block that fits its row. -/

namespace Sys2Proof.Machine

/-! ## NOP -/

/-- Settles O16: NOP is its completion, and a malformed word of its OPC is decoded as far as RSVD or ARG. -/
theorem nopCompletes : Obligations.NopCompletes := by
  intro s
  refine ⟨rfl, fun w hp hopc => ?_⟩
  have hplain : plainCommand (opcField w) ≠ none := by
    rw [show opcField w = 0#8 from hopc]
    decide
  exact ⟨fun hr => engineStep_of_decode_error hp (decodeCommand_reservedBits (.inr hplain) hr),
    fun hr ha => engineStep_of_decode_error hp (decodeCommand_plain_badArgument hplain hr ha)⟩

/-! ## Memory that is kept -/

section
variable {s t : State}

/-- HDR_PARSE stores nothing, whichever way it ends but with TRUNCATED 1. -/
theorem hdrParse_keeps_mem (h : exec .hdrParse s = .next t) (hst : t.regs.status ≠ 0x00000126) :
    t.mem = s.mem ∧ t.draws = s.draws := by
  obtain ⟨-, ⟨e, -, rfl⟩ | ⟨-, ⟨u, hu, rfl⟩ | ⟨u, e, hu, -, -, rfl⟩⟩⟩ := exec_window_cases rfl h
  · exact ⟨rfl, rfl⟩
  · obtain hl | hl := Nat.lt_or_ge s.regs.srcLen.toNat (hdrSize s.cfg.layout)
    · cases (hdrParse_body_of_lt hl).symm.trans hu
    · cases (hdrParse_body_of_le hl).symm.trans hu
      exact ⟨rfl, rfl⟩
  · obtain hl | hl := Nat.lt_or_ge s.regs.srcLen.toNat (hdrSize s.cfg.layout)
    · cases (hdrParse_body_of_lt hl).symm.trans hu
      exact absurd rfl hst
    · cases (hdrParse_body_of_le hl).symm.trans hu

theorem cksum_keeps_mem (h : exec .cksum s = .next t) : t.mem = s.mem ∧ t.draws = s.draws := by
  obtain ⟨-, ⟨e, -, rfl⟩ | ⟨-, ⟨u, hu, rfl⟩ | ⟨u, e, hu, -⟩⟩⟩ := exec_window_cases rfl h
  · exact ⟨rfl, rfl⟩
  · cases (cksum_body s).symm.trans hu
    exact ⟨rfl, rfl⟩
  · cases (cksum_body s).symm.trans hu

/-- A block after which the row goes on stores nothing. -/
theorem block_keeps_mem {b : Block} (h : exec b.toInstr s = .next t) (hrow : t.row ≠ none) :
    t.mem = s.mem ∧ t.draws = s.draws := by
  obtain ⟨r, hr⟩ := Option.ne_none_iff_exists'.1 hrow
  obtain ⟨rfl, -⟩ := blockFrame b s t r h hr
  exact ⟨rfl, rfl⟩

end

/-- Settles O51, instruction by instruction. -/
theorem nonStoringInstructionsKeepMemory : Obligations.NonStoringInstructionsKeepMemory := by
  rintro i s t h (rfl | ⟨rfl, hst⟩ | rfl | ⟨rest, rfl⟩ | ⟨⟨n, px, rfl⟩ | ⟨m, px, rfl⟩, hrow⟩)
  · cases h
    exact ⟨rfl, rfl⟩
  · exact hdrParse_keeps_mem h hst
  · exact cksum_keeps_mem h
  · cases h
    exact ⟨rfl, rfl⟩
  · exact block_keeps_mem (b := .rep n px) h hrow
  · exact block_keeps_mem (b := .lit m px) h hrow

end Sys2Proof.Machine

/-! A file as the file-level commands write it (41_header.md R106, 42_checksum.md R122): its fields, its body, that it
passes the six checks, and which files have this form. -/

namespace Sys2Proof.Machine

/-- The output of a file-level command: a header, a body, and the checksum of both over the header's bytes 00 00
(46_file.md R214). -/
def stampedFile (l : HdrLayout) (f : PixFmt) (c : Byte) (w h : Word) (body : List Byte) : List Byte :=
  patched (makeHeader l f c w h ++ body) (offCksum l) (le16 (cksum (makeHeader l f c w h ++ body) (offCksum l)))

section
variable {l : HdrLayout} {f : PixFmt} {c : Byte} {w h : Word} {body : List Byte}

theorem offCksum_le_length : offCksum l + 2 ≤ (makeHeader l f c w h ++ body).length := by
  rw [List.length_append, makeHeader_length]
  exact Nat.le_add_right_of_le (offCksum_lt l)

/-- What FileBack leaves in memory: writing the file and then its stamp is writing the stamped file. -/
theorem writeSeq_stampedFile {m : Memory} {a : Nat} (hm : m.wf = true) :
    (m.writeSeq a (makeHeader l f c w h ++ body)).writeSeq (a + offCksum l)
      (le16 (cksum (makeHeader l f c w h ++ body) (offCksum l))) = m.writeSeq a (stampedFile l f c w h body) :=
  Memory.writeSeq_writeSeq hm offCksum_le_length

@[simp] theorem stampedFile_length : (stampedFile l f c w h body).length = hdrSize l + body.length := by
  rw [stampedFile, patched_length offCksum_le_length, List.length_append, makeHeader_length]

/-- Past its header a stamped file is its body. -/
theorem stampedFile_drop : (stampedFile l f c w h body).drop (hdrSize l) = body := by
  have hout := offCksum_le_length (l := l) (f := f) (c := c) (w := w) (h := h) (body := body)
  rw [stampedFile, patched_drop (offCksum_lt l) (by omega), List.drop_left' (makeHeader_length ..)]

/-- A header whose fields pass their checks has all six flags set. -/
theorem validate_eq_all {hd : List Byte} {ck : BitVec 16} (hm : hd.take (magicLen l) = magic l)
    (hf : byteAt hd (offPixfmt l) = 1 ∨ byteAt hd (offPixfmt l) = 2)
    (hc : byteAt hd (offComp l) = 0 ∨ byteAt hd (offComp l) = 1) (hw : readLe32 hd (offWidth l) ≠ 0)
    (hh : readLe32 hd (offHeight l) ≠ 0) (hck : readLe16 hd (offCksum l) = ck) : validate l hd ck = 0x0000003F := by
  have hcode {a b x : Byte} (hx : x = a ∨ x = b) : (x == a || x == b) = true := by
    rwa [Bool.or_eq_true, beq_iff_eq, beq_iff_eq]
  rw [validate, magicOk, beq_iff_eq.2 hm, hcode hf, hcode hc, bne_iff_ne.2 hw, bne_iff_ne.2 hh,
    beq_iff_eq.2 hck.symm, hdrValidWord_all]

theorem pixFmt_code_cases (f : PixFmt) : f.code = 1 ∨ f.code = 2 := by
  cases f with
  | rgb8 => exact .inl rfl
  | gray8 => exact .inr rfl

theorem cksum_stampedFile :
    cksum (stampedFile l f c w h body) (offCksum l) = cksum (makeHeader l f c w h ++ body) (offCksum l) :=
  cksum_patched offCksum_le_length _

/-- A stamped file passes the six checks (46_file.md R218(a)). -/
theorem validate_stampedFile (hc : c = 0 ∨ c = 1) (hw : w ≠ 0) (hh : h ≠ 0) :
    validate l ((stampedFile l f c w h body).take (hdrSize l)) (cksum (stampedFile l f c w h body) (offCksum l)) =
      0x0000003F := by
  obtain ⟨hmagic, hfmt, hcomp, hwidth, hheight, hck⟩ := stamped_header_fields (stampedFile l f c w h body) _ rfl rfl
  rw [cksum_stampedFile]
  refine validate_eq_all hmagic ?_ ?_ ?_ ?_ hck
  · rw [hfmt]
    exact pixFmt_code_cases f
  · rwa [hcomp]
  · rwa [hwidth]
  · rwa [hheight]

/-- A file whose header has the right magic, the pixel offset HDR_SIZE and the file's checksum is the stamped file of
its fields and of what follows its header. -/
theorem eq_stampedFile {file hd : List Byte} (hlen : hdrSize l ≤ file.length) (hhd : file.take (hdrSize l) = hd)
    (hm : hd.take (magicLen l) = magic l) (hf : byteAt hd (offPixfmt l) = f.code)
    (ho : readLe32 hd (offPixoff l) = BitVec.ofNat 32 (hdrSize l))
    (hck : cksum file (offCksum l) = readLe16 hd (offCksum l)) :
    file = stampedFile l f (byteAt hd (offComp l)) (readLe32 hd (offWidth l)) (readLe32 hd (offHeight l))
      (file.drop (hdrSize l)) := by
  have hfields := header_eq (by rw [← hhd, List.length_take, Nat.min_eq_left hlen]) hm
  rw [hf, ho] at hfields
  have hpatched : file = patched (makeHeader l f (byteAt hd (offComp l)) (readLe32 hd (offWidth l))
      (readLe32 hd (offHeight l)) ++ file.drop (hdrSize l)) (offCksum l) (le16 (cksum file (offCksum l))) := by
    rw [stamped_header, hck, ← hfields, ← hhd, List.take_append_drop]
  have hsum := cksum_patched (v := cksum file (offCksum l)) (offCksum_le_length (l := l) (f := f)
    (c := byteAt hd (offComp l)) (w := readLe32 hd (offWidth l)) (h := readLe32 hd (offHeight l))
    (body := file.drop (hdrSize l)))
  rw [← hpatched] at hsum
  rw [stampedFile, ← hsum]
  exact hpatched

end

end Sys2Proof.Machine

/-! The file-level commands (46_file.md R211 to R217): the bytes ReadBody and WriteBody answer, how a command completes
and how it ends with an error, for the three commands alike. -/

namespace Sys2Proof.Machine

/-! ## What sets the three commands apart -/

/-- The pixel format of a file-level command's output (R215 to R217). -/
def outputFormat : Instr → FileInfo → PixFmt
  | .fileConvert df, _ => df
  | _, i => i.f

/-- The compression of a file-level command's output (R215 to R217). -/
def outputComp : Instr → FileInfo → Byte
  | .fileCompress, _ => 1
  | .fileDecompress, _ => 0
  | _, i => i.c

/-- The pixels of a file-level command's output, from those of its input (R215 to R217). -/
def outputPixels : Instr → FileInfo → List Byte → List Byte
  | .fileConvert df, i, pix => convert pix i.f df
  | _, _, pix => pix

theorem commandBody_of_isFile {i : Instr} (hi : isFile i = true) (s : State) :
    commandBody i s = fileBody s (outputFormat i) (outputComp i) (outputPixels i) := by
  cases i with
  | fileCompress | fileDecompress | fileConvert => rfl
  | nop | hdrParse | cksum | cksumStamp | rowEnc | rowDec | imgEnc | imgDec | cvt | reserved43 | literalBlock
  | repeatBlock => cases hi

theorem usesWindow_of_isFile {i : Instr} (hi : isFile i = true) : usesWindow i = true := by
  obtain rfl | rfl | ⟨df, rfl⟩ := isFile_iff.1 hi <;> rfl

theorem isFile_of_mem {i : Instr}
    (hi : i ∈ [Instr.fileCompress, .fileDecompress, .fileConvert .rgb8, .fileConvert .gray8]) : isFile i = true := by
  simp only [List.mem_cons, List.not_mem_nil, or_false] at hi
  obtain rfl | rfl | rfl | rfl := hi <;> rfl

/-! ## ReadBody and WriteBody -/

section
variable {s : State} {i : FileInfo} {e : Err} {pix : List Byte} {p : Nat}

theorem readBody_raw (hc : i.c = 0)
    (hn : i.w.toNat * i.h.toNat * i.f.bpp ≤ s.regs.srcLen.toNat - hdrSize s.cfg.layout) :
    readBody s i = .ok (s.srcSeq (hdrSize s.cfg.layout) (i.w.toNat * i.h.toNat * i.f.bpp),
      hdrSize s.cfg.layout + i.w.toNat * i.h.toNat * i.f.bpp) := by
  rw [readBody, if_pos hc, if_pos hn]

theorem readBody_raw_short (hc : i.c = 0)
    (hn : s.regs.srcLen.toNat - hdrSize s.cfg.layout < i.w.toNat * i.h.toNat * i.f.bpp) :
    readBody s i = .error (.truncated 2) := by
  rw [readBody, if_pos hc, if_neg (Nat.not_le.2 hn)]

theorem readBody_rle_ok (hc : i.c ≠ 0) (hd : decodeImage i.w.toNat i.f.bpp i.h.toNat
      (s.srcSeq (hdrSize s.cfg.layout) (s.regs.srcLen.toNat - hdrSize s.cfg.layout)) = .ok (pix, p)) :
    readBody s i = .ok (pix, hdrSize s.cfg.layout + p) := by
  simp only [readBody, if_neg hc, hd]

theorem readBody_rle_error (hc : i.c ≠ 0) (hd : decodeImage i.w.toNat i.f.bpp i.h.toNat
      (s.srcSeq (hdrSize s.cfg.layout) (s.regs.srcLen.toNat - hdrSize s.cfg.layout)) = .error e) :
    readBody s i = .error e := by
  simp only [readBody, if_neg hc, hd]

/-- The body of the output: WriteBody on the output's pixels, in its format and compression. -/
def outputBody (cmd : Instr) (i : FileInfo) (pix : List Byte) : Except Err (List Byte) :=
  writeBody (outputPixels cmd i pix) i.w i.h (outputFormat cmd i) (outputComp cmd i)

theorem outputBody_raw {cmd : Instr} (hc : outputComp cmd i = 0) :
    outputBody cmd i pix = .ok (outputPixels cmd i pix) := by
  rw [outputBody, writeBody, if_pos hc]

theorem outputBody_rle {cmd : Instr} (hc : outputComp cmd i = 1) : outputBody cmd i pix =
    encodeImage i.w.toNat (outputFormat cmd i).bpp i.h.toNat (outputPixels cmd i pix) := by
  rw [outputBody, writeBody, if_neg (by rw [hc]; decide)]

/-! ## The fields of the parsed header -/

/-- The format of a code that is legal has that code. -/
theorem fmtOfValid_code {b : Byte} (hb : b = 1 ∨ b = 2) : (fmtOfValid b).code = b := by
  obtain rfl | rfl := hb <;> rfl

theorem fmtOfValid_of_code (f : PixFmt) : fmtOfValid f.code = f := by
  cases f <;> rfl

/-! ## Past FileFront -/

/-- The errors of a computation's steps are raised at one state. -/
theorem raisedAt_bind {α β : Type} (s : State) (x : Except Err α) (f : α → Except Err β) :
    raisedAt s (x >>= f) = raisedAt s x >>= fun a => raisedAt s (f a) := by
  cases x <;> rfl

/-- What a file-level command does once the five header checks have passed: ReadBody, WriteBody, FileBack
(R212 to R214). -/
def fileResult (i : Instr) (s : State) : Except Err State := do
  let (pix, consumed) ← readBody s s.fileInfo
  let body ← outputBody i s.fileInfo pix
  fileBack s.parsePoint (outputFormat i s.fileInfo) (outputComp i s.fileInfo) s.fileInfo.w s.fileInfo.h body consumed

section
variable {i : Instr} {body : List Byte}

theorem fileResult_of_readBody_error (hr : readBody s s.fileInfo = .error e) : fileResult i s = .error e := by
  rw [fileResult, hr]
  rfl

theorem fileResult_of_body_error (hr : readBody s s.fileInfo = .ok (pix, p))
    (hb : outputBody i s.fileInfo pix = .error e) : fileResult i s = .error e :=
  except_bind_error.2 (.inr ⟨(pix, p), hr, except_bind_error.2 (.inl hb)⟩)

theorem fileResult_of_body (hr : readBody s s.fileInfo = .ok (pix, p))
    (hb : outputBody i s.fileInfo pix = .ok body) :
    fileResult i s = fileBack s.parsePoint (outputFormat i s.fileInfo) (outputComp i s.fileInfo) s.fileInfo.w
      s.fileInfo.h body p := by
  simp only [fileResult, hr, hb, bind, Except.bind]

variable (hi : isFile i = true)
include hi

/-- Once the header checks have passed, every error is raised at the parse point. -/
theorem commandBody_eq_fileResult (hp : fileHeaderPasses s) :
    commandBody i s = raisedAt s.parsePoint (fileResult i s) := by
  obtain ⟨hlen, hchecks⟩ := fileHeaderPasses_iff.1 hp
  have hfront : fileFront s = .ok (s.parsePoint, s.fileInfo) := fileFront_ok.2 ⟨hlen, hchecks, rfl, rfl⟩
  rw [commandBody_of_isFile hi, fileBody, hfront, fileResult]
  simp only [raisedAt_bind]
  rfl

variable (hw : windowsReady i s = true)
include hw

/-- An error of FileFront is the command's. -/
theorem endsWithError_of_fileFront {u : State} (hf : fileFront s = .error (u, e)) (hu : u = s ∨ u = s.parsePoint) :
    endsWithError i s u.regs (doneStatus (some e)) := by
  have hbody : commandBody i s = .error (u, e) := by
    rw [commandBody_of_isFile hi]
    exact fileBody_error.2 (.inl hf)
  have hx := exec_eq_runCommand (usesWindow_of_isFile hi) s
  obtain rfl | rfl := hu
  · exact endsWithError_of_raise hx hw hbody rfl rfl rfl rfl rfl rfl
  · exact endsWithError_of_raise hx hw hbody rfl rfl rfl rfl rfl rfl

variable (hp : fileHeaderPasses s)
include hp

/-- An error past FileFront is the command's, and the registers keep what was parsed (10_state.md R36). -/
theorem endsWithError_of_fileResult (hr : fileResult i s = .error e) :
    endsWithError i s s.parsePoint.regs (doneStatus (some e)) :=
  endsWithError_of_raise (exec_eq_runCommand (usesWindow_of_isFile hi) s) hw
    (by rw [commandBody_eq_fileResult hi hp, hr, raisedAt]) rfl rfl rfl rfl rfl rfl

/-- A file-level command that reads, changes and writes its body completes with the file's bytes and its stamp
(R211 to R214). -/
theorem fileCommandEnds_of_body (hr : readBody s s.fileInfo = .ok (pix, p))
    (hb : outputBody i s.fileInfo pix = .ok body)
    (hcap : hdrSize s.cfg.layout + body.length ≤ s.regs.dstCap.toNat) :
    fileCommandEnds i s (outputFormat i s.fileInfo) (outputComp i s.fileInfo) body p := by
  unfold fileCommandEnds
  intro l h ck out c
  have hout : out.length = hdrSize l + body.length := by rw [List.length_append, makeHeader_length]
  have hbody : commandBody i s = .ok (((s.parsePoint.dstWrite out).stamp out.length).setLengths out.length p) := by
    rw [commandBody_eq_fileResult hi hp, raisedAt_ok, fileResult_of_body hr hb]
    exact fileBack_ok.2 ⟨hout.symm ▸ hcap, rfl⟩
  have hwritten : (s.parsePoint.dstWrite out).dstSeq 0 out.length = out := Memory.readSeq_writeSeq ..
  rw [exec_eq_runCommand (usesWindow_of_isFile hi), runCommand_ok hw hbody, State.stamp, hwritten, hout]
  rfl

end

end

/-! ## The obligations -/

/-- Settles O27: the body written is the framed image. -/
theorem fileCompressCompletes : Obligations.FileCompressCompletes :=
  fun _ _ _ _ hw _ hp hr hb hcap => fileCommandEnds_of_body (i := .fileCompress) rfl hw hp hr hb hcap

/-- Settles O28: the body written is the pixels. -/
theorem fileDecompressCompletes : Obligations.FileDecompressCompletes :=
  fun _ _ _ hw _ hp hr hcap => fileCommandEnds_of_body (i := .fileDecompress) rfl hw hp hr rfl hcap

/-- Settles O29: the body written is the converted pixels, framed when the input is RLE. -/
theorem fileConvertCompletes : Obligations.FileConvertCompletes := by
  intro s df pix body consumed hw _ hp hr hraw hrle hcap
  refine fileCommandEnds_of_body (i := .fileConvert df) rfl hw hp hr ?_ hcap
  obtain ⟨-, -, -, hc0 | hc1, -⟩ := id hp
  · rw [hraw hc0]
    exact outputBody_raw hc0
  · exact (outputBody_rle (cmd := .fileConvert df) (i := s.fileInfo) hc1).trans (hrle hc1)

/-- STATUS of INVALID_FILE with the mask of the failed checks. -/
theorem doneStatus_invalidFile (bad : Byte) :
    doneStatus (some (.invalidFile bad)) = 0x00000016 ||| bad.setWidth 32 <<< 8 := by
  revert bad
  decide

/-- Settles O46: FileFront's two errors, ReadBody's two, then what both answer when no check fails. -/
theorem fileFrontThenReadBody : Obligations.FileFrontThenReadBody := by
  intro i s hmem hw _ l h ck bad parsed
  have hi := isFile_of_mem hmem
  refine ⟨fun hl => ?_, fun hl hbad => ?_, fun hl hbad hc hn => ?_, fun e hl hbad hc hd => ?_, fun hl hbad => ?_,
    fun _ _ => ?_⟩
  · exact endsWithError_of_fileFront hi hw (fileFront_error.2 (.inl ⟨hl, rfl, rfl⟩)) (.inl rfl)
  · rw [← doneStatus_invalidFile]
    exact endsWithError_of_fileFront hi hw (fileFront_error.2 (.inr ⟨hl, hbad, rfl, rfl⟩)) (.inr rfl)
  · exact endsWithError_of_fileResult hi hw (fileHeaderPasses_iff.2 ⟨hl, hbad⟩)
      (fileResult_of_readBody_error (readBody_raw_short hc hn))
  · exact endsWithError_of_fileResult hi hw (fileHeaderPasses_iff.2 ⟨hl, hbad⟩)
      (fileResult_of_readBody_error (readBody_rle_error hc hd))
  · obtain ⟨-, -, hfmt, -⟩ := fileHeaderPasses_iff.2 ⟨hl, hbad⟩
    exact ⟨rfl, rfl, fmtOfValid_code hfmt, rfl⟩
  · exact ⟨readBody_raw, fun pix p => readBody_rle_ok⟩

/-- Settles O47: an error of WriteBody is RANGE 1, and FileBack's is WRITE 1. -/
theorem fileOutputErrors : Obligations.FileOutputErrors := by
  intro i s pix consumed f2 c2 pix2 hcmd hw _ hp hr l h ck parsed
  obtain ⟨hi, rfl, rfl, rfl⟩ : isFile i = true ∧ f2 = outputFormat i s.fileInfo ∧ c2 = outputComp i s.fileInfo ∧
      pix2 = outputPixels i s.fileInfo pix := by
    obtain ⟨rfl, rfl, rfl, rfl⟩ | ⟨rfl, rfl, rfl, rfl⟩ | ⟨df, rfl, rfl, rfl, rfl⟩ := hcmd <;>
      exact ⟨rfl, rfl, rfl, rfl⟩
  refine ⟨fun hc hnone => ?_, fun body hbody hcap => ?_⟩
  · cases hb : encodeImage s.fileInfo.w.toNat (outputFormat i s.fileInfo).bpp s.fileInfo.h.toNat
        (outputPixels i s.fileInfo pix) with
    | ok b => exact absurd hb (hnone b)
    | error e =>
      cases encodeImage_error hb
      exact endsWithError_of_fileResult hi hw hp (fileResult_of_body_error hr ((outputBody_rle hc).trans hb))
  · have hb : outputBody i s.fileInfo pix = .ok body := by
      obtain ⟨hc, rfl⟩ | ⟨hc, hb⟩ := hbody
      · exact outputBody_raw hc
      · exact (outputBody_rle hc).trans hb
    refine endsWithError_of_fileResult (e := .outputTooLong) hi hw hp ((fileResult_of_body hr hb).trans ?_)
    exact fileBack_error.2 ⟨by rwa [List.length_append, makeHeader_length], rfl⟩

end Sys2Proof.Machine

/-! What stands in the output of a file-level command (46_file.md R218): HDR_PARSE finds all six checks passed, and
FILE_DECOMPRESS gives back the file that FILE_COMPRESS was given. -/

namespace Sys2Proof.Machine

/-! ## A source window and its header -/

section
variable {s u : State} {l : HdrLayout} {f : PixFmt} {c : Byte} {w h : Word} {body : List Byte}

/-- The header is the first bytes of the source window. -/
theorem srcHeader_eq_take (hl : hdrSize s.cfg.layout ≤ s.regs.srcLen.toNat) :
    s.srcHeader = (s.srcSeq 0 s.regs.srcLen.toNat).take (hdrSize s.cfg.layout) :=
  (Memory.readSeq_take _ _ _ _ hl).symm

/-- What follows the header is the rest of the source window. -/
theorem srcSeq_hdrSize_eq_drop (hl : hdrSize s.cfg.layout ≤ s.regs.srcLen.toNat) :
    s.srcSeq (hdrSize s.cfg.layout) (s.regs.srcLen.toNat - hdrSize s.cfg.layout) =
      (s.srcSeq 0 s.regs.srcLen.toNat).drop (hdrSize s.cfg.layout) :=
  (Memory.readSeq_drop _ _ _ _ hl).symm

/-- The source window holds the stamped file of these fields and this body, and nothing more. -/
structure HoldsFile (u : State) (f : PixFmt) (c : Byte) (w h : Word) (body : List Byte) : Prop where
  length : u.regs.srcLen.toNat = hdrSize u.cfg.layout + body.length
  bytes : u.srcSeq 0 u.regs.srcLen.toNat = stampedFile u.cfg.layout f c w h body

/-- The source window of a reader placed on the output of a file-level command holds the file written. -/
theorem holdsFile_of_written {m : Memory} {a : Nat}
    (hmem : u.mem = m.writeSeq a (stampedFile u.cfg.layout f c w h body)) (hbase : u.regs.srcBase.toNat = a)
    (hlen : u.regs.srcLen.toNat = hdrSize u.cfg.layout + body.length) : HoldsFile u f c w h body := by
  refine ⟨hlen, ?_⟩
  rw [hlen, ← stampedFile_length]
  exact srcSeq_written hmem hbase

section
variable (hu : HoldsFile u f c w h body)
include hu

theorem HoldsFile.hdrSize_le : hdrSize u.cfg.layout ≤ u.regs.srcLen.toNat :=
  hu.length ▸ Nat.le_add_right _ _

theorem HoldsFile.srcHeader_eq : u.srcHeader = (stampedFile u.cfg.layout f c w h body).take (hdrSize u.cfg.layout) := by
  rw [srcHeader_eq_take hu.hdrSize_le, hu.bytes]

/-- All six checks pass on the stamped file (46_file.md R218(a)). -/
theorem HoldsFile.validate_eq (hc : c = 0 ∨ c = 1) (hw : w ≠ 0) (hh : h ≠ 0) :
    validate u.cfg.layout u.srcHeader u.srcCksum = 0x0000003F := by
  rw [hu.srcHeader_eq, State.srcCksum, hu.bytes]
  exact validate_stampedFile hc hw hh

theorem HoldsFile.checks_pass (hc : c = 0 ∨ c = 1) (hw : w ≠ 0) (hh : h ≠ 0) : fileHeaderPasses u := by
  refine fileHeaderPasses_iff.2 ⟨hu.hdrSize_le, ?_⟩
  rw [hu.validate_eq hc hw hh]
  decide

/-- FileFront finds the file's fields. -/
theorem HoldsFile.fileInfo_eq : u.fileInfo = ⟨w, h, f, c⟩ := by
  obtain ⟨-, hfmt, hcomp, hwidth, hheight, -⟩ := stamped_header_fields _ _ rfl hu.srcHeader_eq
  rw [State.fileInfo]
  simp only [hfmt, hcomp, hwidth, hheight, fmtOfValid_of_code]

/-- What follows the header is the file's body. -/
theorem HoldsFile.srcBody_eq : u.srcSeq (hdrSize u.cfg.layout) (u.regs.srcLen.toNat - hdrSize u.cfg.layout) = body := by
  rw [srcSeq_hdrSize_eq_drop hu.hdrSize_le, hu.bytes, stampedFile_drop]

end

end

/-! ## The output passes the checks -/

/-- Settles O59: the output is a stamped file of legal fields, and HDR_PARSE's windows are ready on it. -/
theorem fileOutputValidates : Obligations.FileOutputValidates := by
  intro i s t u hi hm hx he hcfg hmem hbase hlen
  have hi := isFile_of_mem hi
  obtain ⟨f, c, pix, consumed, body, hr, hcw, hp, -, hc, htcfg, htbase, htlen, hcap, htmem, -⟩ :=
    file_command_leaves hi hm hx he
  have hd : usesDst i = true := by obtain rfl | rfl | ⟨df, rfl⟩ := isFile_iff.1 hi <;> rfl
  have hlayout : u.cfg.layout = s.cfg.layout := by rw [hcfg, htcfg]
  have hbase' : u.regs.srcBase = s.regs.dstBase := hbase.trans htbase
  have hlen' : u.regs.srcLen.toNat = hdrSize s.cfg.layout + body.length := by rw [hlen, htlen]
  have hu : HoldsFile u f c s.fileInfo.w s.fileInfo.h body :=
    holdsFile_of_written (by rw [hmem, htmem, hlayout]; rfl) (by rw [hbase']) (by rw [hlen', hlayout])
  have hready : windowsReady .hdrParse u = true :=
    windowsReady_hdrParse_of_output (hcfg.trans htcfg) hbase' (hlen'.trans_le hcap) hd hr hcw
  obtain ⟨-, -, -, -, hw, hh⟩ := hp
  refine ⟨_, (exec_eq_runCommand rfl u).trans (runCommand_ok hready (hdrParse_body_of_le hu.hdrSize_le)), rfl, ?_⟩
  exact hu.validate_eq hc hw hh

/-! ## Compress, then decompress -/

theorem pixFmt_bpp_cases (f : PixFmt) : f.bpp = 1 ∨ f.bpp = 3 := by
  cases f with
  | rgb8 => exact .inr rfl
  | gray8 => exact .inl rfl

/-- The file that a completed file-level command leaves. -/
theorem exec_of_fileCommandEnds {i : Instr} {s : State} {f : PixFmt} {c : Byte} {body : List Byte} {p : Nat}
    (hm : s.mem.wf = true) (h : fileCommandEnds i s f c body p) :
    ∃ v, exec i s = .next v ∧ v.regs.status = 0x00000002 ∧
      v.regs.outLen = BitVec.ofNat 32 (hdrSize s.cfg.layout + body.length) ∧
      v.mem = s.mem.writeSeq s.regs.dstBase.toNat
        (stampedFile s.cfg.layout f c s.fileInfo.w s.fileInfo.h body) :=
  ⟨_, h, rfl, rfl, writeSeq_stampedFile hm⟩

/-- FILE_DECOMPRESS on a file whose body frames these pixels writes the stamped file of the pixels themselves. -/
theorem exec_fileDecompress_of_holdsFile {u : State} {f : PixFmt} {w h : Word} {pix body : List Byte}
    (hu : HoldsFile u f 1 w h body) (hready : windowsReady .fileDecompress u = true) (hm : u.mem.wf = true)
    (hw : w ≠ 0) (hh : h ≠ 0) (hlen : pix.length = h.toNat * (w.toNat * f.bpp))
    (he : encodeImage w.toNat f.bpp h.toNat pix = .ok body)
    (hcap : hdrSize u.cfg.layout + pix.length ≤ u.regs.dstCap.toNat) :
    ∃ v, exec .fileDecompress u = .next v ∧ v.regs.status = 0x00000002 ∧
      v.regs.outLen = BitVec.ofNat 32 (hdrSize u.cfg.layout + pix.length) ∧
      v.mem = u.mem.writeSeq u.regs.dstBase.toNat (stampedFile u.cfg.layout f 0 w h pix) := by
  have hw1 : 1 ≤ w.toNat := Nat.pos_of_ne_zero fun h0 => hw (BitVec.eq_of_toNat_eq h0)
  have hdec : decodeImage w.toNat f.bpp h.toNat body = .ok (pix, body.length) := by
    simpa using decodeImage_encodeImage [] hw1 (pixFmt_bpp_cases f) hlen he
  have hread : readBody u u.fileInfo = .ok (pix, hdrSize u.cfg.layout + body.length) := by
    rw [hu.fileInfo_eq]
    refine readBody_rle_ok (by simp) ?_
    rw [hu.srcBody_eq]
    exact hdec
  have hends := exec_of_fileCommandEnds hm
    (fileDecompressCompletes u pix _ hready hm (hu.checks_pass (.inr rfl) hw hh) hread hcap)
  rwa [hu.fileInfo_eq] at hends

/-- A clean uncompressed file, with no trailing bytes, the pixel offset HDR_SIZE and a correct checksum, is the stamped
file of the pixels that ReadBody answers. -/
theorem source_eq_stampedFile {s : State} {pix : List Byte} {p : Nat} (hp : fileHeaderPasses s)
    (hc : s.fileInfo.c = 0)
    (ho : readLe32 s.srcHeader (offPixoff s.cfg.layout) = BitVec.ofNat 32 (hdrSize s.cfg.layout))
    (hn : s.regs.srcLen.toNat =
      hdrSize s.cfg.layout + s.fileInfo.w.toNat * s.fileInfo.h.toNat * s.fileInfo.f.bpp)
    (hck : s.srcCksum = readLe16 s.srcHeader (offCksum s.cfg.layout))
    (hr : readBody s s.fileInfo = .ok (pix, p)) :
    s.srcSeq 0 s.regs.srcLen.toNat = stampedFile s.cfg.layout s.fileInfo.f 0 s.fileInfo.w s.fileInfo.h pix ∧
      pix.length = s.fileInfo.w.toNat * s.fileInfo.h.toNat * s.fileInfo.f.bpp := by
  obtain ⟨hlen, hmagic, hfmt, -⟩ := hp
  have hrest : s.regs.srcLen.toNat - hdrSize s.cfg.layout =
      s.fileInfo.w.toNat * s.fileInfo.h.toNat * s.fileInfo.f.bpp := by omega
  cases (readBody_raw hc hrest.ge).symm.trans hr
  refine ⟨?_, Memory.readSeq_length ..⟩
  rw [← hrest, srcSeq_hdrSize_eq_drop hlen]
  have hfile := eq_stampedFile (f := s.fileInfo.f) (by rwa [State.srcSeq, Memory.readSeq_length])
    (srcHeader_eq_take hlen).symm hmagic (fmtOfValid_code hfmt).symm ho hck
  rwa [show byteAt s.srcHeader (offComp s.cfg.layout) = 0 from hc] at hfile

theorem offComp_lt (l : HdrLayout) : offComp l < hdrSize l := by
  cases l <;> decide

theorem offPixoff_le (l : HdrLayout) : offPixoff l + 4 ≤ hdrSize l := by
  cases l <;> decide

/-- A field read from the file is the one read from its header. -/
theorem readLe32_take {file : List Byte} {n o : Nat} (h : o + 4 ≤ n) : readLe32 (file.take n) o = readLe32 file o :=
  readLe32_congr fun _ _ hk => byteAt_take (by omega)

theorem readLe16_take {file : List Byte} {n o : Nat} (h : o + 2 ≤ n) : readLe16 (file.take n) o = readLe16 file o :=
  readLe16_congr fun _ _ hk => byteAt_take (by omega)

/-- Settles O60: the compressed file's body frames the pixels, so FILE_DECOMPRESS writes the stamped file of these, and
a clean file is that stamped file. -/
theorem compressDecompressRoundTrip : Obligations.CompressDecompressRoundTrip := by
  intro s t u l n file hm hx he hcomp hoff hn hck hcfg hmem hbase hlen hready hcap
  obtain ⟨_, _, pix, consumed, body, -, -, hp, hread, -, htcfg, htbase, htlen, -, htmem, hout, -⟩ :=
    file_command_leaves rfl hm hx he
  obtain ⟨rfl, rfl, henc⟩ := hout rfl
  obtain ⟨hle, -, -, -, hw, hh⟩ := id hp
  have hhd : s.srcHeader = file.take (hdrSize l) := srcHeader_eq_take hle
  have hlayout : u.cfg.layout = s.cfg.layout := by rw [hcfg, htcfg]
  obtain ⟨hfile, hpix⟩ := source_eq_stampedFile hp
    (by rw [show s.fileInfo.c = byteAt s.srcHeader (offComp l) from rfl, hhd, byteAt_take (offComp_lt l), hcomp])
    (by rw [hhd, readLe32_take (offPixoff_le l), hoff]) hn
    (by rw [hhd, readLe16_take (offCksum_lt l), ← hck]; rfl) hread
  have hu : HoldsFile u s.fileInfo.f 1 s.fileInfo.w s.fileInfo.h body :=
    holdsFile_of_written (by rw [hmem, htmem, hlayout]; rfl) (by rw [hbase, htbase]) (by rw [hlen, htlen, hlayout])
  have hun : hdrSize u.cfg.layout + pix.length = n := by rw [hlayout, hpix]; exact hn.symm
  obtain ⟨v, hv, hstatus, hvlen, hvmem⟩ := exec_fileDecompress_of_holdsFile hu hready
    (by rw [hmem, htmem]; exact Memory.writeSeq_wf _ _ hm) hw hh (by rw [hpix]; ring) henc (hun.trans_le hcap)
  refine ⟨v, hv, hstatus, ?_, ?_⟩
  · rw [hvlen, hun, BitVec.ofNat_toNat, BitVec.setWidth_eq]
  · have hback := Memory.readSeq_writeSeq u.mem u.regs.dstBase.toNat file
    rw [Memory.readSeq_length] at hback
    rw [hvmem, hlayout, ← hfile]
    exact hback

end Sys2Proof.Machine

/-! The errors of the primitive codec commands in their order (60_exceptions.md R245), and the STATUS values an engine's
step can leave (R241, R244). -/

namespace Sys2Proof.Machine

/-! ## What each codec command raises past Geometry

Once Geometry has answered, a computation raises at one of its own checks or inside its codec, with the checks before
it passed. -/

section
variable {s : State} {w h : Nat} {f : PixFmt} {e : Err}

theorem rowEncResult_error (hg : geometry false s.regs = .ok (w, h, f)) : rowEncResult s = .error e ↔
    s.regs.srcLen.toNat < w * f.bpp ∧ e = .truncated 5 ∨
    w * f.bpp ≤ s.regs.srcLen.toNat ∧
      s.regs.dstCap.toNat < (encodeRow (s.srcSeq 0 (w * f.bpp)) w f.bpp).length ∧ e = .outputTooLong := by
  simp [rowEncResult, hg, except_bind_error, check_ok, check_error, pure, Except.pure]

theorem rowDecResult_error (hg : geometry false s.regs = .ok (w, h, f)) : rowDecResult s = .error e ↔
    s.regs.dstCap.toNat < w * f.bpp ∧ e = .outputTooLong ∨
    w * f.bpp ≤ s.regs.dstCap.toNat ∧ decodeRow (s.srcSeq 0 s.regs.srcLen.toNat) w f.bpp = .error e := by
  simp [rowDecResult, hg, except_bind_error, check_ok, check_error, pure, Except.pure]

theorem imgEncResult_error (hg : geometry true s.regs = .ok (w, h, f)) : imgEncResult s = .error e ↔
    s.regs.srcLen.toNat < w * h * f.bpp ∧ e = .truncated 5 ∨
    w * h * f.bpp ≤ s.regs.srcLen.toNat ∧ (encodeImage w f.bpp h (s.srcSeq 0 (w * h * f.bpp)) = .error e ∨
      ∃ b, encodeImage w f.bpp h (s.srcSeq 0 (w * h * f.bpp)) = .ok b ∧ s.regs.dstCap.toNat < b.length ∧
        e = .outputTooLong) := by
  simp [imgEncResult, hg, except_bind_error, check_ok, check_error, pure, Except.pure]

theorem imgDecResult_error (hg : geometry true s.regs = .ok (w, h, f)) : imgDecResult s = .error e ↔
    s.regs.dstCap.toNat < w * h * f.bpp ∧ e = .outputTooLong ∨
    w * h * f.bpp ≤ s.regs.dstCap.toNat ∧
      decodeImage w f.bpp h (s.srcSeq 0 s.regs.srcLen.toNat) = .error e := by
  simp [imgDecResult, hg, except_bind_error, check_ok, check_error]

theorem cvtResult_error {df : PixFmt} (hg : geometry true s.regs = .ok (w, h, f)) : cvtResult df s = .error e ↔
    s.regs.srcLen.toNat < w * h * f.bpp ∧ e = .truncated 5 ∨
    w * h * f.bpp ≤ s.regs.srcLen.toNat ∧ s.regs.dstCap.toNat < w * h * df.bpp ∧ e = .outputTooLong := by
  simp [cvtResult, hg, except_bind_error, check_ok, check_error, pure, Except.pure]

end

/-- A command whose body raises before it has changed anything ends with that error. -/
theorem endsWithError_of_body {i : Instr} {s : State} {e : Err} (hu : usesWindow i = true)
    (hw : windowsReady i s = true) (hb : commandBody i s = .error (s, e)) :
    endsWithError i s s.regs (doneStatus (some e)) :=
  endsWithError_of_raise (exec_eq_runCommand hu s) hw hb rfl rfl rfl rfl rfl rfl

/-- Settles O44: past Geometry each command's computation raises exactly its own errors, in their order. -/
theorem codecErrorsInOrder : Obligations.CodecErrorsInOrder := by
  intro s f hwidth hf _ w h srcLen dstCap src
  have hrow : geometry false s.regs = .ok (w, h, f) := geometry_ok.2 ⟨hwidth, by simp, hf, rfl, rfl⟩
  have himg (hh : s.regs.height ≠ 0) : geometry true s.regs = .ok (w, h, f) :=
    geometry_ok.2 ⟨hwidth, fun _ => hh, hf, rfl, rfl⟩
  refine ⟨fun hw => ?_, fun hw => ?_, fun hh hw => ?_, fun hh hw => ?_, fun df hh hw => ?_⟩
  · have raises {e : Err} he :=
      endsWithError_of_body (e := e) rfl hw (deliverBody_error.2 ⟨rfl, (rowEncResult_error hrow).2 he⟩)
    exact ⟨fun hsrc => raises (.inl ⟨hsrc, rfl⟩), fun hsrc hcap => raises (.inr ⟨hsrc, hcap, rfl⟩)⟩
  · have raises {e : Err} he :=
      endsWithError_of_body (e := e) rfl hw (deliverBody_error.2 ⟨rfl, (rowDecResult_error hrow).2 he⟩)
    exact ⟨fun hcap => raises (.inl ⟨hcap, rfl⟩), fun e hcap hdec => raises (.inr ⟨hcap, hdec⟩)⟩
  · have raises {e : Err} he :=
      endsWithError_of_body (e := e) rfl hw (deliverBody_error.2 ⟨rfl, (imgEncResult_error (himg hh)).2 he⟩)
    refine ⟨fun hsrc => raises (.inl ⟨hsrc, rfl⟩), fun hsrc hnone => ?_,
      fun b hsrc henc hcap => raises (.inr ⟨hsrc, .inr ⟨b, henc, hcap, rfl⟩⟩)⟩
    cases henc : encodeImage w f.bpp h (src (w * h * f.bpp)) with
    | ok b => exact absurd henc (hnone b)
    | error e =>
      cases encodeImage_error henc
      exact raises (.inr ⟨hsrc, .inl henc⟩)
  · have raises {e : Err} he :=
      endsWithError_of_body (e := e) rfl hw (deliverBody_error.2 ⟨rfl, (imgDecResult_error (himg hh)).2 he⟩)
    exact ⟨fun hcap => raises (.inl ⟨hcap, rfl⟩), fun e hcap hdec => raises (.inr ⟨hcap, hdec⟩)⟩
  · have raises {e : Err} he :=
      endsWithError_of_body (e := e) rfl hw (cvt_body_error.2 ⟨rfl, (cvtResult_error (himg hh)).2 he⟩)
    exact ⟨fun hsrc => raises (.inl ⟨hsrc, rfl⟩), fun hsrc hcap => raises (.inr ⟨hsrc, hcap, rfl⟩)⟩

/-! ## STATUS after the engine's step -/

theorem listed_decodeErr (e : DecodeError) : listedErr (decodeErr e) = true := by
  cases e <;> rfl

theorem listed_checkWindows {i : Instr} {r : Regs} {e : Err} (h : checkWindows i r = some e) : listedErr e = true := by
  obtain rfl | rfl | rfl := checkWindows_eq_some h <;> rfl

/-- STATUS as a completed command leaves it: no error, or one of the table's. -/
def statusDone (w : Word) : Prop :=
  w = doneStatus none ∨ ∃ e, listedErr e = true ∧ w = doneStatus (some e)

/-- An instruction that a command word encodes completes with no error or a listed one. -/
theorem exec_statusDone {i : Instr} {s t : State} {w : Word} (hword : encode i = .command w)
    (h : exec i s = .next t) : statusDone t.regs.status := by
  cases hw : usesWindow i with
  | true =>
    obtain ⟨-, ⟨e, hc, rfl⟩ | ⟨-, ⟨u, -, rfl⟩ | ⟨u, e, -, he, -, rfl⟩⟩⟩ := exec_window_cases hw h
    · exact .inr ⟨e, listed_checkWindows hc, rfl⟩
    · exact .inl rfl
    · exact .inr ⟨e, he, rfl⟩
  | false =>
    cases i with
    | nop =>
      cases h
      exact .inl rfl
    | reserved43 rest =>
      cases h
      exact .inr ⟨.illegal 1, rfl, rfl⟩
    | literalBlock | repeatBlock => cases hword
    | hdrParse | cksum | cksumStamp | rowEnc | rowDec | imgEnc | imgDec | cvt | fileCompress | fileDecompress
    | fileConvert => cases hw

theorem engineStep_statusDone {s t : State} {w : Word} (hp : s.pending = some w) (h : engineStep s = .next t) :
    statusDone t.regs.status := by
  cases hd : decodeCommand w with
  | ok i => exact exec_statusDone (encode_of_decodeCommand hd) (engineStep_of_decode hp hd ▸ h)
  | error e =>
    cases (engineStep_of_decode_error hp hd).symm.trans h
    exact .inr ⟨decodeErr e, listed_decodeErr e, rfl⟩

/-- Settles O48, by the number that STATUS is after a listed error. -/
theorem onlyListedErrorsOccur : Obligations.OnlyListedErrorsOccur := by
  intro s t w hp h
  obtain hst | ⟨e, he, hst⟩ := engineStep_statusDone hp h
  · exact .inl hst
  · exact .inr ⟨e, he, hst ▸ doneStatus_toNat e⟩

end Sys2Proof.Machine

/-! Two BUSY instances with overlapping windows (60_exceptions.md R254): a fault, whichever becomes BUSY last. -/

namespace Sys2Proof.Machine

section
variable {s : State} {w : Word}

theorem peersChange_clash {busy : List AddrRange} (hp : s.pending = some w)
    (hc : peerClash (wordWindows w s.regs) busy = true) : peersChange s busy = .fault .peerOverlap := by
  simp only [peersChange, hp, hc, if_true]

theorem writeRegister_cmd_clash (hb : s.regs.busy = false)
    (hc : peerClash (wordWindows w s.regs) s.env.peers = true) : writeRegister s 0 w = .fault .peerOverlap := by
  simp only [writeRegister, hb, RegName.ofOffset_eq_some.2 (show RegName.CMD.offset = 0 from rfl), hc,
    Bool.false_eq_true, if_false, if_true]

end

/-- Settles O12: the others' windows change while a command is pending, or CMD, at offset 0, is written. -/
theorem overlappingBusyInstancesFault : Obligations.OverlappingBusyInstancesFault := by
  refine fun s rest hr => ⟨fun w busy hp hi hc => ?_, fun w hb hi hc => ?_⟩
  · exact (step_input hr hi).trans (peersChange_clash (s := s.withInputs rest) hp hc)
  · exact (step_regWrite (off := 0) hr hi rfl rfl (by omega)).trans
      (writeRegister_cmd_clash (s := s.withInputs rest) hb hc)

end Sys2Proof.Machine

/-! Reset while a command is pending (70_reset_and_hazards.md R271): before the engine's step and after it. -/

namespace Sys2Proof.Machine

theorem step_reset {s : State} {rest : List Input} (hr : s.row = none) (hi : s.env.inputs = .reset :: rest) :
    step s = .next (s.withInputs rest).resetEvent := by
  rw [step_input hr hi, inputStep]

theorem step_engine_input {s : State} {rest : List Input} (hr : s.row = none) (hi : s.env.inputs = .engine :: rest) :
    step s = engineStep (s.withInputs rest) := by
  rw [step_input hr hi, inputStep]

/-- Settles O14: before the step the reset draws the windows of the pending command; after the step nothing is pending,
so the reset keeps memory as the step left it. -/
theorem resetBeforeOrAfterTheStep : Obligations.ResetBeforeOrAfterTheStep := by
  refine fun s w rest hr hp hm => ⟨fun hi => ?_, fun t hi ht => ?_⟩
  · obtain ⟨-, -, -, houtside, -⟩ := interrupt_facts (s.withInputs rest)
    exact ⟨_, step_reset hr hi, rfl, rfl, houtside w hp,
      fun a => interrupt_read_free (s := s.withInputs rest) hp⟩
  · rw [step_engine_input hr hi] at ht
    obtain ⟨hpend, hrow, hdst, hsrc⟩ := engineStep_facts (s := s.withInputs (.reset :: rest)) hm hp ht
    have hinputs : t.env.inputs = .reset :: rest := by rw [(engineStep_env ht).1, withInputs_env]
    have hmem : (t.withInputs rest).resetEvent.mem = t.mem := by
      obtain ⟨-, -, hidle, -⟩ := interrupt_facts (t.withInputs rest)
      rw [resetEvent_mem, hidle hpend, withInputs_mem]
    refine ⟨_, step_reset hrow hinputs, rfl, rfl, hmem, ?_, ?_⟩
    · rw [hmem]
      exact hdst
    · rw [hmem]
      exact hsrc

end Sys2Proof.Machine

/-! The first command after a reset (70_reset_and_hazards.md R273): with every register 0 both windows are empty, so
CheckWindows passes, and each command meets its own first error or has nothing to do. -/

namespace Sys2Proof.Machine

/-! ## Empty windows -/

theorem inRange_of_size_zero {r : AddrRange} (h : r.size = 0) (a : Nat) : inRange r a = false := by
  rw [inRange_eq_false, rangeEnd, h]
  omega

theorem backs_of_size_zero {r : AddrRange} (h : r.size = 0) (c : Config) : backs c r = true :=
  backs_iff.2 fun a _ ha => by simp [inRange_of_size_zero h a] at ha

theorem ordinary_of_size_zero {r : AddrRange} (h : r.size = 0) (c : Config) : ordinary c r = true :=
  ordinary_iff.2 fun a _ ha => by simp [inRange_of_size_zero h a] at ha

/-- A command whose windows are empty runs, wherever they stand: an empty window has no byte that is not ordinary
memory, does not wrap, and overlaps nothing. -/
theorem windowsReady_of_empty {s : State} (hs : s.regs.srcLen = 0) (hd : s.regs.dstCap = 0) (i : Instr) :
    windowsReady i s = true := by
  have hsrc : s.regs.srcWindow.size = 0 := congrArg BitVec.toNat hs
  have hdst : s.regs.dstWindow.size = 0 := congrArg BitVec.toNat hd
  refine windowsReady_iff.2 ⟨windowRefusal_eq_none.2 fun x hx => ?_, checkWindows_eq_none.2 ⟨fun _ => ?_, fun _ => ?_,
    fun _ _ => ?_⟩⟩
  · have hx0 : x.size = 0 := by
      have hwin : x = s.regs.srcWindow ∨ x = s.regs.dstWindow := by
        simp only [windowsOf, List.mem_append, List.mem_ite_nil_right, List.mem_singleton] at hx
        exact hx.imp And.right And.right
      obtain rfl | rfl := hwin
      · exact hsrc
      · exact hdst
    exact ⟨backs_of_size_zero hx0 _, ordinary_of_size_zero hx0 _⟩
  · rw [rangeEnd, hsrc]
    exact s.regs.srcBase.isLt.le
  · rw [rangeEnd, hdst]
    exact s.regs.dstBase.isLt.le
  · simp [overlap, hsrc]

/-! ## Commands that need a header -/

theorem hdrSize_pos (l : HdrLayout) : 0 < hdrSize l := by
  cases l <;> decide

/-- A command that parses a header raises TRUNCATED 1 when its source is shorter than one. -/
theorem endsWithError_of_short_header {i : Instr} {s : State} (hi : i = .hdrParse ∨ isFile i = true)
    (hw : windowsReady i s = true) (hl : s.regs.srcLen.toNat < hdrSize s.cfg.layout) :
    endsWithError i s s.regs 0x00000126 := by
  obtain rfl | hf := hi
  · exact endsWithError_of_body rfl hw (hdrParse_body_of_lt hl)
  · exact endsWithError_of_fileFront hf hw (fileFront_error.2 (.inl ⟨hl, rfl, rfl⟩)) (.inl rfl)

/-! ## The first command -/

/-- The word `w`, accepted and run, leaves 0 in every register but CMD and STATUS, which holds `code`. -/
def endsAlone (s : State) (w code : Word) : Prop :=
  ∃ t, engineStep (s.accept w) = .next t ∧ t.regs = { Regs.zero with cmd := w, status := code }

section
variable {s : State} {w : Word} {i : Instr}

/-- An instruction that ends with an error and its registers kept ends the first command so. -/
theorem firstCommand_of_endsWithError {code : Word} (h : s.regs = Regs.zero) (hd : decodeCommand w = .ok i)
    (he : endsWithError i (s.accept w) (s.accept w).regs code) :
    endsAlone s w code := by
  obtain ⟨t, hx, hregs, -⟩ := he
  refine ⟨t, (engineStep_of_decode (accept_pending s w) hd).trans hx, ?_⟩
  rw [hregs, accept_regs, h]
  rfl

theorem firstCommand_windowsReady (h : s.regs = Regs.zero) : windowsReady i (s.accept w) = true :=
  windowsReady_of_empty (congrArg Regs.srcLen h) (congrArg Regs.dstCap h) i

theorem firstCommand_needs_header (h : s.regs = Regs.zero) (hd : decodeCommand w = .ok i)
    (hi : i = .hdrParse ∨ isFile i = true) :
    endsAlone s w 0x00000126 := by
  refine firstCommand_of_endsWithError h hd (endsWithError_of_short_header hi (firstCommand_windowsReady h) ?_)
  rw [accept_regs, h]
  exact hdrSize_pos _

theorem firstCommand_needs_width {needH : Bool} (h : s.regs = Regs.zero) (hd : decodeCommand w = .ok i)
    (hi : asksGeometry i = some needH) :
    endsAlone s w 0x00000466 :=
  firstCommand_of_endsWithError h hd
    (endsWithError_of_geometry hi (firstCommand_windowsReady h) (geometry_error.2 (.inl ⟨congrArg Regs.width h, rfl⟩)))

theorem firstCommand_cksumStamp (h : s.regs = Regs.zero) (hd : decodeCommand w = .ok .cksumStamp) :
    endsAlone s w 0x00000766 := by
  refine firstCommand_of_endsWithError h hd
    (endsWithError_of_body rfl (firstCommand_windowsReady h) (cksumStamp_body_of_lt ?_))
  rw [accept_regs, h]
  exact Nat.succ_pos _

theorem firstCommand_nop (h : s.regs = Regs.zero) (hd : decodeCommand w = .ok .nop) : endsAlone s w 0x00000002 := by
  refine ⟨_, (engineStep_of_decode (accept_pending s w) hd).trans (nopCompletes _).1, ?_⟩
  rw [accept_regs, h]

/-- The checksum of an empty source is 0, which is what CALC_CKSUM held. -/
theorem firstCommand_cksum (h : s.regs = Regs.zero) (hd : decodeCommand w = .ok .cksum) :
    endsAlone s w 0x00000002 := by
  refine ⟨_, (engineStep_of_decode (accept_pending s w) hd).trans (cksumCompletes _ (firstCommand_windowsReady h)), ?_⟩
  have hnone : (s.accept w).mem.readSeq (s.accept w).regs.srcBase.toNat (s.accept w).regs.srcLen.toNat = [] := by
    rw [accept_regs, h]
    rfl
  rw [hnone, cksum_nil, accept_regs, h]
  rfl

end

/-- Settles O15: each word by its instruction, in the groups of R273. -/
theorem firstCommandAfterReset : Obligations.FirstCommandAfterReset := by
  refine fun s w h => ⟨fun hw => ?_, fun hw => ?_, fun hw => ?_, fun hw => ?_⟩
  · simp only [List.mem_cons, List.not_mem_nil, or_false] at hw
    obtain rfl | rfl := hw
    · exact firstCommand_nop h rfl
    · exact firstCommand_cksum h rfl
  · obtain ⟨i, hd, hi⟩ : ∃ i, decodeCommand w = .ok i ∧ (i = .hdrParse ∨ isFile i = true) := by
      simp only [List.mem_cons, List.not_mem_nil, or_false] at hw
      obtain rfl | rfl | rfl | rfl | rfl := hw
      · exact ⟨.hdrParse, rfl, .inl rfl⟩
      · exact ⟨.fileCompress, rfl, .inr rfl⟩
      · exact ⟨.fileDecompress, rfl, .inr rfl⟩
      · exact ⟨.fileConvert .rgb8, rfl, .inr rfl⟩
      · exact ⟨.fileConvert .gray8, rfl, .inr rfl⟩
    exact firstCommand_needs_header h hd hi
  · subst hw
    exact firstCommand_cksumStamp h rfl
  · obtain ⟨i, needH, hd, hi⟩ : ∃ i needH, decodeCommand w = .ok i ∧ asksGeometry i = some needH := by
      simp only [List.mem_cons, List.not_mem_nil, or_false] at hw
      obtain rfl | rfl | rfl | rfl | rfl | rfl := hw
      · exact ⟨.rowEnc, _, rfl, rfl⟩
      · exact ⟨.rowDec, _, rfl, rfl⟩
      · exact ⟨.imgEnc, _, rfl, rfl⟩
      · exact ⟨.imgDec, _, rfl, rfl⟩
      · exact ⟨.cvt .rgb8, _, rfl, rfl⟩
      · exact ⟨.cvt .gray8, _, rfl, rfl⟩
    exact firstCommand_needs_width h hd hi

end Sys2Proof.Machine
